-- ==== Sys2Proof/Word.lean ====
section
/-! DEFINITION. The word types of the register window (spec/00_scope.md R11, R12; spec/10_state.md R20). -/

namespace Sys2Proof

/-- One 32-bit word of the register window, or one command word (R20, R80). -/
abbrev Word := BitVec 32

/-- One byte of a label, a message, a tag or a KDF response (R66, R131). -/
abbrev Byte := BitVec 8

/-- A byte offset inside the 4096-byte window (R20): twelve bits reach every offset and no other. -/
abbrev Offset := BitVec 12

/-- The index of a field register, 0 to 15 (R27, R82). -/
abbrev RegIdx := Fin 16

end Sys2Proof
end

