-- ==== Sys2Proof/Syntax.lean ====
section
/-! DEFINITION. The fifteen commands (spec/30_encoding.md R84), the sequencer's phases (spec/10_state.md R36) and the host's
operations (spec/20_memory.md R62, spec/30_encoding.md R92). -/

namespace Sys2Proof

/-- The operation of a command, one for each row of R84. -/
inductive Op where
  | nop | fadd | fneg | fmul | fsqr | fcube | finv | geval | clrw
  | validate | h2f | cgen | schk | select | h2c
  deriving DecidableEq, Repr

/-- A command with its operands (R81 to R84). Operand types carry the bounds of R82 and R83, so every value of
this type is legal. -/
inductive Instr where
  | nop
  | fadd (rd rs1 rs2 : RegIdx)
  | fneg (rd rs1 : RegIdx)
  | fmul (rd rs1 rs2 : RegIdx)
  | fsqr (rd rs1 : RegIdx)
  | fcube (rd rs1 : RegIdx)
  | finv (rd rs1 : RegIdx)
  | geval (rd rs1 : RegIdx)
  | clrw
  | validate
  | h2f (rd : RegIdx) (cnt : Byte)
  | cgen
  | schk
  | select
  | h2c
  deriving DecidableEq, Repr

/-- The row of R84 a command belongs to. -/
def Instr.op : Instr → Op
  | .nop => .nop
  | .fadd .. => .fadd
  | .fneg .. => .fneg
  | .fmul .. => .fmul
  | .fsqr .. => .fsqr
  | .fcube .. => .fcube
  | .finv .. => .finv
  | .geval .. => .geval
  | .clrw => .clrw
  | .validate => .validate
  | .h2f .. => .h2f
  | .cgen => .cgen
  | .schk => .schk
  | .select => .select
  | .h2c => .h2c

/-- The sequencer's phases (R36). -/
inductive Phase where
  | idle | validate | deriveT | deriveU | generate | selfcheck | sqrt | select | exec
  deriving DecidableEq, Repr

/-- The width of a bus access in bits (R62). -/
inductive AccessWidth where
  | w8 | w16 | w32 | w64
  deriving DecidableEq, Repr

/-- One operation of the host (R13, R62, R78, R92). -/
inductive HostOp where
  /-- a bus read of the window (`lw` when the width is 32) -/
  | read (width : AccessWidth) (off : Offset)
  /-- a bus write of the window (`sw` when the width is 32); at another width the data has no effect (R62) -/
  | write (width : AccessWidth) (off : Offset) (v : Word)
  /-- R92's `wait`: repeat `lw 0x010` until bit 0 of the value read is 0 -/
  | waitIdle
  /-- the host stores a message or tag byte in its own memory, outside the window (R61, R78) -/
  | bufWrite (addr : Word) (b : Byte)
  /-- the host makes a message or tag byte unavailable (R252) -/
  | bufDrop (addr : Word)
  deriving DecidableEq, Repr

/-- The agents of R17 and the reset input of R240. -/
inductive Agent where
  | host | sequencer | kdf | sqrt | reset
  deriving DecidableEq, Repr

end Sys2Proof
end

