-- ==== Sys2Proof/WellFormed.lean ====
section
/-! DEFINITION. The raw fields of a command word (spec/30_encoding.md R81) and what makes them legal (R82, R83, R86).
The decoder accepts a word exactly when its fields are well-formed. -/

namespace Sys2Proof

/-- The six fields of R81, as numbers of any size: a raw command before it is checked. -/
structure CmdFields where
  opc : Nat
  rd  : Nat
  rs1 : Nat
  rs2 : Nat
  rsv : Nat
  cnt : Nat
  deriving DecidableEq, Repr

/-- The opcode of each row of R84. -/
def Op.code : Op → Nat
  | .nop => 0x00
  | .fadd => 0x01
  | .fneg => 0x02
  | .fmul => 0x03
  | .fsqr => 0x04
  | .fcube => 0x05
  | .finv => 0x06
  | .geval => 0x07
  | .clrw => 0x0F
  | .validate => 0x10
  | .h2f => 0x11
  | .cgen => 0x12
  | .schk => 0x13
  | .select => 0x14
  | .h2c => 0x20

/-- The fifteen rows in the order of R84. -/
def Op.all : List Op :=
  [.nop, .fadd, .fneg, .fmul, .fsqr, .fcube, .finv, .geval, .clrw, .validate, .h2f, .cgen, .schk, .select, .h2c]

/-- The operation an opcode names, if any (R84, R87). -/
def Op.ofCode (c : Nat) : Option Op :=
  Op.all.find? fun o => o.code == c

/-- Which operand fields a row uses (R84, column "fields used"). -/
structure FieldUse where
  rd  : Bool
  rs1 : Bool
  rs2 : Bool
  cnt : Bool
  deriving DecidableEq, Repr

def Op.uses : Op → FieldUse
  | .fadd | .fmul => ⟨true, true, true, false⟩
  | .fneg | .fsqr | .fcube | .finv | .geval => ⟨true, true, false, false⟩
  | .h2f => ⟨true, false, false, true⟩
  | .nop | .clrw | .validate | .cgen | .schk | .select | .h2c => ⟨false, false, false, false⟩

/-- Every field fits its bits (R81 to R83). -/
def CmdFields.widthsOk (f : CmdFields) : Bool :=
  f.opc < 256 && f.rd < 16 && f.rs1 < 16 && f.rs2 < 16 && f.rsv < 16 && f.cnt < 256

/-- The opcode is one of the fifteen (R86, R87). -/
def CmdFields.opcodeOk (f : CmdFields) : Bool :=
  (Op.ofCode f.opc).isSome

/-- Every field the operation does not use is 0, the reserved field always (R81, R86). -/
def CmdFields.unusedOk (f : CmdFields) (o : Op) : Bool :=
  (o.uses.rd || f.rd == 0) && (o.uses.rs1 || f.rs1 == 0) && (o.uses.rs2 || f.rs2 == 0)
    && f.rsv == 0 && (o.uses.cnt || f.cnt == 0)

/-- The fields are those of a legal command (R86). -/
def CmdFields.wellFormed (f : CmdFields) : Bool :=
  f.widthsOk &&
    match Op.ofCode f.opc with
    | some o => f.unusedOk o
    | none => false

end Sys2Proof
end

