-- ==== Sys2Proof/Decode.lean ====
section
/-! DEFINITION. Decoding and encoding of command words (spec/30_encoding.md R80 to R91), the mask and match table of R84,
and the assembler's register names (R91). -/

namespace Sys2Proof

/-- Why a word is no command (R86). The hardware answers both with ILLEGAL_COMMAND. -/
inductive IllegalWord where
  /-- OPC is none of the fifteen values -/
  | unusedOpcode
  /-- a field the command does not use, or the reserved field, is nonzero -/
  | nonzeroUnusedField
  /-- not four bytes: no CMD write carries it (R62, R80) -/
  | notOneWord
  deriving DecidableEq, Repr

/-- The fields of a word (R81). -/
def fieldsOf (w : Word) : CmdFields where
  opc := (w.extractLsb' 0 8).toNat
  rd  := (w.extractLsb' 8 4).toNat
  rs1 := (w.extractLsb' 12 4).toNat
  rs2 := (w.extractLsb' 16 4).toNat
  rsv := (w.extractLsb' 20 4).toNat
  cnt := (w.extractLsb' 24 8).toNat

/-- The command of an operation with the fields it uses (R81, R84). -/
def instrOf (o : Op) (f : CmdFields) : Instr :=
  let rd := Fin.ofNat 16 f.rd
  let rs1 := Fin.ofNat 16 f.rs1
  let rs2 := Fin.ofNat 16 f.rs2
  match o with
  | .nop => .nop
  | .fadd => .fadd rd rs1 rs2
  | .fneg => .fneg rd rs1
  | .fmul => .fmul rd rs1 rs2
  | .fsqr => .fsqr rd rs1
  | .fcube => .fcube rd rs1
  | .finv => .finv rd rs1
  | .geval => .geval rd rs1
  | .clrw => .clrw
  | .validate => .validate
  | .h2f => .h2f rd (BitVec.ofNat 8 f.cnt)
  | .cgen => .cgen
  | .schk => .schk
  | .select => .select
  | .h2c => .h2c

/-- The command of raw fields, or why there is none (R86). -/
def decodeFields (f : CmdFields) : Except IllegalWord Instr :=
  match Op.ofCode f.opc with
  | none => .error .unusedOpcode
  | some o => if f.unusedOk o then .ok (instrOf o f) else .error .nonzeroUnusedField

/-- Decoding is total: every word is one of the fifteen commands or illegal (R86 to R89). -/
def decode (w : Word) : Except IllegalWord Instr :=
  decodeFields (fieldsOf w)

/-- A word from its bytes: byte j carries bits [8j+7:8j] (R64). -/
def wordOfBytes (b0 b1 b2 b3 : Byte) : Word :=
  b3 ++ b2 ++ b1 ++ b0

/-- Decoding is total on byte strings too: a command is exactly one 32-bit word (R62, R80). -/
def decodeBytes : List Byte → Except IllegalWord Instr
  | [b0, b1, b2, b3] => decode (wordOfBytes b0 b1 b2 b3)
  | _ => .error .notOneWord

/-- The fields of a command: unused fields are 0 (R90). -/
def Instr.fields : Instr → CmdFields
  | .nop => ⟨Op.nop.code, 0, 0, 0, 0, 0⟩
  | .fadd rd rs1 rs2 => ⟨Op.fadd.code, rd, rs1, rs2, 0, 0⟩
  | .fneg rd rs1 => ⟨Op.fneg.code, rd, rs1, 0, 0, 0⟩
  | .fmul rd rs1 rs2 => ⟨Op.fmul.code, rd, rs1, rs2, 0, 0⟩
  | .fsqr rd rs1 => ⟨Op.fsqr.code, rd, rs1, 0, 0, 0⟩
  | .fcube rd rs1 => ⟨Op.fcube.code, rd, rs1, 0, 0, 0⟩
  | .finv rd rs1 => ⟨Op.finv.code, rd, rs1, 0, 0, 0⟩
  | .geval rd rs1 => ⟨Op.geval.code, rd, rs1, 0, 0, 0⟩
  | .clrw => ⟨Op.clrw.code, 0, 0, 0, 0, 0⟩
  | .validate => ⟨Op.validate.code, 0, 0, 0, 0, 0⟩
  | .h2f rd cnt => ⟨Op.h2f.code, rd, 0, 0, 0, cnt.toNat⟩
  | .cgen => ⟨Op.cgen.code, 0, 0, 0, 0, 0⟩
  | .schk => ⟨Op.schk.code, 0, 0, 0, 0, 0⟩
  | .select => ⟨Op.select.code, 0, 0, 0, 0, 0⟩
  | .h2c => ⟨Op.h2c.code, 0, 0, 0, 0, 0⟩

/-- The word with the given fields: OPC at bit 0, RD at 8, RS1 at 12, RS2 at 16, the reserved field at 20, CNT at 24 (R81). -/
def CmdFields.toWord (f : CmdFields) : Word :=
  BitVec.ofNat 32 (f.opc + f.rd * 2 ^ 8 + f.rs1 * 2 ^ 12 + f.rs2 * 2 ^ 16 + f.rsv * 2 ^ 20 + f.cnt * 2 ^ 24)

/-- The word of a command (R90, `enc` of R92). -/
def encode (i : Instr) : Word :=
  i.fields.toWord

/-- The mask of a row of R84: the bits that are no operand field of it. -/
def Op.mask : Op → Word
  | .nop | .clrw | .validate | .cgen | .schk | .select | .h2c => 0xFFFFFFFF
  | .fadd | .fmul => 0xFFF000FF
  | .fneg | .fsqr | .fcube | .finv | .geval => 0xFFFF00FF
  | .h2f => 0x00FFF0FF

/-- The match of a row of R84. -/
def Op.matchWord : Op → Word
  | .nop => 0x00000000
  | .fadd => 0x00000001
  | .fneg => 0x00000002
  | .fmul => 0x00000003
  | .fsqr => 0x00000004
  | .fcube => 0x00000005
  | .finv => 0x00000006
  | .geval => 0x00000007
  | .clrw => 0x0000000F
  | .validate => 0x00000010
  | .h2f => 0x00000011
  | .cgen => 0x00000012
  | .schk => 0x00000013
  | .select => 0x00000014
  | .h2c => 0x00000020

/-- A word selects a row if and only if (w AND mask) = match (R84). -/
def Op.selectedBy (o : Op) (w : Word) : Bool :=
  w &&& o.mask == o.matchWord

/-- The instruction the decoder reads from an opcode-table word of `nbits` bits. -/
def decodeTableWord (nbits w : Nat) : Option Instr :=
  if w % 2 ^ nbits < 2 ^ 32 then
    match decode (BitVec.ofNat 32 (w % 2 ^ nbits)) with
    | .ok i => some i
    | .error _ => none
  else none

/-- The names of the field registers: f0 to f15 and their aliases (R91). -/
def regNames : List (String × RegIdx) :=
  [("f0", 0), ("f1", 1), ("f2", 2), ("f3", 3), ("f4", 4), ("f5", 5), ("f6", 6), ("f7", 7),
   ("f8", 8), ("f9", 9), ("f10", 10), ("f11", 11), ("f12", 12), ("f13", 13), ("f14", 14), ("f15", 15)]
  ++ [("p", 0), ("a", 1), ("b", 2), ("n", 3), ("t", 4), ("u", 5), ("x1", 6), ("g1", 7),
   ("x2", 8), ("g2", 9), ("x3", 10), ("g3", 11), ("ox", 12), ("oy", 13), ("s0", 14), ("s1", 15)]

/-- The register an assembler name stands for (R91). -/
def regOfName (name : String) : Option RegIdx :=
  (regNames.find? fun e => e.1 == name).map (·.2)

/-- The mnemonic of an operation (R84). -/
def Op.mnemonic : Op → String
  | .nop => "NOP"
  | .fadd => "FADD"
  | .fneg => "FNEG"
  | .fmul => "FMUL"
  | .fsqr => "FSQR"
  | .fcube => "FCUBE"
  | .finv => "FINV"
  | .geval => "GEVAL"
  | .clrw => "CLRW"
  | .validate => "VALIDATE"
  | .h2f => "H2F"
  | .cgen => "CGEN"
  | .schk => "SCHK"
  | .select => "SELECT"
  | .h2c => "H2C"

/-- An assembler operand: a register name or an immediate `#cnt` (R90). -/
inductive AsmOperand where
  | reg (name : String)
  | imm (v : Nat)
  deriving DecidableEq, Repr

/-- The operands of an assembled command, put into the fields R90 names; `none` where a name is unknown or the shape is
not the operation's. -/
def asmFields (o : Op) (args : List AsmOperand) : Option CmdFields :=
  match o.uses, args with
  | ⟨false, false, false, false⟩, [] => some ⟨o.code, 0, 0, 0, 0, 0⟩
  | ⟨true, true, false, false⟩, [.reg d, .reg a] =>
      match regOfName d, regOfName a with
      | some rd, some rs1 => some ⟨o.code, rd, rs1, 0, 0, 0⟩
      | _, _ => none
  | ⟨true, true, true, false⟩, [.reg d, .reg a, .reg b] =>
      match regOfName d, regOfName a, regOfName b with
      | some rd, some rs1, some rs2 => some ⟨o.code, rd, rs1, rs2, 0, 0⟩
      | _, _, _ => none
  | ⟨true, false, false, true⟩, [.reg d, .imm c] =>
      match regOfName d with
      | some rd => some ⟨o.code, rd, 0, 0, 0, c⟩
      | none => none
  | _, _ => none

/-- The word of an assembler line, if its mnemonic, its operands and its counter (0 to 255) are right (R90). -/
def assemble (mnemonic : String) (args : List AsmOperand) : Option Word :=
  match Op.all.find? fun o => o.mnemonic == mnemonic with
  | none => none
  | some o =>
      match asmFields o args with
      | some f => if f.wellFormed then some f.toWord else none
      | none => none

end Sys2Proof
end

