-- ==== Sys2Proof/Config.lean ====
section
/-! DEFINITION. What an implementation fixes (spec/00_scope.md R9) and the free values (`draw`, R15).
An `opaque` constant has no body: nothing in Lean can evaluate it or prove which value it has. -/

namespace Sys2Proof

/-- The parameter FW (R9, P2): a multiple of 32 from 64 to 1024, given by how many words a field register has beyond two.
State holds it, so a claim over every state covers every width (entry 1). -/
structure FieldWidth where
  extra : Fin 31
  deriving DecidableEq, Repr

/-- NW = FW / 32, the number of 32-bit words of a field register (R9, R28). -/
def FieldWidth.nw (w : FieldWidth) : Nat := w.extra.val + 2

/-- FW, the width in bits of every field register (R9, R27). -/
def FieldWidth.bits (w : FieldWidth) : Nat := 32 * w.nw

/-- The reference configuration: FW = 256, NW = 8 (R9). -/
def FieldWidth.reference : FieldWidth := ⟨6⟩

/-- The statistical margin k in bits, fixed (R9, R134; decision D12). -/
def Config.margin : Nat := 128

/-- LMAX = ceil((FW + 128) / 8), the largest output length the block can request (R9, R134). -/
def FieldWidth.lmax (w : FieldWidth) : Nat := (w.bits + Config.margin + 7) / 8

/-- BASE, the bus address of the window: OPEN (R9). No rule of the block reads it; host operations carry
offsets (entry 2). -/
opaque Config.base : Word

/-- The contents of a field register: an unsigned integer in [0, 2^FW) (R11, R27). Its type is the exact integer, because
FW is a parameter; that every register stays below 2^FW is part of the invariant (`State.Fits`; entry 1). -/
abbrev FE := Nat

/-- SQRT_ROOT: which root the SQRT port returns for a nonzero square (R9, R172). -/
inductive SqrtRoot where
  /-- the smaller of r and P − r, the reference configuration -/
  | min
  /-- either root, a draw -/
  | any
  deriving DecidableEq, Repr

/-- A KDF request: exactly the fields of R131's table. -/
structure KdfRequest where
  hashId  : Word
  msgAddr : Word
  msgLen  : Word
  dstAddr : Word
  dstLen  : Word
  info    : List Byte
  outLen  : Nat
  deriving DecidableEq, Repr

/-- A square-root request: P and v (R171). -/
structure SqrtRequest where
  p : Nat
  v : Nat
  deriving DecidableEq, Repr

/-- The KDF collaborator's function, OPEN (R9, R131): from the request and the message and tag bytes to a byte
string of any length. The state's `kdfBook` may give some of its values (entry 8). -/
opaque Config.kdf : KdfRequest → List Byte → List Byte → List Byte

/-- Free values, one for each draw, of which the low FW bits are used (R15, R103, R137, R171). -/
opaque Config.freeFE : Nat → Nat

/-- Free 32-bit values: what a read of a field register returns while BUSY = 1 (R30). -/
opaque Config.freeWord : Nat → Word

/-- Free bits: the SQRT port's `valid` when P is no odd prime, and the root it takes under SQRT_ROOT = ANY (R171, R172). -/
opaque Config.freeBit : Nat → Bool

/-- Free byte strings: the KDF response after the buffers changed while BUSY = 1, or when a buffer cannot be read (R78, D37). -/
opaque Config.freeBytes : Nat → List Byte

end Sys2Proof
end

