-- ==== Sys2Proof/Machine/State.lean ====
section
/-! DEFINITION. Everything the spec gives the machine (spec/10_state.md), the requests in flight on its two ports, and its
environment, as plain data. -/

namespace Sys2Proof.Machine

/-- Status codes (spec/60_exceptions.md R211). Codes 6 to 15 are never produced. -/
inductive StatusCode where
  | ok | unsupportedCurve | kdfLengthMismatch | iafSelfcheck | iafNosqrt | illegalCommand
  deriving DecidableEq, Repr

/-- CTRL.X3F, the composition of x3 (R24). It never reads 3 (R25). -/
inductive X3Form where
  /-- 0: g(x1)² · t³ · x2 -/
  | code
  /-- 1: t³ · g(x1) · x2 -/
  | comment
  /-- 2: t² · g(x1) · x2 -/
  | identity
  deriving DecidableEq, Repr

/-- CTRL (R24). -/
structure Ctrl where
  x3f    : X3Form
  redsel : Bool
  ie     : Bool
  deriving DecidableEq, Repr

/-- STATUS (R34); the field STATE is `state` (R36). -/
structure Status where
  busy  : Bool
  done  : Bool
  pv    : Bool
  bwe   : Bool
  err   : StatusCode
  state : Phase
  deriving DecidableEq, Repr

/-- ERRINFO (R37): EPHASE is a STATE code, 0 (`idle`) when no phase raised. -/
structure ErrInfo where
  ephase : Phase
  klen   : BitVec 16
  deriving DecidableEq, Repr

/-- HASH_ID and the four descriptors (R31, R32). -/
structure KdfRegs where
  hashId  : Word
  msgAddr : Word
  msgLen  : Word
  dstAddr : Word
  dstLen  : Word
  deriving DecidableEq, Repr

/-- The hidden registers of R41 to R44, with the port state R130 and R170 imply (entry 16). -/
structure Hidden where
  /-- KPEND (R41) -/
  kpend    : Bool
  /-- KRSP (R41) -/
  krsp     : List Byte
  /-- a response stands in KRSP and no sequencer step has consumed it (entry 16) -/
  krspRdy  : Bool
  /-- the request the KDF collaborator holds (R131; entry 16) -/
  kdfReq   : Option KdfRequest
  /-- SQPEND (R42) -/
  sqpend   : Bool
  /-- SQIDX (R42) -/
  sqidx    : BitVec 2
  /-- the request the SQRT collaborator holds (R171; entry 16) -/
  sqrtReq  : Option SqrtRequest
  /-- the answer on the SQRT port that the next sequencer step stores (R170; entry 16) -/
  sqrtAns  : Option (Bool × FE)
  /-- SQR[1], SQR[2], SQR[3] (R43) -/
  sqr      : Vector FE 3
  /-- SQV[1], SQV[2], SQV[3] (R43) -/
  sqv      : Vector Bool 3
  /-- RES_X (R44) -/
  resX     : FE
  /-- RES_Y (R44) -/
  resY     : FE
  deriving DecidableEq, Repr

/-- The hidden registers after a completion and after reset (R45): all 0, KRSP empty, nothing in flight. -/
def Hidden.cleared : Hidden where
  kpend := false
  krsp := []
  krspRdy := false
  kdfReq := none
  sqpend := false
  sqidx := 0
  sqrtReq := none
  sqrtAns := none
  sqr := Vector.replicate 3 0
  sqv := Vector.replicate 3 false
  resX := 0
  resY := 0

/-- The bytes the platform holds, by address, strictly rising; an unlisted address holds no value (entry 11). -/
abbrev Memory := List Host.Cell

/-- The addresses rise strictly from a bound on. -/
def Memory.risesFrom : Nat → Memory → Bool
  | _, [] => true
  | lo, (a, _) :: rest => lo ≤ a && Memory.risesFrom (a + 1) rest

/-- The canonical form: addresses strictly rising. No entry can equal what an unlisted address reads as, which is no value. -/
def Memory.wf (m : Memory) : Bool :=
  Memory.risesFrom 0 m

/-- The response to a host access (R62, R69). -/
inductive BusResponse where
  /-- no access yet -/
  | none
  /-- an accepted read with its data -/
  | data (w : Word)
  /-- an accepted write -/
  | ack
  /-- a bus error: the fault of the host access (R62) -/
  | error
  deriving DecidableEq, Repr

/-- One known value of the KDF collaborator's function (R9, R131; entry 8). -/
structure KdfEntry where
  req  : KdfRequest
  msg  : List Byte
  dst  : List Byte
  resp : List Byte
  deriving DecidableEq, Repr

/-- What stands outside the block: the host's operations still to come, the order in which agents move, the last bus
response, the platform's bytes, the free-value counter and the parameters R9 names, which no step changes. All of it the
model's own. -/
structure Env where
  /-- the host's operations, in order (R73; entry 4) -/
  hostOps  : List HostOp
  /-- which agents move next, in order (R73, R250; entry 3) -/
  schedule : List Agent
  /-- the response to the last host access (entry 6) -/
  bus      : BusResponse
  /-- the platform's message and tag bytes (entry 11) -/
  mem      : Memory
  /-- the host changed a described byte while BUSY = 1 (R78; entry 12) -/
  touched  : Bool
  /-- how many free values have been drawn (entry 7) -/
  draws    : Nat
  /-- known values of the KDF function (entry 8) -/
  kdfBook  : List KdfEntry
  /-- SQRT_ROOT (entry 9) -/
  sqrtRoot : SqrtRoot
  /-- FW (entry 1) -/
  fw       : FieldWidth
  deriving DecidableEq, Repr

/-- The state of the block and its environment. ID, CFG, PBITS and IRQ are derived (R22, R23, R33, R38). -/
structure State where
  ctrl    : Ctrl
  status  : Status
  errinfo : ErrInfo
  kdf     : KdfRegs
  /-- FR[0] to FR[15] (R27) -/
  fr      : Vector FE 16
  /-- CMDL (R40) -/
  cmdl    : Word
  hid     : Hidden
  env     : Env
  deriving DecidableEq, Repr

/-- Why a step stops. Both reasons arise only in states no run from reset reaches (entry 19); stopping there is safe. -/
inductive Fault where
  /-- raised by a meaning when BUSY = 1 and STATE is no phase of the command (R36, R199 exclude it); safe -/
  | phaseNotOfCommand
  /-- raised by the sequencer when BUSY = 1 and CMDL holds an illegal word (R196 excludes it); safe -/
  | runningCommandIllegal
  deriving DecidableEq, Repr

/-- Why an instruction has no meaning. -/
inductive Refusal where
  /-- raised by exec's arm of an instruction that is not modelled; safe. No arm raises it in this model. -/
  | notModelled (mnemonic : String)
  deriving DecidableEq, Repr

/-- The outcome of one step. -/
abbrev Result := Host.Outcome State Fault Refusal

/-- The environment with nothing to do: the values of the model's own fields at reset (entry 21). -/
def Env.initial : Env where
  hostOps := []
  schedule := []
  bus := .none
  mem := []
  touched := false
  draws := 0
  kdfBook := []
  sqrtRoot := .min
  fw := .reference

/-- The machine right after reset (R47, R240). -/
def State.reset : State where
  ctrl := ⟨.code, false, false⟩
  status := ⟨false, false, false, false, .ok, .idle⟩
  errinfo := ⟨.idle, 0⟩
  kdf := ⟨0, 0, 0, 0, 0⟩
  fr := Vector.replicate 16 0
  cmdl := 0
  hid := Hidden.cleared
  env := Env.initial

end Sys2Proof.Machine
end

