-- ==== Sys2Proof/Machine/Ops.lean ====
section
/-! DEFINITION. The named operations over registers, bytes and hidden state, and the shared shape of a command: acceptance
(spec/44_control_cmds.md R196), phase sequencing (R199) and completion (spec/60_exceptions.md R212), the block's only
"exception" operation. Nothing returns from it (R221). -/

namespace Sys2Proof.Machine

/-! ## Words of a field register -/

/-- Word k of a field register value: bits [32k+31:32k] (R28). -/
def getWord (k : Nat) (x : FE) : Word :=
  BitVec.ofNat 32 (x >>> (32 * k))

/-- The value with word k replaced: the words below it, the new word, the words above it (R29). -/
def setWord (k : Nat) (v : Word) (x : FE) : FE :=
  x % 2 ^ (32 * k) + 2 ^ (32 * k) * v.toNat + 2 ^ (32 * (k + 1)) * (x / 2 ^ (32 * (k + 1)))

/-- The first n words of a value, least significant first (R28, R65). -/
def wordsOf (n : Nat) (x : FE) : List Word :=
  (List.range n).map fun k => getWord k x

/-- The integer of a list of words, least significant first: Σ word_k · 2^(32k) (R65). -/
def valueOfWords (ws : List Word) : Nat :=
  ws.foldr (fun w acc => w.toNat + 2 ^ 32 * acc) 0

/-! ## Field registers -/

/-- FW (R9). -/
def State.fw (s : State) : Nat :=
  s.env.fw.bits

/-- NW (R9). -/
def State.nw (s : State) : Nat :=
  s.env.fw.nw

/-- `FR[i]` (R13). -/
def State.reg (s : State) (i : RegIdx) : FE :=
  s.fr[i]

/-- `FR[i] <- v` (R13). -/
def State.setReg (s : State) (i : RegIdx) (v : FE) : State :=
  { s with fr := s.fr.set i v }

/-- P = FR[0] as an integer (R14, R100). -/
def State.p (s : State) : Nat :=
  s.reg 0

/-- The registers that hold the point, whose writes clear PV (R29, R101). -/
def isPointReg (i : RegIdx) : Bool :=
  i == 12 || i == 13

/-- `writeback(d, r)`: FR[d] <- r, and PV <- 0 if d is 12 or 13 (R101). -/
def writeback (d : RegIdx) (r : FE) (s : State) : State :=
  { s.setReg d r with status := { s.status with pv := s.status.pv && !isPointReg d } }

/-! ## Free values (`draw`, R15): each use takes the next index, so no two uses share a value -/

def State.nextDraw (s : State) : State :=
  { s with env := { s.env with draws := s.env.draws + 1 } }

/-- A free FW-bit value. -/
def State.drawFE (s : State) : FE :=
  Config.freeFE s.env.draws % 2 ^ s.fw

/-- A free 32-bit value. -/
def State.drawWord (s : State) : Word :=
  Config.freeWord s.env.draws

/-- A free bit. -/
def State.drawBit (s : State) : Bool :=
  Config.freeBit s.env.draws

/-- A free byte string. -/
def State.drawBytes (s : State) : List Byte :=
  Config.freeBytes s.env.draws

/-! ## The platform's bytes (R61, R79; entry 11) -/

/-- The byte at an address, or no value. -/
def Memory.read : Memory → Nat → Option Byte
  | [], _ => none
  | (a, b) :: rest, x => if a = x then some b else Memory.read rest x

/-- Store a byte; the list stays strictly rising. -/
def Memory.write : Memory → Nat → Byte → Memory
  | [], x, v => [(x, v)]
  | (a, b) :: rest, x, v =>
      if x < a then (x, v) :: (a, b) :: rest
      else if x = a then (x, v) :: rest
      else (a, b) :: Memory.write rest x v

/-- Remove a byte. -/
def Memory.drop : Memory → Nat → Memory
  | [], _ => []
  | (a, b) :: rest, x => if a = x then rest else (a, b) :: Memory.drop rest x

/-- The `len` bytes from an address on, or none if one of them has no value. The address does not wrap (entry 11). -/
def Memory.readBytes (m : Memory) (addr : Nat) : Nat → Option (List Byte)
  | 0 => some []
  | len + 1 =>
      match m.read addr, Memory.readBytes m (addr + 1) len with
      | some b, some bs => some (b :: bs)
      | _, _ => none

/-! ## Number helpers of the notation (R14, R66) -/

/-- The number of bits of v with no leading zero bit; bitlen(0) = 0 (R14). -/
def bitlen (v : Nat) : Nat :=
  if v = 0 then 0 else Nat.log2 v + 1

/-- The big-endian integer of a byte string (R66, R136). -/
def beValue (bs : List Byte) : Nat :=
  bs.foldl (fun acc b => acc * 256 + b.toNat) 0

/-! ## Phase lists (R199) -/

/-- The phases of each command, in order. -/
def phasesOf : Op → List Phase
  | .fadd | .fneg | .fmul | .fsqr | .fcube | .finv | .geval | .clrw => [.exec]
  | .validate => [.validate]
  | .h2f => [.validate, .deriveT]
  | .cgen => [.validate, .generate]
  | .schk => [.selfcheck]
  | .select => [.sqrt, .select]
  | .h2c => [.validate, .deriveT, .deriveU, .generate, .selfcheck, .sqrt, .select]
  | .nop => []

/-- The first phase; a command with none never leaves IDLE. -/
def firstPhase (o : Op) : Phase :=
  (phasesOf o).head?.getD .idle

/-- The phase after the given one in a list. -/
def phaseAfter (cur : Phase) : List Phase → Option Phase
  | [] => none
  | p :: rest => if p = cur then rest.head? else phaseAfter cur rest

/-! ## Completion (R212, R213) -/

/-- opcode(CMDL) ∈ {SELECT, H2C} (R196, R212). -/
def latchedWritesPoint (s : State) : Bool :=
  let opc := (fieldsOf s.cmdl).opc
  opc == Op.select.code || opc == Op.h2c.code

/-- FR[12] <- 0, FR[13] <- 0, PV <- 0 (R213). -/
def clearPoint (s : State) : State :=
  let s := (s.setReg 12 0).setReg 13 0
  { s with status := { s.status with pv := false } }

/-- ERR <- code; EPHASE <- the raising phase, 0 for OK; KLEN <- 0 but after code 2, which keeps what its phase wrote (R212). -/
def recordCode (code : StatusCode) (s : State) : State :=
  { s with
    status := { s.status with err := code }
    errinfo :=
      { ephase := if code = .ok then .idle else s.status.state
        klen := if code = .kdfLengthMismatch then s.errinfo.klen else 0 } }

/-- The hidden registers <- 0; STATE <- IDLE, BUSY <- 0, DONE <- 1 (R45, R212). -/
def goIdle (s : State) : State :=
  { s with
    hid := Hidden.cleared
    status := { s.status with state := .idle, busy := false, done := true } }

/-- `complete(code)`: the one operation that ends a running command (R212). An error of SELECT or H2C clears the point (R213). -/
def complete (code : StatusCode) (s : State) : State :=
  if code ≠ .ok ∧ latchedWritesPoint s = true then goIdle (clearPoint (recordCode code s))
  else goIdle (recordCode code s)

/-- `complete_immediate(code)`, used only at acceptance (R197). -/
def completeImmediate (code : StatusCode) (s : State) : State :=
  { s with
    status := { s.status with err := code, done := true }
    errinfo := ⟨.idle, 0⟩ }

/-! ## Acceptance (R196) -/

/-- The acceptance of a command that runs phases; the word is already in CMDL. A new command starts with its buffers
unchanged (R78; entry 12). -/
def accept (o : Op) (s : State) : State :=
  { s with
    status := { s.status with
      done := false
      err := .ok
      pv := s.status.pv && !(o == .select || o == .h2c)
      busy := true
      state := firstPhase o }
    env := { s.env with touched := false } }

/-! ## One sequencer step of a command (R199, R250) -/

/-- How a phase step ends: the phase goes on (it waits on a port), it is over, or it raises a code. -/
inductive PhaseEnd where
  | hold (s : State)
  | finished (s : State)
  | raise (code : StatusCode) (s : State)

/-- What the sequencer does with the end of a phase step (R199). -/
def finishPhase (o : Op) : PhaseEnd → State
  | .hold s => s
  | .raise code s => complete code s
  | .finished s =>
      match phaseAfter s.status.state (phasesOf o) with
      | some p => { s with status := { s.status with state := p } }
      | none => complete .ok s

/-- A command that runs phases: accepted when BUSY = 0, else one step of its current phase. `body` gives the command's
own phases their step; STATE outside them is a stop no run reaches (entry 19). -/
def runCommand (o : Op) (body : Phase → Option (State → PhaseEnd)) (s : State) : Result :=
  if s.status.busy then
    match body s.status.state with
    | some f => .next (finishPhase o (f s))
    | none => .fault .phaseNotOfCommand
  else .next (accept o s)

end Sys2Proof.Machine
end

