-- ==== Sys2Proof/Machine/Operands.lean ====
section
/-! DEFINITION. Operand fetch, field functions and write-back of the arithmetic (spec/40_field_arith.md R100 to R104, R107).
Intermediates are exact naturals (R102). -/

namespace Sys2Proof.Machine

/-- fe(FR[i]) = FR[i] mod P for P ≥ 1 (R14, R100). -/
def State.fe (s : State) (i : RegIdx) : Nat :=
  s.reg i % s.p

/-- Square-and-multiply on an exponent of at most `n` bits; Laws/Arith.lean proves it equal to b^e mod m. -/
def powModAux : Nat → Nat → Nat → Nat → Nat
  | 0, _, _, m => 1 % m
  | n + 1, b, e, m =>
      let half := powModAux n (b * b % m) (e / 2) m
      if e % 2 = 1 then b * half % m else half

/-- b^e mod m, with as many rounds as the exponent has bits. -/
def powMod (b e m : Nat) : Nat :=
  powModAux (e.log2 + 1) b e m

/-- The inverse function inv(z) = z^(P−2) mod P, with inv(0) = 0 (R104). The two agree but at P = 2, where the formula
reads 0^0 and the rule's words inv(0) = 0 are followed (DEDUCED, entry 23). -/
def inv (p z : Nat) : Nat :=
  if z = 0 then 0 else powMod z (p - 2) p

/-- The curve polynomial (x³ + a·x + b) mod P with a and b in the field (R107). -/
def curvePoly (p a b x : Nat) : Nat :=
  (x ^ 3 + a * x + b) % p

/-- g(x) with a = FR[1] and b = FR[2] brought into the field (R107). -/
def State.g (s : State) (x : Nat) : Nat :=
  curvePoly s.p (s.fe 1) (s.fe 2) x

/-- FR[i] mod P for use in a composite phase. P = 0 has no remainder (R14, R245): a free value (entry 14). -/
def fetch (i : RegIdx) (s : State) : Nat × State :=
  if s.p = 0 then (s.drawFE, s.nextDraw) else (s.fe i, s)

/-- The EXEC phase of a field command: the formula's value, or a free value when P ≤ 1 (R103, R115). -/
def arithPhase (rd : RegIdx) (formula : State → Nat) (s : State) : PhaseEnd :=
  if s.p ≤ 1 then .finished (writeback rd s.drawFE s.nextDraw)
  else .finished (writeback rd (formula s) s)

/-- A command whose only phase is EXEC (R115, R199). -/
def execOnly (f : State → PhaseEnd) : Phase → Option (State → PhaseEnd)
  | .exec => some f
  | _ => none

end Sys2Proof.Machine
end

