-- ==== Sys2Proof/Machine/Control.lean ====
section
/-! DEFINITION. The control commands NOP and CLRW (spec/44_control_cmds.md R190, R191). -/

namespace Sys2Proof.Machine

/-- NOP: completed at acceptance; it never runs a phase (R190, R199). -/
def execNop (s : State) : Result :=
  if s.status.busy then .fault .phaseNotOfCommand else .next (completeImmediate .ok s)

/-- FR[4] to FR[15] <- 0 and PV <- 0 (R191). -/
def clearWorking (s : State) : State :=
  { s with
    fr := Vector.ofFn fun i : Fin 16 => if i < 4 then s.fr[i] else 0
    status := { s.status with pv := false } }

/-- CLRW (R191). It does not read P. -/
def execClrw (s : State) : Result :=
  runCommand .clrw (execOnly fun s => .finished (clearWorking s)) s

end Sys2Proof.Machine
end

