-- ==== Sys2Proof/Machine/FieldArith.lean ====
section
/-! DEFINITION. The field commands FADD, FNEG, FMUL, FSQR, FCUBE, FINV, GEVAL (spec/40_field_arith.md). All operands are read
before the single write of the result (R114). -/

namespace Sys2Proof.Machine

/-- FADD (R105). -/
def execFadd (rd rs1 rs2 : RegIdx) (s : State) : Result :=
  runCommand .fadd (execOnly (arithPhase rd fun s => (s.fe rs1 + s.fe rs2) % s.p)) s

/-- FNEG (R106). -/
def execFneg (rd rs1 : RegIdx) (s : State) : Result :=
  runCommand .fneg (execOnly (arithPhase rd fun s => (s.p - s.fe rs1) % s.p)) s

/-- FMUL (R108). -/
def execFmul (rd rs1 rs2 : RegIdx) (s : State) : Result :=
  runCommand .fmul (execOnly (arithPhase rd fun s => (s.fe rs1 * s.fe rs2) % s.p)) s

/-- FSQR (R109). -/
def execFsqr (rd rs1 : RegIdx) (s : State) : Result :=
  runCommand .fsqr (execOnly (arithPhase rd fun s => (s.fe rs1 * s.fe rs1) % s.p)) s

/-- FCUBE (R110). -/
def execFcube (rd rs1 : RegIdx) (s : State) : Result :=
  runCommand .fcube (execOnly (arithPhase rd fun s => (s.fe rs1 * s.fe rs1 * s.fe rs1) % s.p)) s

/-- FINV (R111); an input of 0 gives 0 (R104). -/
def execFinv (rd rs1 : RegIdx) (s : State) : Result :=
  runCommand .finv (execOnly (arithPhase rd fun s => inv s.p (s.fe rs1))) s

/-- GEVAL (R112). -/
def execGeval (rd rs1 : RegIdx) (s : State) : Result :=
  runCommand .geval (execOnly (arithPhase rd fun s => s.g (s.fe rs1))) s

end Sys2Proof.Machine
end

