-- ==== Sys2Proof/Machine/Selector.lean ====
section
/-! DEFINITION. The constant-time selector SELECT and the SQRT port (spec/43_selector.md). -/

namespace Sys2Proof.Machine

/-! ## The SQRT collaborator -/

/-- P is an odd prime (R171), by trial division (entry 10). -/
def isOddPrime (p : Nat) : Bool :=
  3 ≤ p && p % 2 == 1 && (List.range p).all fun d => d < 2 || p % d != 0

/-- The smallest root of v modulo P, if v is a square (R171, R172); 0 is a square with root 0 (R18, D43). The collaborator's
algorithm is out of scope (R8); least root by search is the model's way to state its contract (entry 10). -/
def leastRoot (p v : Nat) : Option Nat :=
  (List.range p).find? fun r => r * r % p == v

/-- The root the port returns: the smaller one under MIN, either one (a draw) under ANY (R172). -/
def chosenRoot (mode : SqrtRoot) (p r : Nat) (takeSmaller : Bool) : Nat :=
  match mode with
  | .min => r
  | .any => if takeSmaller then r else (p - r) % p

/-- The answer (valid, r) to a request (R171); free when P is no odd prime, and r is free when valid = 0. -/
def sqrtAnswer (req : SqrtRequest) (s : State) : Bool × FE :=
  if isOddPrime req.p then
    match leastRoot req.p req.v with
    | some r => (true, chosenRoot s.env.sqrtRoot req.p r s.drawBit)
    | none => (false, s.drawFE)
  else (s.drawBit, s.drawFE)

/-- A SQRT-collaborator step: answer, SQPEND <- 0 (R170). With no request outstanding it has no step. -/
def sqrtTurn (s : State) : State :=
  match s.hid.sqpend, s.hid.sqrtReq with
  | true, some req =>
      { s.nextDraw with hid := { s.hid with sqrtAns := some (sqrtAnswer req s), sqpend := false, sqrtReq := none } }
  | _, _ => s

/-! ## The SQRT phase: three rounds of issue, answer, store (R178, R250) -/

/-- The register of candidate i's curve value: FR[5 + 2i] (R178). -/
def valueReg (i : BitVec 2) : RegIdx :=
  if i = 1 then 7 else if i = 2 then 9 else 11

/-- The place of candidate i in SQR and SQV. -/
def slot (i : BitVec 2) : Fin 3 :=
  if i = 1 then 0 else if i = 2 then 1 else 2

/-- Issue the request of the next candidate: SQIDX <- i, SQPEND <- 1, (P, FR[5 + 2i] mod P) on the port (R170, R178). -/
def issueRoot (s : State) : State :=
  let i : BitVec 2 := if s.hid.sqidx = 0 then 1 else s.hid.sqidx
  let (v, s) := fetch (valueReg i) s
  { s with hid := { s.hid with sqidx := i, sqpend := true, sqrtReq := some ⟨s.p, v⟩ } }

/-- Store the answer: SQV[i] <- valid, SQR[i] <- r if valid, else 0 (R173, R174, R178). -/
def storeRoot (ans : Bool × FE) (s : State) : State :=
  { s with hid := { s.hid with
      sqv := s.hid.sqv.set (slot s.hid.sqidx) ans.1
      sqr := s.hid.sqr.set (slot s.hid.sqidx) (if ans.1 then ans.2 else 0)
      sqrtAns := none } }

/-- One sequencer step of the SQRT phase (R170, R178, R250). After candidate 3 the phase is over; before that SQIDX goes
to the next request's index (R42; entry 17). -/
def sqrtPhase (s : State) : PhaseEnd :=
  if s.hid.sqpend then .hold s
  else
    match s.hid.sqrtAns with
    | none => .hold (issueRoot s)
    | some ans =>
        let t := storeRoot ans s
        if s.hid.sqidx = 3 then .finished t
        else .hold { t with hid := { t.hid with sqidx := s.hid.sqidx + 1 } }

/-! ## The SELECT phase -/

/-- One limb of the blend: (c AND M) OR (q AND NOT M) with M all ones or all zeros (R175). -/
def blendLimb (m : Bool) (c q : Word) : Word :=
  let mask : Word := if m then 0xFFFFFFFF else 0
  (c &&& mask) ||| (q &&& ~~~mask)

/-- The blend of one coordinate over its n limbs (R175). -/
def blend (n : Nat) (m : Bool) (c q : FE) : FE :=
  valueOfWords ((List.range n).map fun j => blendLimb m (getWord j c) (getWord j q))

/-- The blend of a pair (R175). -/
def blendPair (n : Nat) (m : Bool) (c q : FE × FE) : FE × FE :=
  (blend n m c.1 q.1, blend n m c.2 q.2)

/-- RES as a pair (R44). -/
def State.res (s : State) : FE × FE :=
  (s.hid.resX, s.hid.resY)

/-- (RES_X, RES_Y) <- r (R176). -/
def State.setRes (r : FE × FE) (s : State) : State :=
  { s with hid := { s.hid with resX := r.1, resY := r.2 } }

/-- The selection: RES starts at candidate 3 and is overwritten by masked blends with candidate 2, then candidate 1 (R176).
The same three writes happen whatever the masks are (R180). -/
def selectRes (s : State) : State :=
  let (x3, s) := fetch 10 s
  let s := s.setRes (x3, s.hid.sqr[2])
  let (x2, s) := fetch 8 s
  let s := s.setRes (blendPair s.nw s.hid.sqv[1] (x2, s.hid.sqr[1]) s.res)
  let (x1, s) := fetch 6 s
  s.setRes (blendPair s.nw s.hid.sqv[0] (x1, s.hid.sqr[0]) s.res)

/-- FR[12] <- RES_X, FR[13] <- RES_Y, PV <- 1 (R179). -/
def writePoint (s : State) : State :=
  let s := (s.setReg 12 s.hid.resX).setReg 13 s.hid.resY
  { s with status := { s.status with pv := true } }

/-- The OR of the three mask bits (R177). -/
def anyValid (s : State) : Bool :=
  s.hid.sqv[0] || s.hid.sqv[1] || s.hid.sqv[2]

/-- The SELECT phase: the blends, then the test on the OR of the masks, then the write of the point (R176, R177, R179). -/
def selectPhase (s : State) : PhaseEnd :=
  let s := selectRes s
  if anyValid s then .finished (writePoint s) else .raise .iafNosqrt s

/-- SELECT's phases. -/
def selectBody : Phase → Option (State → PhaseEnd)
  | .sqrt => some sqrtPhase
  | .select => some selectPhase
  | _ => none

/-- SELECT (R178). -/
def execSelect (s : State) : Result :=
  runCommand .select selectBody s

end Sys2Proof.Machine
end

