-- ==== Sys2Proof/Machine/Flags.lean ====
section
/-! DEFINITION. The status, error and control registers as the bus sees them (spec/10_state.md R22 to R25, R33 to R38;
spec/60_exceptions.md R211). -/

namespace Sys2Proof.Machine

/-- The number of a status code (R211). -/
def StatusCode.number : StatusCode → BitVec 4
  | .ok => 0
  | .unsupportedCurve => 1
  | .kdfLengthMismatch => 2
  | .iafSelfcheck => 3
  | .iafNosqrt => 4
  | .illegalCommand => 5

/-- The STATE code of a phase (R36). -/
def stateCode : Phase → BitVec 4
  | .idle => 0
  | .validate => 1
  | .deriveT => 2
  | .deriveU => 3
  | .generate => 4
  | .selfcheck => 5
  | .sqrt => 6
  | .select => 7
  | .exec => 8

/-- STATUS as a word: BUSY[0], DONE[1], PV[2], BWE[3], ERR[7:4], STATE[11:8] (R34). -/
def statusWord (t : Status) : Word :=
  (0 : BitVec 20) ++ stateCode t.state ++ t.err.number
    ++ BitVec.ofBool t.bwe ++ BitVec.ofBool t.pv ++ BitVec.ofBool t.done ++ BitVec.ofBool t.busy

/-- A host write of STATUS: W1C of DONE and BWE (R35). -/
def writeStatus (v : Word) (t : Status) : Status :=
  { t with done := t.done && !v.getLsbD 1, bwe := t.bwe && !v.getLsbD 3 }

/-- A write while BUSY = 1 that R48 refuses. -/
def refuseWrite (s : State) : State :=
  { s with status := { s.status with bwe := true } }

/-- ERRINFO as a word: EPHASE[3:0], zero [15:4], KLEN[31:16] (R37). -/
def errinfoWord (e : ErrInfo) : Word :=
  e.klen ++ (0 : BitVec 12) ++ stateCode e.ephase

/-- The length KLEN records, saturated at 0xFFFF (R37, R135). -/
def saturatedLength (n : Nat) : BitVec 16 :=
  BitVec.ofNat 16 (min n 0xFFFF)

/-- X3F as bits (R24). -/
def X3Form.bits : X3Form → BitVec 2
  | .code => 0
  | .comment => 1
  | .identity => 2

/-- The X3F a write of bits [1:0] leaves; 0b11 leaves it unchanged (R25). -/
def x3Write (v : BitVec 2) (old : X3Form) : X3Form :=
  if v = 0 then .code else if v = 1 then .comment else if v = 2 then .identity else old

/-- CTRL as a word: X3F[1:0], REDSEL[2], IE[3] (R24). -/
def ctrlWord (c : Ctrl) : Word :=
  (0 : BitVec 28) ++ BitVec.ofBool c.ie ++ BitVec.ofBool c.redsel ++ c.x3f.bits

/-- A host write of CTRL (R24, R25). -/
def writeCtrl (v : Word) (c : Ctrl) : Ctrl where
  x3f := x3Write (v.extractLsb' 0 2) c.x3f
  redsel := v.getLsbD 2
  ie := v.getLsbD 3

/-- ID (R22). -/
def idWord : Word := 0x48324301

/-- CFG: FW in [15:0], 128 in [23:16] (R23). -/
def cfgWord (s : State) : Word :=
  BitVec.ofNat 8 0 ++ BitVec.ofNat 8 Config.margin ++ BitVec.ofNat 16 s.fw

/-- PBITS: bitlen(FR[0]) in [15:0] (R33). -/
def pbitsWord (s : State) : Word :=
  (0 : BitVec 16) ++ BitVec.ofNat 16 (bitlen s.p)

/-- The interrupt output (R38, R219). -/
def State.irq (s : State) : Bool :=
  s.status.done && s.ctrl.ie

end Sys2Proof.Machine
end

