-- ==== Sys2Proof/Machine/HashToField.lean ====
section
/-! DEFINITION. Curve validation (spec/42_swu_candidates.md R150, R151), the derivation through the KDF port and H2F
(spec/41_hash_to_field.md). -/

namespace Sys2Proof.Machine

/-! ## The VALIDATE phase -/

/-- `validate_curve()`: raises UNSUPPORTED_CURVE if a mod P = 0 or b mod P = 0 (R150). -/
def validatePhase (s : State) : PhaseEnd :=
  let (a, s) := fetch 1 s
  let (b, s) := fetch 2 s
  if a = 0 ∨ b = 0 then .raise .unsupportedCurve s else .finished s

/-- VALIDATE's phases. -/
def validateBody : Phase → Option (State → PhaseEnd)
  | .validate => some validatePhase
  | _ => none

/-- VALIDATE (R151). -/
def execValidate (s : State) : Result :=
  runCommand .validate validateBody s

/-! ## The DERIVE phases -/

/-- The context label info(c) = 'H' '2' 'C' c 0x00 (R67, R133). -/
def contextLabel (c : Byte) : List Byte :=
  [0x48, 0x32, 0x43, c, 0x00]

/-- The output length L = (bitlen(P) + 135) div 8 (R134). -/
def outLen (p : Nat) : Nat :=
  (bitlen p + Config.margin + 7) / 8

/-- The KDF request of a derivation with counter c, all from registers at the time of the request (R131, R139). -/
def kdfRequest (c : Byte) (s : State) : KdfRequest where
  hashId := s.kdf.hashId
  msgAddr := s.kdf.msgAddr
  msgLen := s.kdf.msgLen
  dstAddr := s.kdf.dstAddr
  dstLen := s.kdf.dstLen
  info := contextLabel c
  outLen := outLen s.p

/-- The reduction modulus m: FR[3] or P (R137). -/
def reductionModulus (s : State) : Nat :=
  if s.ctrl.redsel then s.p else s.reg 3

/-- The write of a derivation from the integer v (R137, R139). A draw in [0, P) when m = 0; any FW-bit draw when P = 0
(entry 14). -/
def writeDerived (d : RegIdx) (v : Nat) (s : State) : State :=
  if s.p = 0 then writeback d s.drawFE s.nextDraw
  else if reductionModulus s = 0 then writeback d (s.drawFE % s.p) s.nextDraw
  else writeback d (v % reductionModulus s % s.p) s

/-- The sequencer consumes KRSP: length check, interpretation, reduction, write-back, KRSP <- empty (R135 to R139). -/
def consumeResponse (d : RegIdx) (s : State) : PhaseEnd :=
  if s.hid.krsp.length ≠ outLen s.p then
    .raise .kdfLengthMismatch
      { s with errinfo := { s.errinfo with klen := saturatedLength s.hid.krsp.length } }
  else
    let s := writeDerived d (beValue s.hid.krsp) s
    .finished { s with hid := { s.hid with krsp := [], krspRdy := false } }

/-- One sequencer step of `derive(d, c)`: issue the request, hold, or consume the response (R130, R139, R250). -/
def derivePhase (d : RegIdx) (c : Byte) (s : State) : PhaseEnd :=
  if s.hid.kpend then .hold s
  else if s.hid.krspRdy then consumeResponse d s
  else .hold { s with hid := { s.hid with kpend := true, kdfReq := some (kdfRequest c s) } }

/-- H2F's phases: VALIDATE, then DERIVE_T with RD and CNT. -/
def h2fBody (rd : RegIdx) (cnt : Byte) : Phase → Option (State → PhaseEnd)
  | .validate => some validatePhase
  | .deriveT => some (derivePhase rd cnt)
  | _ => none

/-- H2F (R138). -/
def execH2f (rd : RegIdx) (cnt : Byte) (s : State) : Result :=
  runCommand .h2f (h2fBody rd cnt) s

/-! ## The KDF collaborator -/

/-- The collaborator's function: a known value, or the open function of Config (R131; entry 8). -/
def kdfFunction (book : List KdfEntry) (req : KdfRequest) (msg dst : List Byte) : List Byte :=
  match book.find? fun e => e.req == req && e.msg == msg && e.dst == dst with
  | some e => e.resp
  | none => Config.kdf req msg dst

/-- A byte string whose length is not L: every other KDF failure shows as one (decision D37; entry 13). -/
def withWrongLength (l : Nat) (bs : List Byte) : List Byte :=
  if bs.length = l then 0 :: bs else bs

/-- The answer to a request and the state after it: a draw if the host has changed the buffers since the command was accepted
(R78; DESIGN CHOICE, entry 12: only answers given after the change are draws), a draw of a wrong length if a
buffer cannot be read (D37), else the function's value (R131). -/
def kdfAnswer (req : KdfRequest) (s : State) : List Byte × State :=
  if s.env.touched then (s.drawBytes, s.nextDraw)
  else
    match Memory.readBytes s.env.mem req.msgAddr.toNat req.msgLen.toNat,
          Memory.readBytes s.env.mem req.dstAddr.toNat req.dstLen.toNat with
    | some msg, some dst => (kdfFunction s.env.kdfBook req msg dst, s)
    | _, _ => (withWrongLength req.outLen s.drawBytes, s.nextDraw)

/-- A KDF-collaborator step: KRSP <- the answer, KPEND <- 0 (R130). With no request outstanding it has no step. -/
def kdfTurn (s : State) : State :=
  match s.hid.kpend, s.hid.kdfReq with
  | true, some req =>
      let (resp, s) := kdfAnswer req s
      { s with hid := { s.hid with krsp := resp, krspRdy := true, kpend := false, kdfReq := none } }
  | _, _ => s

end Sys2Proof.Machine
end

