-- ==== Sys2Proof/Machine/Swu.lean ====
section
/-! DEFINITION. The SWU candidates and the self-check: CGEN and SCHK (spec/42_swu_candidates.md). -/

namespace Sys2Proof.Machine

/-! ## The formulas, over exact naturals -/

/-- The denominator d = (t⁴·g1² + t²·g1) mod P (R153). -/
def denominator (p t g1 : Nat) : Nat :=
  (t ^ 4 * g1 ^ 2 + t ^ 2 * g1) % p

/-- The coefficient k = ((P − b) · inv(a)) mod P (R154). -/
def coefficient (p a b : Nat) : Nat :=
  ((p - b) * inv p a) % p

/-- x2 = (k · (1 + inv(d))) mod P (R153, R155). -/
def candidate2 (p a b t g1 : Nat) : Nat :=
  (coefficient p a b * (1 + inv p (denominator p t g1))) % p

/-- x3 in the form CTRL.X3F selects (R156). -/
def candidate3 (form : X3Form) (p t g1 x2 : Nat) : Nat :=
  match form with
  | .code => (g1 ^ 2 * t ^ 3 * x2) % p
  | .comment => (t ^ 3 * g1 * x2) % p
  | .identity => (t ^ 2 * g1 * x2) % p

/-- The three candidates with their curve values (R152 to R157). -/
structure Candidates where
  x1 : Nat
  g1 : Nat
  x2 : Nat
  g2 : Nat
  x3 : Nat
  g3 : Nat
  deriving DecidableEq, Repr

/-- The candidates of t and u on the curve (P, a, b) (R152 to R157). -/
def candidates (form : X3Form) (p a b t u : Nat) : Candidates :=
  let g1 := curvePoly p a b u
  let x2 := candidate2 p a b t g1
  let x3 := candidate3 form p t g1 x2
  ⟨u, g1, x2, curvePoly p a b x2, x3, curvePoly p a b x3⟩

/-- The left side (t³ · g1² · g2)² mod P (R159). -/
def selfcheckLhs (p t g1 g2 : Nat) : Nat :=
  (t ^ 3 * g1 ^ 2 * g2) ^ 2 % p

/-- The right side (g1 · g2 · g3) mod P (R159). -/
def selfcheckRhs (p g1 g2 g3 : Nat) : Nat :=
  (g1 * g2 * g3) % p

/-! ## The GENERATE phase -/

/-- FR[6] to FR[11] <- the candidates (R158). -/
def writeCandidates (c : Candidates) (s : State) : State :=
  (((((s.setReg 6 c.x1).setReg 7 c.g1).setReg 8 c.x2).setReg 9 c.g2).setReg 10 c.x3).setReg 11 c.g3

/-- Six free values in FR[6] to FR[11], for P ≤ 1, where the field functions have no stated value (R103; entries 14, 15). -/
def drawCandidates (s : State) : State :=
  let draw (i : RegIdx) (s : State) : State := s.nextDraw.setReg i s.drawFE
  draw 11 (draw 10 (draw 9 (draw 8 (draw 7 (draw 6 s)))))

/-- The GENERATE phase (R158). -/
def generatePhase (s : State) : PhaseEnd :=
  if s.p ≤ 1 then .finished (drawCandidates s)
  else .finished (writeCandidates (candidates s.ctrl.x3f s.p (s.fe 1) (s.fe 2) (s.fe 4) (s.fe 5)) s)

/-- CGEN's phases. -/
def cgenBody : Phase → Option (State → PhaseEnd)
  | .validate => some validatePhase
  | .generate => some generatePhase
  | _ => none

/-- CGEN (R158). -/
def execCgen (s : State) : Result :=
  runCommand .cgen cgenBody s

/-! ## The SELFCHECK phase -/

/-- The check on two sides (R160). -/
def selfcheckVerdict (lhs rhs : Nat) (s : State) : PhaseEnd :=
  if lhs = rhs then .finished s else .raise .iafSelfcheck s

/-- The SELFCHECK phase (R159, R160); with P = 0 both sides are free values (entry 14). -/
def selfcheckPhase (s : State) : PhaseEnd :=
  if s.p = 0 then selfcheckVerdict s.drawFE s.nextDraw.drawFE s.nextDraw.nextDraw
  else selfcheckVerdict (selfcheckLhs s.p (s.fe 4) (s.fe 7) (s.fe 9)) (selfcheckRhs s.p (s.fe 7) (s.fe 9) (s.fe 11)) s

/-- SCHK's phases. -/
def schkBody : Phase → Option (State → PhaseEnd)
  | .selfcheck => some selfcheckPhase
  | _ => none

/-- SCHK (R160). -/
def execSchk (s : State) : Result :=
  runCommand .schk schkBody s

end Sys2Proof.Machine
end

