-- ==== Sys2Proof/Machine/Pipeline.lean ====
section
/-! DEFINITION. The pipeline H2C (spec/44_control_cmds.md R192): the phases of VALIDATE, H2F with counters 0 and 1, CGEN,
SCHK and SELECT. -/

namespace Sys2Proof.Machine

/-- H2C's phases (R192): t into FR[4] with counter 0, u into FR[5] with counter 1. -/
def h2cBody : Phase → Option (State → PhaseEnd)
  | .validate => some validatePhase
  | .deriveT => some (derivePhase 4 0)
  | .deriveU => some (derivePhase 5 1)
  | .generate => some generatePhase
  | .selfcheck => some selfcheckPhase
  | .sqrt => some sqrtPhase
  | .select => some selectPhase
  | .idle | .exec => none

/-- H2C (R192). -/
def execH2c (s : State) : Result :=
  runCommand .h2c h2cBody s

end Sys2Proof.Machine
end

