-- ==== Sys2Proof/Machine/Dispatch.lean ====
section
/-! DEFINITION. One arm per command. -/

namespace Sys2Proof.Machine

/-- The effect of a command in a state: its acceptance when BUSY = 0 (R196), one step of its current phase when BUSY = 1
(R199, R250). -/
def exec (i : Instr) (s : State) : Host.Outcome State Fault Refusal :=
  match i with
  | .nop => Sys2Proof.Machine.execNop s
  | .fadd rd rs1 rs2 => Sys2Proof.Machine.execFadd rd rs1 rs2 s
  | .fneg rd rs1 => Sys2Proof.Machine.execFneg rd rs1 s
  | .fmul rd rs1 rs2 => Sys2Proof.Machine.execFmul rd rs1 rs2 s
  | .fsqr rd rs1 => Sys2Proof.Machine.execFsqr rd rs1 s
  | .fcube rd rs1 => Sys2Proof.Machine.execFcube rd rs1 s
  | .finv rd rs1 => Sys2Proof.Machine.execFinv rd rs1 s
  | .geval rd rs1 => Sys2Proof.Machine.execGeval rd rs1 s
  | .clrw => Sys2Proof.Machine.execClrw s
  | .validate => Sys2Proof.Machine.execValidate s
  | .h2f rd cnt => Sys2Proof.Machine.execH2f rd cnt s
  | .cgen => Sys2Proof.Machine.execCgen s
  | .schk => Sys2Proof.Machine.execSchk s
  | .select => Sys2Proof.Machine.execSelect s
  | .h2c => Sys2Proof.Machine.execH2c s

end Sys2Proof.Machine
end

