-- ==== Sys2Proof/Machine/Bus.lean ====
section
/-! DEFINITION. The register window: what an offset names, bus reads and writes (spec/10_state.md R20 to R35, R48;
spec/20_memory.md R62, R63, R69, R70), and the issue of a command (spec/44_control_cmds.md R196). -/

namespace Sys2Proof.Machine

/-- What a word of the window is (R20). -/
inductive Region where
  | id | cfg | ctrl | cmd | status | hashId | msgAddr | msgLen | dstAddr | dstLen | pbits | errinfo
  /-- word k of FR[i], in the window also for k ≥ NW (R28) -/
  | frWord (i : RegIdx) (k : Fin 32)
  | reserved
  deriving DecidableEq, Repr

/-- The region of an aligned offset (R20, R28). -/
def regionOf (off : Offset) : Region :=
  let o := off.toNat
  if 0x400 ≤ o ∧ o < 0xC00 then .frWord (Fin.ofNat 16 ((o - 0x400) / 0x80)) (Fin.ofNat 32 ((o - 0x400) % 0x80 / 4))
  else if o = 0x000 then .id
  else if o = 0x004 then .cfg
  else if o = 0x008 then .ctrl
  else if o = 0x00C then .cmd
  else if o = 0x010 then .status
  else if o = 0x014 then .hashId
  else if o = 0x018 then .msgAddr
  else if o = 0x01C then .msgLen
  else if o = 0x020 then .dstAddr
  else if o = 0x024 then .dstLen
  else if o = 0x028 then .pbits
  else if o = 0x02C then .errinfo
  else .reserved

/-- The access is accepted: 32 bits wide at a multiple of 4 (R62). -/
def accessOk (width : AccessWidth) (off : Offset) : Bool :=
  width == .w32 && off.toNat % 4 == 0

/-- Record a bus response. -/
def State.respond (r : BusResponse) (s : State) : State :=
  { s with env := { s.env with bus := r } }

/-! ## Reads: no side effect but the model's own counter (R69) -/

/-- A read of word k of FR[i]: reserved words read 0 (R28, R63); a word k < NW is a draw while BUSY = 1 (R30). -/
def readFrWord (i : RegIdx) (k : Fin 32) (s : State) : Word × State :=
  if s.nw ≤ k.val then (0, s)
  else if s.status.busy then (s.drawWord, s.nextDraw)
  else (getWord k (s.reg i), s)

/-- The value a read of a region returns, and the state after it. -/
def readRegion (r : Region) (s : State) : Word × State :=
  match r with
  | .id => (idWord, s)
  | .cfg => (cfgWord s, s)
  | .ctrl => (ctrlWord s.ctrl, s)
  | .cmd => (0, s)
  | .status => (statusWord s.status, s)
  | .hashId => (s.kdf.hashId, s)
  | .msgAddr => (s.kdf.msgAddr, s)
  | .msgLen => (s.kdf.msgLen, s)
  | .dstAddr => (s.kdf.dstAddr, s)
  | .dstLen => (s.kdf.dstLen, s)
  | .pbits => (pbitsWord s, s)
  | .errinfo => (errinfoWord s.errinfo, s)
  | .frWord i k => readFrWord i k s
  | .reserved => (0, s)

/-- A bus read (R13, R62). -/
def busRead (width : AccessWidth) (off : Offset) (s : State) : State :=
  if accessOk width off then
    let (v, s) := readRegion (regionOf off) s
    s.respond (.data v)
  else s.respond .error

/-! ## Writes -/

/-- The issue of a command word while BUSY = 0: CMDL <- w, then illegal words complete at once and legal ones are
executed from acceptance on (R26, R196, R197). -/
def issueCommand (w : Word) (s : State) : Result :=
  let s := { s with cmdl := w }
  match decode w with
  | .error _ => .next (completeImmediate .illegalCommand s)
  | .ok i => exec i s

/-- A write of word k of FR[i] while BUSY = 0: reserved words ignore it (R28, R63); a write of FR12 or FR13 clears PV (R29). -/
def writeFrWord (i : RegIdx) (k : Fin 32) (v : Word) (s : State) : State :=
  if s.nw ≤ k.val then s else writeback i (setWord k v (s.reg i)) s

/-- A write to a register R48 protects: refused while BUSY = 1. -/
def guardBusy (f : State → Result) (s : State) : Result :=
  if s.status.busy then .next (refuseWrite s) else f s

/-- The effect of a write of a region (R21, R35, R48, R63, R70). -/
def writeRegion (r : Region) (v : Word) (s : State) : Result :=
  match r with
  | .id | .cfg | .pbits | .errinfo | .reserved => .next s
  | .status => .next { s with status := writeStatus v s.status }
  | .cmd => guardBusy (issueCommand v) s
  | .ctrl => guardBusy (fun s => .next { s with ctrl := writeCtrl v s.ctrl }) s
  | .hashId => guardBusy (fun s => .next { s with kdf := { s.kdf with hashId := v } }) s
  | .msgAddr => guardBusy (fun s => .next { s with kdf := { s.kdf with msgAddr := v } }) s
  | .msgLen => guardBusy (fun s => .next { s with kdf := { s.kdf with msgLen := v } }) s
  | .dstAddr => guardBusy (fun s => .next { s with kdf := { s.kdf with dstAddr := v } }) s
  | .dstLen => guardBusy (fun s => .next { s with kdf := { s.kdf with dstLen := v } }) s
  | .frWord i k => guardBusy (fun s => .next (writeFrWord i k v s)) s

/-- A bus write (R13, R62). -/
def busWrite (width : AccessWidth) (off : Offset) (v : Word) (s : State) : Result :=
  if accessOk width off then writeRegion (regionOf off) v (s.respond .ack)
  else .next (s.respond .error)

/-! ## The host's own memory (R61, R78, R252) -/

/-- The address lies in the bytes a descriptor names. -/
def inBuffer (addr base len : Word) : Bool :=
  base.toNat ≤ addr.toNat && addr.toNat < base.toNat + len.toNat

/-- The address lies in the message or in the tag (R78). -/
def describedByte (addr : Word) (k : KdfRegs) : Bool :=
  inBuffer addr k.msgAddr k.msgLen || inBuffer addr k.dstAddr k.dstLen

/-- The host's memory becomes another one that may differ at one address. A described byte that changed while BUSY = 1 is
remembered until the next acceptance (R78, R200); a store of the value the byte has changes nothing. DESIGN CHOICE
(entry 12): the answers of the command that come after the change are draws, one that has already arrived stays. -/
def bufChange (addr : Word) (mem : Memory) (s : State) : State :=
  { s with env := { s.env with
      mem := mem
      touched := s.env.touched ||
        (s.status.busy && describedByte addr s.kdf && mem.read addr.toNat != s.env.mem.read addr.toNat) } }

/-! ## The host agent -/

/-- One host operation, already taken off the list. `wait` reads STATUS and stays at the head of the list while the
BUSY bit it reads is 1 (R92). -/
def hostOp (op : HostOp) (s : State) : Result :=
  match op with
  | .read width off => .next (busRead width off s)
  | .write width off v => busWrite width off v s
  | .waitIdle =>
      let t := busRead .w32 0x010 s
      if s.status.busy then .next { t with env := { t.env with hostOps := .waitIdle :: t.env.hostOps } } else .next t
  | .bufWrite addr b => .next (bufChange addr (s.env.mem.write addr.toNat b) s)
  | .bufDrop addr => .next (bufChange addr (s.env.mem.drop addr.toNat) s)

/-- The host's turn: its next operation; with none left it has no step (R256). -/
def hostTurn (s : State) : Result :=
  match s.env.hostOps with
  | [] => .next s
  | op :: rest => hostOp op { s with env := { s.env with hostOps := rest } }

end Sys2Proof.Machine
end

