-- ==== Sys2Proof/Machine/Agents.lean ====
section
/-! DEFINITION. The agents' turns and which agent moves next (spec/00_scope.md R17, spec/70_reset_and_hazards.md R240 to
R243, R250, R254). -/

namespace Sys2Proof.Machine

/-- The sequencer's turn: one step of the command in CMDL (R40); with BUSY = 0 it has no step. -/
def sequencerTurn (s : State) : Result :=
  if s.status.busy then
    match decode s.cmdl with
    | .ok i => exec i s
    | .error _ => .fault .runningCommandIllegal
  else .next s

/-- Reset: every piece of the block's state takes its reset value, outstanding requests are dropped (R240 to R243); the
environment goes on (entry 21). -/
def resetTurn (s : State) : State :=
  { State.reset with env := { s.env with touched := false } }

/-- One turn of an agent. -/
def turn (a : Agent) (s : State) : Result :=
  match a with
  | .host => hostTurn s
  | .sequencer => sequencerTurn s
  | .kdf => .next (kdfTurn s)
  | .sqrt => .next (sqrtTurn s)
  | .reset => .next (resetTurn s)

/-- Who moves when the schedule names nobody: the block and its collaborators before the host (entry 3). -/
def defaultAgent (s : State) : Agent :=
  if s.hid.kpend then .kdf
  else if s.hid.sqpend then .sqrt
  else if s.status.busy then .sequencer
  else .host

/-- The agent that moves next. -/
def nextAgent (s : State) : Agent :=
  match s.env.schedule with
  | [] => defaultAgent s
  | a :: _ => a

/-- The state with the agent that moves next taken off the schedule. -/
def State.popSchedule (s : State) : State :=
  { s with env := { s.env with schedule := s.env.schedule.tail } }

/-- The machine idle, with the same registers: a command in progress is given up (entry 4). -/
def State.abandon (s : State) : State :=
  { s with hid := Hidden.cleared, status := { s.status with busy := false, state := .idle } }

/-- A command word laid where the machine takes its next command from: the host's next operation is the CMD write of it,
the host moves next, and the block is idle (R26, R196; entry 4). -/
def State.offerCommand (w : Word) (s : State) : State :=
  let s := s.abandon
  { s with env := { s.env with
      hostOps := .write .w32 0x00C w :: s.env.hostOps
      schedule := .host :: s.env.schedule } }

end Sys2Proof.Machine
end

