-- ==== Sys2Proof/Machine/Step.lean ====
section
/-! DEFINITION. One step of the machine: one turn of one agent (spec/70_reset_and_hazards.md R250). -/

namespace Sys2Proof.Machine

/-- One step: the agent that moves next takes its turn (R73, R250). -/
def step (s : State) : Host.Outcome State Fault Refusal :=
  turn (nextAgent s) s.popSchedule

/-- `s` with an opcode-table word offered as the next command, so that the very next step runs it (entry 4). -/
def State.withFetchWord (s : State) (nbits w : Nat) : State :=
  s.offerCommand (BitVec.ofNat 32 (w % 2 ^ nbits))

end Sys2Proof.Machine
end

