-- ==== Sys2Proof/Machine/HostProgram.lean ====
section
/-! DEFINITION. Host programs: the machine operations and pseudo-instructions of spec/30_encoding.md R92 as lists of host
operations. -/

namespace Sys2Proof.Machine

/-- `sw OFF, VAL`. -/
def sw (off : Offset) (v : Word) : List HostOp := [.write .w32 off v]

/-- `lw OFF`. -/
def lw (off : Offset) : List HostOp := [.read .w32 off]

/-- The offset of word k of FR[i] (R28). -/
def frOffset (i : RegIdx) (k : Nat) : Offset :=
  BitVec.ofNat 12 (0x400 + 0x80 * i.val + 4 * k)

/-- `ldfe fI, V`: NW writes, least-significant word first. -/
def ldfe (w : FieldWidth) (i : RegIdx) (v : FE) : List HostOp :=
  (List.range w.nw).map fun k => .write .w32 (frOffset i k) (getWord k v)

/-- `rdfe fI`: NW reads. -/
def rdfe (w : FieldWidth) (i : RegIdx) : List HostOp :=
  (List.range w.nw).map fun k => .read .w32 (frOffset i k)

/-- `setctrl V`. -/
def setctrl (v : Word) : List HostOp := sw 0x008 v

/-- `cmd C`. -/
def cmd (c : Instr) : List HostOp := sw 0x00C (encode c)

/-- `wait`. -/
def wait : List HostOp := [.waitIdle]

/-- `run C`: `cmd C` then `wait`. -/
def runCmd (c : Instr) : List HostOp := cmd c ++ wait

/-- `ack`: clears DONE and BWE. -/
def ack : List HostOp := sw 0x010 0x0000000A

/-- A program loaded into the host from outside the machine (entry 4). -/
def State.withProgram (prog : List HostOp) (s : State) : State :=
  { s with env := { s.env with hostOps := prog } }

end Sys2Proof.Machine
end

