-- ==== Sys2Proof/Safety.lean ====
section
/-! DEFINITION. The invariant of the machine, runs, and the words the statements use: what a completed command leaves, what a
waiting one leaves, what stays. -/

namespace Sys2Proof.Machine

/-- k steps, stopping at the first fault or refusal. -/
def runSteps : Nat → State → Result
  | 0, s => .next s
  | k + 1, s =>
      match step s with
      | .next t => runSteps k t
      | .fault f => .fault f
      | .refused r => .refused r

/-- A host program's run is over: the host has no access left, the block is idle, and no port request is outstanding (R256). -/
def State.runOver (s : State) : Bool :=
  s.env.hostOps.isEmpty && !s.status.busy && !s.hid.kpend && !s.hid.sqpend

/-! ## The invariant -/

/-- Every value that stands in an FW-bit register, or on the SQRT port on its way into one, is below 2^FW (R27, R43, R171). -/
structure State.Fits (s : State) : Prop where
  fr : ∀ i : RegIdx, s.reg i < 2 ^ s.fw
  sqr : ∀ j : Fin 3, s.hid.sqr[j] < 2 ^ s.fw
  ans : ∀ a, s.hid.sqrtAns = some a → a.2 < 2 ^ s.fw

/-- What every step keeps: STATUS agrees with the phase (R34, R36), the running command is the one latched (R40, R199), an
idle block holds no hidden data (R45), the ports hold what their phase allows (R130, R170), an invalid candidate has root
0 (R173), every register value has FW bits, and the platform's bytes are in canonical form. -/
structure State.Inv (s : State) : Prop where
  /-- STATE = 0 if and only if BUSY = 0 (R36) -/
  busy_iff : s.status.busy = true ↔ s.status.state ≠ .idle
  /-- the phase is one of the latched command's (R40, R199) -/
  running : s.status.busy = true → ∃ i, decode s.cmdl = .ok i ∧ s.status.state ∈ phasesOf i.op
  /-- an idle block holds no hidden data (R45) -/
  quiet : s.status.busy = false → s.hid = Hidden.cleared
  /-- DONE and ERR are clear while a command runs (R34, R196) -/
  undone : s.status.busy = true → s.status.done = false ∧ s.status.err = .ok
  /-- PV is clear while SELECT or H2C runs (R34, R196) -/
  unpointed : s.status.busy = true → latchedWritesPoint s = true → s.status.pv = false
  /-- KPEND is 1 exactly while the KDF collaborator holds a request (R41, R130) -/
  kdf_held : s.hid.kpend = s.hid.kdfReq.isSome
  /-- the KDF port is used in the DERIVE phases only (R139) -/
  kdf_phase : s.hid.kpend = true ∨ s.hid.krspRdy = true → s.status.state = .deriveT ∨ s.status.state = .deriveU
  /-- a request and a response are never outstanding together (R130) -/
  kdf_one : ¬ (s.hid.kpend = true ∧ s.hid.krspRdy = true)
  /-- KRSP is empty unless a response stands in it (R41, R139) -/
  krsp_empty : s.hid.krspRdy = false → s.hid.krsp = []
  /-- the request in flight is the one the registers give (R49, R131) -/
  kdf_request : ∀ r, s.hid.kdfReq = some r → ∃ c, r = kdfRequest c s
  /-- SQPEND is 1 exactly while the SQRT collaborator holds a request (R42, R170) -/
  sqrt_held : s.hid.sqpend = s.hid.sqrtReq.isSome
  /-- a request and an answer are never outstanding together (R170) -/
  sqrt_one : s.hid.sqpend = true → s.hid.sqrtAns = none
  /-- the SQRT port is used in the SQRT phase only, for candidate 1, 2 or 3 (R42, R178) -/
  sqrt_phase : s.hid.sqpend = true ∨ s.hid.sqrtAns.isSome = true → s.status.state = .sqrt ∧ s.hid.sqidx ≠ 0
  /-- the request in flight carries P (R171) -/
  sqrt_request : ∀ r, s.hid.sqrtReq = some r → r.p = s.p
  /-- outside the SQRT and SELECT phases no root is held (R43, R45) -/
  roots_clear : s.status.state ≠ .sqrt → s.status.state ≠ .select →
    s.hid.sqidx = 0 ∧ s.hid.sqr = Vector.replicate 3 0 ∧ s.hid.sqv = Vector.replicate 3 false
  /-- an invalid candidate has root 0 (R173, R174) -/
  masks : ∀ i : Fin 3, s.hid.sqv[i] = false → s.hid.sqr[i] = 0
  /-- the tentative answer lives inside the SELECT step only (R44, R176, R179) -/
  res_clear : s.hid.resX = 0 ∧ s.hid.resY = 0
  /-- every register value has FW bits (R27, R43) -/
  fits : s.Fits
  /-- the platform's bytes are in canonical form -/
  mem_wf : Memory.wf s.env.mem = true

/-! ## What stays -/

/-- CTRL, the KDF request registers and CMDL are those of before. -/
structure SameControl (s t : State) : Prop where
  ctrl : t.ctrl = s.ctrl
  kdf : t.kdf = s.kdf
  cmdl : t.cmdl = s.cmdl

/-- The environment is that of before, every byte of the platform's memory among it. -/
structure SameEnv (s t : State) : Prop where
  env : t.env = s.env
  bytes : ∀ a, t.env.mem.read a = s.env.mem.read a

/-- The environment is that of before but for the free-value counter. -/
structure SameEnvButDraws (s t : State) : Prop where
  env : ∃ n, t.env = { s.env with draws := n }
  bytes : ∀ a, t.env.mem.read a = s.env.mem.read a

/-- Every field register but FR[d] is that of before. -/
def OtherRegsKept (d : RegIdx) (s t : State) : Prop :=
  ∀ j, j ≠ d → t.reg j = s.reg j

/-- PV after a write of FR[d] (R101): cleared if d is 12 or 13, else unchanged. -/
def PvAfterWrite (d : RegIdx) (s t : State) : Prop :=
  t.status.pv = if d = 12 ∨ d = 13 then false else s.status.pv

/-! ## How a command's step ends -/

/-- The command has completed with a code (R212): STATUS, ERRINFO and the hidden registers are as completion leaves them,
BWE is as before. PV, the field registers and the environment are said apart. -/
structure Completed (code : StatusCode) (ephase : Phase) (klen : BitVec 16) (s t : State) : Prop where
  busy : t.status.busy = false
  done : t.status.done = true
  err : t.status.err = code
  state : t.status.state = .idle
  bwe : t.status.bwe = s.status.bwe
  ephase : t.errinfo.ephase = ephase
  klen : t.errinfo.klen = klen
  hid : t.hid = Hidden.cleared
  control : SameControl s t

/-- The command goes on in a phase: STATUS but for STATE and PV, and ERRINFO, are as before. -/
structure GoesOn (phase : Phase) (s t : State) : Prop where
  busy : t.status.busy = s.status.busy
  done : t.status.done = s.status.done
  err : t.status.err = s.status.err
  state : t.status.state = phase
  bwe : t.status.bwe = s.status.bwe
  errinfo : t.errinfo = s.errinfo
  control : SameControl s t

/-- The sequencer runs a phase of the command: BUSY = 1 and STATE is the phase. -/
def RunningIn (phase : Phase) (s : State) : Prop :=
  s.status.busy = true ∧ s.status.state = phase

/-- A command that writes one field register has completed with OK: FR[d] = v, PV as a write of FR[d] leaves it (R101), every
other register and the environment as before. -/
structure WroteOne (d : RegIdx) (v : Nat) (s t : State) : Prop where
  completed : Completed .ok .idle 0 s t
  value : t.reg d = v
  others : OtherRegsKept d s t
  pv : PvAfterWrite d s t
  env : SameEnv s t

/-- A command that writes no field register has completed with a code: all registers, PV and the environment as before. -/
structure WroteNone (code : StatusCode) (ephase : Phase) (klen : BitVec 16) (s t : State) : Prop where
  completed : Completed code ephase klen s t
  fr : t.fr = s.fr
  pv : t.status.pv = s.status.pv
  env : SameEnv s t

/-- SELECT or H2C has completed with an error: the point is cleared, every other register and the environment as before (R213). -/
structure PointCleared (code : StatusCode) (ephase : Phase) (klen : BitVec 16) (s t : State) : Prop where
  completed : Completed code ephase klen s t
  x : t.reg 12 = 0
  y : t.reg 13 = 0
  pv : t.status.pv = false
  others : ∀ j, j ≠ 12 → j ≠ 13 → t.reg j = s.reg j
  env : SameEnv s t

/-- The command goes on in a phase with no register, hidden register or environment changed. -/
structure OnlyAdvanced (phase : Phase) (s t : State) : Prop where
  goesOn : GoesOn phase s t
  fr : t.fr = s.fr
  pv : t.status.pv = s.status.pv
  hid : t.hid = s.hid
  env : SameEnv s t

/-- The inverse function as the spec writes it (R104): z^(P−2) mod P, and 0 for 0. -/
def specInv (p z : Nat) : Nat :=
  if z = 0 then 0 else z ^ (p - 2) % p

/-- g(x) as the spec writes it (R107). -/
def specG (s : State) (x : Nat) : Nat :=
  (x ^ 3 + s.reg 1 % s.p * x + s.reg 2 % s.p) % s.p

/-- FR[6] to FR[11] of `t` hold the candidates of R152 to R157 computed from `s`; every other register is as before. -/
def CandidatesWritten (s t : State) : Prop :=
  let p := s.p
  let a := s.reg 1 % p
  let b := s.reg 2 % p
  let tt := s.reg 4 % p
  let x1 := s.reg 5 % p
  let g1 := specG s x1
  let di := specInv p ((tt ^ 4 * g1 ^ 2 + tt ^ 2 * g1) % p)
  let k := (p - b) * specInv p a % p
  let x2 := k * (1 + di) % p
  let x3 := match s.ctrl.x3f with
    | .code => g1 ^ 2 * tt ^ 3 * x2 % p
    | .comment => tt ^ 3 * g1 * x2 % p
    | .identity => tt ^ 2 * g1 * x2 % p
  t.reg 6 = x1 ∧ t.reg 7 = g1 ∧ t.reg 8 = x2 ∧ t.reg 9 = specG s x2 ∧
    t.reg 10 = x3 ∧ t.reg 11 = specG s x3 ∧
    ∀ j : RegIdx, j.val < 6 ∨ 11 < j.val → t.reg j = s.reg j

/-- The self-check relation of R159 on the stored registers. -/
def SelfcheckHolds (s : State) : Prop :=
  let t := s.reg 4 % s.p
  let g1 := s.reg 7 % s.p
  let g2 := s.reg 9 % s.p
  let g3 := s.reg 11 % s.p
  (t ^ 3 * g1 ^ 2 * g2) ^ 2 % s.p = g1 * g2 * g3 % s.p

/-- v is a square modulo p (R18: 0 counts as one). -/
def IsSquareMod (p v : Nat) : Prop :=
  ∃ x : Nat, x * x % p = v % p

/-- The state without its square-root results: what may differ between runs that differ only in the validity of the
candidates (R180). -/
def State.blankRoots (s : State) : State :=
  { s with hid := { s.hid with
      sqr := Vector.replicate 3 0
      sqv := Vector.replicate 3 false
      sqrtAns := s.hid.sqrtAns.map fun _ => (false, 0) } }

/-- The integer of the response in KRSP: Σ_{j<L} KRSP[j] · 256^(L−1−j) (R136). -/
def specValue (bs : List Byte) : Nat :=
  ∑ j ∈ Finset.range bs.length, (bs.getD j 0).toNat * 256 ^ (bs.length - 1 - j)

/-- The value a derivation writes from KRSP when the modulus is not 0 (R136, R137). -/
def derivedValue (s : State) (bs : List Byte) : Nat :=
  specValue bs % (if s.ctrl.redsel then s.p else (s.reg 3)) % s.p

end Sys2Proof.Machine
end

