-- ==== Sys2Proof/Certificates/Slice0/Obligations.lean ====
section
/-! DEFINITION. The statements for the provers. -/

open Sys2Proof Sys2Proof.Machine

/-! ## Encoding -/

/-- Decoding an encoded command gives it back, and encoding a decoded word gives the word back (R81, R87, R89, R90). -/
def Obligations.DecodeAndEncodeAgree : Prop :=
  (∀ i : Instr, decode (encode i) = .ok i) ∧ ∀ (w : Word) (i : Instr), decode w = .ok i → encode i = w

/-- A word is a command exactly when one of the fifteen rows selects it by mask and match, it then belongs to that row, and
the rows are pairwise disjoint (R86, R89). -/
def Obligations.LegalWordsAreTheRows : Prop :=
  (∀ w : Word, (∃ i, decode w = .ok i) ↔ ∃ o ∈ Op.all, o.selectedBy w = true) ∧
    (∀ (w : Word) (i : Instr), decode w = .ok i → i.op.selectedBy w = true) ∧
    ∀ (w : Word) (o o' : Op), o.selectedBy w = true → o'.selectedBy w = true → o = o'

/-- R93's assembled words are those of their commands, both ways, and its illegal examples are illegal. -/
def Obligations.ExampleWordsDecode : Prop :=
  (∀ e ∈ [((0x00000000 : Word), Instr.nop), (0x00076E03, .fmul 14 6 7), (0x0002EE01, .fadd 14 14 2),
      (0x000FEE01, .fadd 14 14 15), (0x00061F03, .fmul 15 1 6), (0x00006E05, .fcube 14 6), (0x00007E04, .fsqr 14 7),
      (0x00002E02, .fneg 14 2), (0x0000EE06, .finv 14 14), (0x00006F07, .geval 15 6), (0x0000000F, .clrw),
      (0x00000010, .validate), (0x00000411, .h2f 4 0), (0x01000511, .h2f 5 1), (0x07000E11, .h2f 14 7),
      (0x00000012, .cgen), (0x00000013, .schk), (0x00000014, .select), (0x00000020, .h2c)],
    encode e.2 = e.1 ∧ decode e.1 = .ok e.2) ∧
  ∀ w ∈ [(0x00000008 : Word), 0x00100020, 0x00000112, 0x01000001, 0x00010002], ∀ i, decode w ≠ .ok i

/-! ## Reset -/

/-- Asserting reset in any state sets every piece of the block's state to R47's value and raises no interrupt; the reset
state itself has those values (R47, R240). FW stays the configuration's; in the reset state it is the reference 256. -/
def Obligations.ResetSetsEveryRegister : Prop :=
  ∀ s : State, ∃ t, turn .reset s = .next t ∧ ∀ r, (r = t ∨ r = State.reset) →
    r.ctrl = ⟨.code, false, false⟩ ∧ ctrlWord r.ctrl = 0 ∧ statusWord r.status = 0 ∧ errinfoWord r.errinfo = 0 ∧
    r.status.busy = false ∧ r.status.done = false ∧ r.status.pv = false ∧ r.status.bwe = false ∧ r.status.err = .ok ∧
    r.status.state = .idle ∧ r.kdf = ⟨0, 0, 0, 0, 0⟩ ∧ (∀ i, r.reg i = 0) ∧ r.cmdl = 0 ∧ pbitsWord r = 0 ∧
    r.hid.kpend = false ∧ r.hid.krsp = [] ∧ r.hid.sqpend = false ∧ r.hid.sqidx = 0 ∧
    (∀ i : Fin 3, r.hid.sqr[i] = 0 ∧ r.hid.sqv[i] = false) ∧ r.hid.resX = 0 ∧ r.hid.resY = 0 ∧ r.irq = false ∧
    (readRegion .id r).1 = 0x48324301 ∧ (readRegion .cfg r).1 = BitVec.ofNat 32 (0x00800000 + r.fw) ∧
    (r = t → r.fw = s.fw) ∧ (r = State.reset → r.fw = 256)

/-- Reset during a command aborts it: no completion, no interrupt, no remaining phase, the field registers lost; and an answer
of either collaborator that comes after it changes nothing (R242, R243). -/
def Obligations.ResetAbortsAndDropsAnswers : Prop :=
  ∀ s : State, ∃ t, turn .reset s = .next t ∧ t.status.busy = false ∧ t.status.done = false ∧ t.irq = false ∧
    (∀ i, t.reg i = 0) ∧ turn .sequencer t = .next t ∧ turn .kdf t = .next t ∧ turn .sqrt t = .next t

/-! ## The invariant and progress -/

/-- The reset state meets the invariant. -/
def Obligations.ResetMeetsTheInvariant : Prop :=
  State.reset.Inv

/-- Every step keeps the invariant, and the parameters FW and SQRT_ROOT, whichever agent moves. -/
def Obligations.StepKeepsTheInvariant : Prop :=
  ∀ s t : State, s.Inv → step s = .next t →
    t.Inv ∧ t.env.fw = s.env.fw ∧ t.env.sqrtRoot = s.env.sqrtRoot

/-- From a state that meets the invariant no step stops: no fault and no refusal, on any data and any modulus (R210, R246). -/
def Obligations.NoStepStops : Prop :=
  ∀ s : State, s.Inv → ∃ t, step s = .next t

/-- A running command completes within 19 steps when the block and its collaborators move (R254; the bound and the empty
schedule are the model's, entry 3). -/
def Obligations.RunningCommandCompletes : Prop :=
  ∀ s : State, s.Inv → s.status.busy = true → s.env.schedule = [] →
    ∃ n ≤ 19, ∃ t, runSteps n s = .next t ∧ t.status.busy = false ∧ t.status.done = true

/-- A step of the sequencer runs the command latched in CMDL (R40, R250). -/
def Obligations.SequencerStepRunsTheLatchedCommand : Prop :=
  ∀ (s : State) (i : Instr), nextAgent s = .sequencer → s.status.busy = true → decode s.cmdl = .ok i →
    step s = exec i s.popSchedule

/-- A CMD write runs the command its word decodes to, with the word latched (R26, R196). -/
def Obligations.CommandWriteRunsItsWord : Prop :=
  ∀ (s : State) (w : Word) (i : Instr) (rest : List HostOp), nextAgent s = .host →
    s.env.hostOps = .write .w32 0x00C w :: rest → s.status.busy = false → decode w = .ok i →
    step s = exec i { s with
      cmdl := w
      env := { s.env with hostOps := rest, schedule := s.env.schedule.tail, bus := .ack } }

/-! ## Acceptance and control -/

/-- Acceptance of a command that runs phases (R196, R199): DONE and ERR cleared, PV cleared by SELECT and H2C only, BUSY set,
STATE the first phase of R199's table; no field register, hidden register or control register changes. -/
def Obligations.AcceptanceStartsTheFirstPhase : Prop :=
  ∀ (s : State) (i : Instr) (first : Phase), s.status.busy = false →
    (first = match i with
      | .nop => .idle
      | .fadd .. | .fneg .. | .fmul .. | .fsqr .. | .fcube .. | .finv .. | .geval .. | .clrw => .exec
      | .validate | .h2f .. | .cgen | .h2c => .validate
      | .schk => .selfcheck
      | .select => .sqrt) → i ≠ .nop →
    exec i s = .next { s with
      status :=
        { busy := true, done := false, pv := if i = .select ∨ i = .h2c then false else s.status.pv,
          bwe := s.status.bwe, err := .ok, state := first }
      env := { s.env with touched := false } }

/-- An illegal word written to CMD has no effect except ERR = 5, DONE = 1, ERRINFO = 0 and the CMDL latch (R197). -/
def Obligations.IllegalWordOnlyReports : Prop :=
  ∀ (s : State) (w : Word), s.status.busy = false → (∀ i, decode w ≠ .ok i) →
    busWrite .w32 0x00C w s = .next { s with
      cmdl := w
      status := { s.status with err := .illegalCommand, done := true }
      errinfo := ⟨.idle, 0⟩
      env := { s.env with bus := .ack } }

/-- NOP completes at acceptance with OK and nothing else changes; BUSY is never 1. Its word is 0, any other word with OPC 0
is illegal, and while BUSY = 1 it is refused (R190). -/
def Obligations.NopCompletesAtAcceptance : Prop :=
  ∀ s : State,
    (s.status.busy = false →
      exec .nop s = .next { s with status := { s.status with err := .ok, done := true }, errinfo := ⟨.idle, 0⟩ }) ∧
    encode .nop = 0 ∧ (∀ w : Word, (fieldsOf w).opc = 0 → w ≠ 0 → ∀ i, decode w ≠ .ok i) ∧
    (s.status.busy = true →
      busWrite .w32 0x00C 0 s = .next { s with
        status := { s.status with bwe := true }
        env := { s.env with bus := .ack } })

/-- CLRW clears FR4 to FR15 and PV, keeps FR0 to FR3, and completes with OK whatever P is (R191). -/
def Obligations.ClearWorkingRegisters : Prop :=
  ∀ s : State, RunningIn .exec s → ∃ t, exec .clrw s = .next t ∧ Completed .ok .idle 0 s t ∧ t.status.pv = false ∧
    (∀ j : RegIdx, t.reg j = if j.val < 4 then s.reg j else 0) ∧ SameEnv s t ∧ fieldsOf (encode .clrw) = ⟨0x0F, 0, 0, 0, 0, 0⟩

/-! ## Field arithmetic -/

/-- FADD writes (x + y) mod P and FNEG writes (P − x) mod P, operands reduced first, and both complete with OK (R105, R106). -/
def Obligations.AddAndNegate : Prop :=
  ∀ (s : State) (rd a b : RegIdx), RunningIn .exec s → 2 ≤ s.p →
    (∃ t, exec (.fadd rd a b) s = .next t ∧
      WroteOne rd ((s.reg a % s.p + s.reg b % s.p) % s.p) s t) ∧
    (∃ t, exec (.fneg rd a) s = .next t ∧ WroteOne rd ((s.p - s.reg a % s.p) % s.p) s t) ∧
    fieldsOf (encode (.fadd rd a b)) = ⟨0x01, rd, a, b, 0, 0⟩ ∧ fieldsOf (encode (.fneg rd a)) = ⟨0x02, rd, a, 0, 0, 0⟩

/-- FMUL, FSQR and FCUBE write the exact product, square and cube mod P and complete with OK (R108, R109, R110). -/
def Obligations.MultiplySquareCube : Prop :=
  ∀ (s : State) (rd a b : RegIdx), RunningIn .exec s → 2 ≤ s.p →
    (∃ t, exec (.fmul rd a b) s = .next t ∧
      WroteOne rd (s.reg a % s.p * (s.reg b % s.p) % s.p) s t) ∧
    (∃ t, exec (.fsqr rd a) s = .next t ∧ WroteOne rd ((s.reg a % s.p) ^ 2 % s.p) s t) ∧
    (∃ t, exec (.fcube rd a) s = .next t ∧ WroteOne rd ((s.reg a % s.p) ^ 3 % s.p) s t) ∧
    fieldsOf (encode (.fmul rd a b)) = ⟨0x03, rd, a, b, 0, 0⟩ ∧
    fieldsOf (encode (.fsqr rd a)) = ⟨0x04, rd, a, 0, 0, 0⟩ ∧ fieldsOf (encode (.fcube rd a)) = ⟨0x05, rd, a, 0, 0, 0⟩

/-- FINV writes x^(P−2) mod P, 0 for x = 0, which for prime P is the one inverse of x ≠ 0, and completes with OK (R104, R111). -/
def Obligations.InverseIsThePower : Prop :=
  ∀ (s : State) (rd a : RegIdx), RunningIn .exec s → 2 ≤ s.p →
    ∃ t, exec (.finv rd a) s = .next t ∧ WroteOne rd (specInv s.p (s.reg a % s.p)) s t ∧
      (Nat.Prime s.p → s.reg a % s.p ≠ 0 →
        1 ≤ t.reg rd ∧ t.reg rd < s.p ∧ s.reg a % s.p * t.reg rd % s.p = 1 ∧
          ∀ w, 1 ≤ w → w < s.p → s.reg a % s.p * w % s.p = 1 → w = t.reg rd) ∧
      fieldsOf (encode (.finv rd a)) = ⟨0x06, rd, a, 0, 0, 0⟩

/-- GEVAL writes g(x) = x³ + a·x + b mod P and completes with OK, for every a and b, 0 among them (R107, R112). -/
def Obligations.CurvePolynomialIsEvaluated : Prop :=
  ∀ (s : State) (rd a : RegIdx), RunningIn .exec s → 2 ≤ s.p →
    ∃ t, exec (.geval rd a) s = .next t ∧
      WroteOne rd (((s.reg a % s.p) ^ 3 + s.reg 1 % s.p * (s.reg a % s.p)
        + s.reg 2 % s.p) % s.p) s t ∧
      fieldsOf (encode (.geval rd a)) = ⟨0x07, rd, a, 0, 0, 0⟩

/-- When P ≤ 1 every field command still completes with OK; only the value written is free (R103). -/
def Obligations.FieldCommandsCompleteOnABadModulus : Prop :=
  ∀ (s : State) (rd a b : RegIdx), RunningIn .exec s → s.p ≤ 1 →
    ∀ i ∈ [Instr.fadd rd a b, .fneg rd a, .fmul rd a b, .fsqr rd a, .fcube rd a, .finv rd a, .geval rd a],
      ∃ t, exec i s = .next t ∧ Completed .ok .idle 0 s t ∧ OtherRegsKept rd s t ∧ PvAfterWrite rd s t ∧
        SameEnvButDraws s t

/-! ## Curve validation and hashing to the field -/

/-- VALIDATE completes with UNSUPPORTED_CURVE if a mod P = 0 or b mod P = 0, else with OK; it writes no field register and
leaves PV (R150, R151). -/
def Obligations.ValidateChecksTheCurve : Prop :=
  ∀ s : State, RunningIn .validate s → 1 ≤ s.p → s.cmdl = encode .validate →
    ∃ t, exec .validate s = .next t ∧
      (if s.reg 1 % s.p = 0 ∨ s.reg 2 % s.p = 0 then WroteNone .unsupportedCurve .validate 0 s t
        else WroteNone .ok .idle 0 s t) ∧
      fieldsOf (encode .validate) = ⟨0x10, 0, 0, 0, 0, 0⟩

/-- H2F, CGEN and H2C check the curve first: on a bad one they complete with code 1 and nothing but the point of H2C is
written; on a good one they go on to their next phase with nothing else changed (R138, R150, R158, R192). -/
def Obligations.HashingCommandsCheckTheCurveFirst : Prop :=
  ∀ (s : State) (rd : RegIdx) (cnt : Byte), RunningIn .validate s → 1 ≤ s.p →
    ∀ (i : Instr) (next : Phase),
      ((i, next) = (Instr.h2f rd cnt, Phase.deriveT) ∨ (i, next) = (.cgen, .generate) ∨ (i, next) = (.h2c, .deriveT)) →
      s.cmdl = encode i →
      ∃ t, exec i s = .next t ∧
        if s.reg 1 % s.p = 0 ∨ s.reg 2 % s.p = 0 then
          (i ≠ .h2c → WroteNone .unsupportedCurve .validate 0 s t) ∧
          (i = .h2c → PointCleared .unsupportedCurve .validate 0 s t)
        else OnlyAdvanced next s t

/-- A KDF request is issued only by a sequencer step of H2F or H2C in a DERIVE phase, hence after VALIDATE passed (R140). -/
def Obligations.OnlyDerivePhasesIssueKdfRequests : Prop :=
  ∀ (a : Agent) (s t : State), s.Inv → turn a s = .next t → s.hid.kdfReq = none → t.hid.kdfReq ≠ none →
    a = .sequencer ∧ (s.status.state = .deriveT ∨ s.status.state = .deriveU) ∧
      ∃ i, decode s.cmdl = .ok i ∧ (i.op = .h2f ∨ i.op = .h2c)

/-- A derivation issues exactly R131's request: the five registers, the label 'H' '2' 'C' c 0x00 and the length
L = (bitlen(P) + 135) div 8, at most LMAX as P has FW bits (R131, R133, R134); while KPEND = 1 the sequencer holds. -/
def Obligations.DerivationIssuesTheRequest : Prop :=
  ∀ (s : State) (rd : RegIdx) (cnt : Byte) (i : Instr) (ph : Phase) (c : Byte),
    ((i, ph, c) = (Instr.h2f rd cnt, Phase.deriveT, cnt) ∨ (i, ph, c) = (.h2c, .deriveT, 0) ∨
      (i, ph, c) = (.h2c, .deriveU, 1)) → RunningIn ph s →
    (s.hid.kpend = false → s.hid.krspRdy = false →
      exec i s = .next { s with hid := { s.hid with
        kpend := true
        kdfReq := some {
          hashId := s.kdf.hashId, msgAddr := s.kdf.msgAddr, msgLen := s.kdf.msgLen, dstAddr := s.kdf.dstAddr,
          dstLen := s.kdf.dstLen, info := [0x48, 0x32, 0x43, c, 0x00], outLen := (bitlen s.p + 135) / 8 } } }) ∧
    (s.hid.kpend = true → exec i s = .next s) ∧
    (s.Fits → (bitlen s.p + 135) / 8 ≤ (s.fw + 128 + 7) / 8)

/-- H2F writes the big-endian integer of the response mod m mod P and completes with OK (R136, R137, R138). -/
def Obligations.H2fWritesTheReducedResponse : Prop :=
  ∀ (s : State) (rd : RegIdx) (cnt : Byte), RunningIn .deriveT s → 1 ≤ s.p → s.hid.kpend = false →
    s.hid.krspRdy = true → s.hid.krsp.length = (bitlen s.p + 135) / 8 →
    (s.ctrl.redsel = true ∨ s.reg 3 ≠ 0) →
    ∃ t, exec (.h2f rd cnt) s = .next t ∧ WroteOne rd (derivedValue s s.hid.krsp) s t ∧
      fieldsOf (encode (.h2f rd cnt)) = ⟨0x11, rd, 0, 0, 0, cnt.toNat⟩

/-- With REDSEL = 0 and N = 0 a derivation still writes some value in [0, P): H2F completes with OK, H2C's DERIVE_T goes on to
DERIVE_U with t in FR4, and its DERIVE_U goes on to GENERATE with u in FR5 (R137, R139, R192). -/
def Obligations.H2fWithZeroOrderCompletes : Prop :=
  ∀ s : State, 1 ≤ s.p → s.hid.kpend = false → s.hid.krspRdy = true →
    s.hid.krsp.length = (bitlen s.p + 135) / 8 → s.ctrl.redsel = false → s.reg 3 = 0 →
    (∀ (rd : RegIdx) (cnt : Byte), RunningIn .deriveT s →
      ∃ t, exec (.h2f rd cnt) s = .next t ∧ Completed .ok .idle 0 s t ∧ t.reg rd < s.p ∧
        OtherRegsKept rd s t ∧ PvAfterWrite rd s t ∧ SameEnvButDraws s t) ∧
    ∀ (ph next : Phase) (d : RegIdx),
      ((ph, next, d) = (Phase.deriveT, Phase.deriveU, (4 : RegIdx)) ∨ (ph, next, d) = (.deriveU, .generate, 5)) →
      RunningIn ph s →
      ∃ t, exec .h2c s = .next t ∧ GoesOn next s t ∧ t.reg d < s.p ∧ OtherRegsKept d s t ∧
        t.status.pv = s.status.pv ∧ t.hid = { s.hid with krsp := [], krspRdy := false } ∧ SameEnvButDraws s t

/-- H2C derives t into FR4 and goes on to DERIVE_U, then u into FR5 and goes on to GENERATE, consuming the response (R139, R192). -/
def Obligations.H2cDerivesTThenU : Prop :=
  ∀ (s : State) (ph next : Phase) (d : RegIdx),
    ((ph, next, d) = (Phase.deriveT, Phase.deriveU, (4 : RegIdx)) ∨ (ph, next, d) = (.deriveU, .generate, 5)) →
    RunningIn ph s → 1 ≤ s.p → s.hid.kpend = false → s.hid.krspRdy = true →
    s.hid.krsp.length = (bitlen s.p + 135) / 8 → (s.ctrl.redsel = true ∨ s.reg 3 ≠ 0) →
    ∃ t, exec .h2c s = .next t ∧ GoesOn next s t ∧ t.reg d = derivedValue s s.hid.krsp ∧
      OtherRegsKept d s t ∧ t.status.pv = s.status.pv ∧ t.hid = { s.hid with krsp := [], krspRdy := false } ∧ SameEnv s t

/-- A response of any other length, 0 among them, ends the command with code 2 and its saturated length in KLEN; the
destination is not written (R135). -/
def Obligations.WrongResponseLengthIsReported : Prop :=
  ∀ (s : State) (rd : RegIdx) (cnt : Byte), s.status.busy = true → s.hid.kpend = false → s.hid.krspRdy = true →
    s.hid.krsp.length ≠ (bitlen s.p + 135) / 8 →
    (s.status.state = .deriveT → s.cmdl = encode (.h2f rd cnt) →
      ∃ t, exec (.h2f rd cnt) s = .next t ∧
        WroteNone .kdfLengthMismatch .deriveT (BitVec.ofNat 16 (min s.hid.krsp.length 0xFFFF)) s t) ∧
    (s.status.state = .deriveT ∨ s.status.state = .deriveU → s.cmdl = encode .h2c →
      ∃ t, exec .h2c s = .next t ∧
        PointCleared .kdfLengthMismatch s.status.state (BitVec.ofNat 16 (min s.hid.krsp.length 0xFFFF)) s t)

/-- The KDF collaborator answers an outstanding request with its function of the request and of the bytes the descriptors
name, and clears KPEND; nothing else changes (R130, R131). -/
def Obligations.KdfAnswersWithItsFunction : Prop :=
  ∀ (s : State) (req : KdfRequest) (msg dst : List Byte), s.hid.kpend = true → s.hid.kdfReq = some req →
    s.env.touched = false → Memory.readBytes s.env.mem req.msgAddr.toNat req.msgLen.toNat = some msg →
    Memory.readBytes s.env.mem req.dstAddr.toNat req.dstLen.toNat = some dst →
    turn .kdf s = .next { s with hid := { s.hid with
      krsp := kdfFunction s.env.kdfBook req msg dst, krspRdy := true, kpend := false, kdfReq := none } }

/-! ## Candidates and self-check -/

/-- The GENERATE phase of CGEN and of H2C writes R152 to R157's values into FR6 to FR11 and nothing else; CGEN completes with
OK, H2C goes on to SELFCHECK (R158, R192). -/
def Obligations.GenerateWritesTheCandidates : Prop :=
  ∀ s : State, RunningIn .generate s → 2 ≤ s.p →
    (∃ t, exec .cgen s = .next t ∧ Completed .ok .idle 0 s t ∧ CandidatesWritten s t ∧ t.status.pv = s.status.pv ∧
      SameEnv s t) ∧
    (∃ t, exec .h2c s = .next t ∧ GoesOn .selfcheck s t ∧ CandidatesWritten s t ∧ t.status.pv = s.status.pv ∧
      t.hid = s.hid ∧ SameEnv s t) ∧
    fieldsOf (encode .cgen) = ⟨0x12, 0, 0, 0, 0, 0⟩

/-- SCHK completes with OK if the relation of R159 holds and with IAF_SELFCHECK if not, writing no field register (R160). -/
def Obligations.SelfcheckCommandReports : Prop :=
  ∀ s : State, RunningIn .selfcheck s → 1 ≤ s.p → s.cmdl = encode .schk →
    (SelfcheckHolds s → ∃ t, exec .schk s = .next t ∧ WroteNone .ok .idle 0 s t) ∧
    (¬ SelfcheckHolds s → ∃ t, exec .schk s = .next t ∧ WroteNone .iafSelfcheck .selfcheck 0 s t) ∧
    fieldsOf (encode .schk) = ⟨0x13, 0, 0, 0, 0, 0⟩

/-- H2C goes on to the SQRT phase if the relation holds; if not it completes with IAF_SELFCHECK and clears the point (R192, R193). -/
def Obligations.SelfcheckPhaseOfH2c : Prop :=
  ∀ s : State, RunningIn .selfcheck s → 1 ≤ s.p → s.cmdl = encode .h2c →
    (SelfcheckHolds s → ∃ t, exec .h2c s = .next t ∧ OnlyAdvanced .sqrt s t) ∧
    (¬ SelfcheckHolds s → ∃ t, exec .h2c s = .next t ∧ PointCleared .iafSelfcheck .selfcheck 0 s t)

/-- With X3F = 2, P an odd prime, a, b ≠ 0 and d ≠ 0, the SELFCHECK that follows GENERATE passes, for SCHK and for H2C (R161). -/
def Obligations.SelfcheckPassesWhenDenominatorNonzero : Prop :=
  ∀ s t u : State, RunningIn .generate s → s.ctrl.x3f = .identity → Nat.Prime s.p → s.p ≠ 2 →
    s.reg 1 % s.p ≠ 0 → s.reg 2 % s.p ≠ 0 →
    (let tt := s.reg 4 % s.p
     let g1 := specG s (s.reg 5 % s.p)
     (tt ^ 4 * g1 ^ 2 + tt ^ 2 * g1) % s.p ≠ 0) →
    exec .cgen s = .next t → RunningIn .selfcheck u → u.fr = t.fr →
    SelfcheckHolds u ∧ (∃ v, exec .schk u = .next v ∧ v.status.err = .ok) ∧
      ∃ v, exec .h2c u = .next v ∧ v.status.state = .sqrt

/-- With X3F = 2, P an odd prime and a, b ≠ 0: d = 0 exactly if t = 0, g1 = 0 or t²·g1 ≡ −1, and when d = 0 the SELFCHECK
that follows GENERATE passes if and only if g1 = 0 or g2 = 0; H2C reports code 3 when it does not pass (R162). -/
def Obligations.SelfcheckOnTheExceptionalSet : Prop :=
  ∀ s t u : State, RunningIn .generate s → s.ctrl.x3f = .identity → Nat.Prime s.p → s.p ≠ 2 →
    s.reg 1 % s.p ≠ 0 → s.reg 2 % s.p ≠ 0 →
    exec .cgen s = .next t → RunningIn .selfcheck u → u.fr = t.fr →
    let tt := s.reg 4 % s.p
    let g1 := specG s (s.reg 5 % s.p)
    let d := (tt ^ 4 * g1 ^ 2 + tt ^ 2 * g1) % s.p
    (d = 0 ↔ tt = 0 ∨ g1 = 0 ∨ tt ^ 2 * g1 % s.p = s.p - 1) ∧
    (d = 0 →
      (SelfcheckHolds u ↔ t.reg 7 = 0 ∨ t.reg 9 = 0) ∧
      (t.reg 7 ≠ 0 → t.reg 9 ≠ 0 → ∃ v, exec .h2c u = .next v ∧ v.status.err = .iafSelfcheck))

/-! ## The selector -/

/-- Each round of the SQRT phase issues (P, G_j mod P) for candidate j = 1, 2, 3 in that order, G1 = FR7, G2 = FR9, G3 = FR11;
while SQPEND = 1 the sequencer holds (R170, R178). -/
def Obligations.SqrtPhaseIssuesTheRequests : Prop :=
  ∀ (s : State) (i : Instr) (j : Nat), (i = .select ∨ i = .h2c) → RunningIn .sqrt s → 1 ≤ s.p → 1 ≤ j → j ≤ 3 →
    (s.hid.sqidx = BitVec.ofNat 2 j ∨ (s.hid.sqidx = 0 ∧ j = 1)) →
    (s.hid.sqpend = false → s.hid.sqrtAns = none →
      exec i s = .next { s with hid := { s.hid with
        sqidx := BitVec.ofNat 2 j
        sqpend := true
        sqrtReq := some ⟨s.p, s.reg (Fin.ofNat 16 (5 + 2 * j)) % s.p⟩ } }) ∧
    (s.hid.sqpend = true → exec i s = .next s)

/-- The answer for candidate j is stored as SQV[j] = valid and SQR[j] = r if valid, else 0; then the next candidate's round
begins, or after candidate 3 the SELECT phase (R173, R178). -/
def Obligations.SqrtPhaseStoresTheAnswers : Prop :=
  ∀ (s : State) (i : Instr) (j : Nat) (hj : j < 3) (valid : Bool) (r : FE), (i = .select ∨ i = .h2c) →
    RunningIn .sqrt s → s.hid.sqpend = false → s.hid.sqrtAns = some (valid, r) → s.hid.sqidx = BitVec.ofNat 2 (j + 1) →
    exec i s = .next { s with
      status := { s.status with state := if j = 2 then .select else .sqrt }
      hid := { s.hid with
        sqv := s.hid.sqv.set j valid
        sqr := s.hid.sqr.set j (if valid then r else 0)
        sqrtAns := none
        sqidx := if j = 2 then s.hid.sqidx else BitVec.ofNat 2 (j + 2) } }

/-- The SQRT collaborator keeps R171's contract for an odd prime P: valid if and only if v is a square, then r < P and
r² mod P = v, and under MIN r is the smaller root (R171, R172); nothing else of the block changes. -/
def Obligations.SqrtAnswerKeepsTheContract : Prop :=
  ∀ (s : State) (q : SqrtRequest), s.hid.sqpend = true → s.hid.sqrtReq = some q → Nat.Prime q.p → q.p ≠ 2 →
    q.v < q.p →
    ∃ t valid r, turn .sqrt s = .next t ∧
      t = { s with
        hid := { s.hid with sqpend := false, sqrtReq := none, sqrtAns := some (valid, r) }
        env := { s.env with draws := t.env.draws } } ∧
      (valid = true ↔ IsSquareMod q.p q.v) ∧
      (valid = true → r < q.p ∧ r ^ 2 % q.p = q.v ∧ (s.env.sqrtRoot = .min → 2 * r ≤ q.p))

/-- SELECT and H2C write candidate 1 if it is valid, else candidate 2, else candidate 3, set PV and complete with OK when
some candidate is valid (R176, R179, R181). The registers hold FW-bit values, as in every state the invariant admits. -/
def Obligations.SelectTakesTheLowestValidCandidate : Prop :=
  ∀ (s : State) (i : Instr), (i = .select ∨ i = .h2c) → RunningIn .select s → 1 ≤ s.p → s.Fits →
    (s.hid.sqv[0] = true ∨ s.hid.sqv[1] = true ∨ s.hid.sqv[2] = true) →
    ∃ t, exec i s = .next t ∧ Completed .ok .idle 0 s t ∧ t.status.pv = true ∧ SameEnv s t ∧
      (∀ j, j ≠ 12 → j ≠ 13 → t.reg j = s.reg j) ∧
      (s.hid.sqv[0] = true → t.reg 12 = s.reg 6 % s.p ∧ t.reg 13 = s.hid.sqr[0]) ∧
      (s.hid.sqv[0] = false → s.hid.sqv[1] = true →
        t.reg 12 = s.reg 8 % s.p ∧ t.reg 13 = s.hid.sqr[1]) ∧
      (s.hid.sqv[0] = false → s.hid.sqv[1] = false →
        t.reg 12 = s.reg 10 % s.p ∧ t.reg 13 = s.hid.sqr[2])

/-- With no valid candidate SELECT and H2C complete with IAF_NOSQRT in phase SELECT and FR12 = FR13 = 0, PV = 0 (R177). -/
def Obligations.SelectWithoutARootReports : Prop :=
  ∀ (s : State) (i : Instr), (i = .select ∨ i = .h2c) → RunningIn .select s → 1 ≤ s.p → s.cmdl = encode i →
    s.hid.sqv[0] = false → s.hid.sqv[1] = false → s.hid.sqv[2] = false →
    ∃ t, exec i s = .next t ∧ PointCleared .iafNosqrt .select 0 s t

/-- Runs that differ only in which candidates are valid and in the roots issue the same requests and move through the same
phases; in the SELECT step only FR12, FR13, PV, ERR and ERRINFO can differ (R180). -/
def Obligations.SelectorTraceIgnoresTheMasks : Prop :=
  ∀ (s s' : State) (i : Instr), (i = .select ∨ i = .h2c) → s.blankRoots = s'.blankRoots →
    (RunningIn .sqrt s → ∃ t t', exec i s = .next t ∧ exec i s' = .next t' ∧ t.blankRoots = t'.blankRoots) ∧
    (RunningIn .select s → ∃ t t', exec i s = .next t ∧ exec i s' = .next t' ∧
      t.status.busy = t'.status.busy ∧ t.status.state = t'.status.state ∧ t.status.done = t'.status.done ∧
      t.status.bwe = t'.status.bwe ∧ t.hid = t'.hid ∧ t.ctrl = t'.ctrl ∧ t.kdf = t'.kdf ∧ t.cmdl = t'.cmdl ∧ t.env = t'.env ∧
      ∀ j, j ≠ 12 → j ≠ 13 → t.reg j = t'.reg j)

/-- From the start of the SQRT phase, with P an odd prime and the self-check relation holding, SELECT and H2C reach the SELECT
phase after nine steps with a mask bit set, and complete with OK and PV = 1, not with IAF_NOSQRT, in the tenth (R183; the step
count and the empty schedule are the model's, entry 3). -/
def Obligations.PassingSelfcheckLeavesASquare : Prop :=
  ∀ (s : State) (i : Instr), (i = .select ∨ i = .h2c) → RunningIn .sqrt s → s.cmdl = encode i →
    s.hid = Hidden.cleared → s.env.schedule = [] → Nat.Prime s.p → s.p ≠ 2 → SelfcheckHolds s →
    ∃ u t, runSteps 9 s = .next u ∧ RunningIn .select u ∧
      (u.hid.sqv[0] = true ∨ u.hid.sqv[1] = true ∨ u.hid.sqv[2] = true) ∧
      exec i u = .next t ∧ runSteps 10 s = .next t ∧ Completed .ok .idle 0 s t ∧ t.status.pv = true

/-- From the start of the SQRT phase, with P an odd prime of FW bits and G_i = g(X_i mod P), SELECT and H2C complete in ten
steps: with a point on the curve, or with IAF_NOSQRT and no square among the G_i (R177, R182). -/
def Obligations.SelectReturnsACurvePoint : Prop :=
  ∀ (s : State) (i : Instr), (i = .select ∨ i = .h2c) → RunningIn .sqrt s → s.cmdl = encode i →
    s.hid = Hidden.cleared → s.env.schedule = [] → Nat.Prime s.p → s.p ≠ 2 → s.p < 2 ^ s.fw →
    s.reg 7 % s.p = specG s (s.reg 6 % s.p) →
    s.reg 9 % s.p = specG s (s.reg 8 % s.p) →
    s.reg 11 % s.p = specG s (s.reg 10 % s.p) →
    ∃ t, runSteps 10 s = .next t ∧ t.status.busy = false ∧
      ((t.status.err = .ok ∧ t.status.pv = true ∧ t.reg 12 < s.p ∧
          t.reg 13 ^ 2 % s.p = specG s (t.reg 12)) ∨
        (t.status.err = .iafNosqrt ∧ t.status.pv = false ∧ t.reg 12 = 0 ∧ t.reg 13 = 0 ∧
          ¬ IsSquareMod s.p (s.reg 7) ∧ ¬ IsSquareMod s.p (s.reg 9) ∧ ¬ IsSquareMod s.p (s.reg 11)))

/-! ## The pipeline -/

/-- H2C, just accepted, over an odd prime with a, b ≠ 0, readable buffers, two responses of length L and a passing self-check:
in 19 steps it completes with OK, T and U hold the reduced responses of counters 0 and 1, FR6 to FR11 the candidates, and
(FR12, FR13) is a point of the curve whose x is one of the candidates (R182, R183, R192). -/
def Obligations.H2cHashesToACurvePoint : Prop :=
  ∀ (s : State) (msg dst r0 r1 : List Byte),
    s.Inv → RunningIn .validate s → s.cmdl = encode .h2c → s.env.schedule = [] → s.env.touched = false →
    Nat.Prime s.p → s.p ≠ 2 → s.reg 1 % s.p ≠ 0 → s.reg 2 % s.p ≠ 0 →
    (s.ctrl.redsel = true ∨ s.reg 3 ≠ 0) →
    Memory.readBytes s.env.mem s.kdf.msgAddr.toNat s.kdf.msgLen.toNat = some msg →
    Memory.readBytes s.env.mem s.kdf.dstAddr.toNat s.kdf.dstLen.toNat = some dst →
    r0 = kdfFunction s.env.kdfBook (kdfRequest 0 s) msg dst → r1 = kdfFunction s.env.kdfBook (kdfRequest 1 s) msg dst →
    r0.length = outLen s.p → r1.length = outLen s.p →
    (let c := candidates s.ctrl.x3f s.p (s.fe 1) (s.fe 2) (derivedValue s r0) (derivedValue s r1)
     selfcheckLhs s.p (derivedValue s r0) c.g1 c.g2 = selfcheckRhs s.p c.g1 c.g2 c.g3) →
    ∃ t, runSteps 19 s = .next t ∧ Completed .ok .idle 0 s t ∧ t.status.pv = true ∧
      t.reg 4 = derivedValue s r0 ∧ t.reg 5 = derivedValue s r1 ∧
      (let c := candidates s.ctrl.x3f s.p (s.fe 1) (s.fe 2) (derivedValue s r0) (derivedValue s r1)
       t.reg 6 = c.x1 ∧ t.reg 7 = c.g1 ∧ t.reg 8 = c.x2 ∧ t.reg 9 = c.g2 ∧
       t.reg 10 = c.x3 ∧ t.reg 11 = c.g3 ∧
       (t.reg 12 = c.x1 ∨ t.reg 12 = c.x2 ∨ t.reg 12 = c.x3)) ∧
      t.reg 13 ^ 2 % s.p = specG s (t.reg 12)

/-- When a step ends SELECT or H2C, either ERR = 0 and PV = 1, or ERR ≠ 0, FR12 = FR13 = 0 and PV = 0 (R193, R213). -/
def Obligations.PointIsAllOrNothing : Prop :=
  ∀ s t : State, s.Inv → s.status.busy = true → latchedWritesPoint s = true → sequencerTurn s = .next t →
    t.status.busy = false →
    (t.status.err = .ok ∧ t.status.pv = true) ∨
      (t.status.err ≠ .ok ∧ t.reg 12 = 0 ∧ t.reg 13 = 0 ∧ t.status.pv = false)

/-- A step that ends any other command with an error writes no field register and leaves PV (R213, R218). -/
def Obligations.ErrorsOfOtherCommandsWriteNothing : Prop :=
  ∀ s t : State, s.Inv → s.status.busy = true → latchedWritesPoint s = false → sequencerTurn s = .next t →
    t.status.busy = false → t.status.err ≠ .ok → t.fr = s.fr ∧ t.status.pv = s.status.pv

/-- When a step ends a command, DONE is 1, STATE is 0, every hidden register of R41 to R44 is 0, and ERRINFO.EPHASE is the
phase that raised, 0 on OK; KLEN is 0 unless the code is 2 (R45, R212, R214). -/
def Obligations.CompletionLeavesTheRecord : Prop :=
  ∀ s t : State, s.status.busy = true → sequencerTurn s = .next t → t.status.busy = false →
    t.status.done = true ∧ t.status.state = .idle ∧ t.hid = Hidden.cleared ∧ t.cmdl = s.cmdl ∧
    t.errinfo.ephase = (if t.status.err = .ok then .idle else s.status.state) ∧
    (t.status.err ≠ .kdfLengthMismatch → t.errinfo.klen = 0)

/-! ## The window -/

/-- An access of another width or at an offset that is no multiple of 4 gets the error response and changes nothing (R62). -/
def Obligations.BadAccessChangesNothing : Prop :=
  ∀ (s : State) (width : AccessWidth) (off : Offset) (v : Word), (width ≠ .w32 ∨ off.toNat % 4 ≠ 0) →
    hostOp (.read width off) s = .next { s with env := { s.env with bus := .error } } ∧
    hostOp (.write width off v) s = .next { s with env := { s.env with bus := .error } }

/-- Reserved offsets read 0 and ignore writes: 0x030 to 0x3FF, 0xC00 to 0xFFF and the words k ≥ NW of every FR; a write of the
last kind while BUSY = 1 sets BWE (R28, R48, R63). -/
def Obligations.ReservedOffsetsReadZero : Prop :=
  ∀ (s : State) (off : Offset) (v : Word), off.toNat % 4 = 0 →
    (((0x030 ≤ off.toNat ∧ off.toNat < 0x400) ∨ 0xC00 ≤ off.toNat) →
      hostOp (.read .w32 off) s = .next { s with env := { s.env with bus := .data 0 } } ∧
      hostOp (.write .w32 off v) s = .next { s with env := { s.env with bus := .ack } }) ∧
    (∀ (i : RegIdx) (k : Nat), s.nw ≤ k → k < 32 → off.toNat = 0x400 + 0x80 * i.val + 4 * k →
      hostOp (.read .w32 off) s = .next { s with env := { s.env with bus := .data 0 } } ∧
      hostOp (.write .w32 off v) s =
        .next { s with
          status := { s.status with bwe := if s.status.busy then true else s.status.bwe }
          env := { s.env with bus := .ack } })

/-- Every register below 0x030 reads, BUSY or not, the word whose bits R22 to R26, R31 to R34, R36, R37 and R211 name, field
by field with the numbers of the phases, of the status codes and of the x3 forms, and a read changes nothing. PBITS is the
bit length of an FW-bit FR[0], as the invariant says it is. -/
def Obligations.RegisterReads : Prop :=
  ∀ s : State, ∃ cfg ctrl status pbits errinfo : Word,
    (∀ (off : Offset) (v : Word),
      (off, v) ∈ [((0x000 : Offset), (0x48324301 : Word)), (0x004, cfg), (0x008, ctrl), (0x00C, 0), (0x010, status),
        (0x014, s.kdf.hashId), (0x018, s.kdf.msgAddr), (0x01C, s.kdf.msgLen), (0x020, s.kdf.dstAddr),
        (0x024, s.kdf.dstLen), (0x028, pbits), (0x02C, errinfo)] →
      hostOp (.read .w32 off) s = .next { s with env := { s.env with bus := .data v } }) ∧
    (cfg.extractLsb' 0 16).toNat = s.fw ∧ cfg.extractLsb' 16 8 = 128 ∧ cfg.extractLsb' 24 8 = 0 ∧
    (s.ctrl.x3f, ctrl.extractLsb' 0 2) ∈ [(X3Form.code, 0), (.comment, 1), (.identity, 2)] ∧
    ctrl.getLsbD 2 = s.ctrl.redsel ∧ ctrl.getLsbD 3 = s.ctrl.ie ∧ ctrl.extractLsb' 4 28 = 0 ∧
    status.getLsbD 0 = s.status.busy ∧ status.getLsbD 1 = s.status.done ∧ status.getLsbD 2 = s.status.pv ∧
    status.getLsbD 3 = s.status.bwe ∧
    (s.status.err, status.extractLsb' 4 4) ∈ [(StatusCode.ok, 0), (.unsupportedCurve, 1), (.kdfLengthMismatch, 2),
      (.iafSelfcheck, 3), (.iafNosqrt, 4), (.illegalCommand, 5)] ∧
    (let phaseNumbers : List (Phase × BitVec 4) := [(.idle, 0), (.validate, 1), (.deriveT, 2), (.deriveU, 3),
        (.generate, 4), (.selfcheck, 5), (.sqrt, 6), (.select, 7), (.exec, 8)]
     (s.status.state, status.extractLsb' 8 4) ∈ phaseNumbers ∧
       (s.errinfo.ephase, errinfo.extractLsb' 0 4) ∈ phaseNumbers) ∧
    status.extractLsb' 12 20 = 0 ∧ errinfo.extractLsb' 4 12 = 0 ∧ errinfo.extractLsb' 16 16 = s.errinfo.klen ∧
    (s.Fits → (pbits.extractLsb' 0 16).toNat = bitlen s.p) ∧ pbits.extractLsb' 16 16 = 0

/-- A write of word k of FR[i] while BUSY = 0 reads back, leaves every other word of every register and clears PV exactly
for FR12 and FR13 (R28, R29, R30). -/
def Obligations.FieldRegisterWordWriteReadsBack : Prop :=
  ∀ (s : State) (i : RegIdx) (k : Nat) (v : Word), k < s.nw → s.status.busy = false →
    ∃ t, hostOp (.write .w32 (frOffset i k) v) s = .next t ∧
      t = { s with fr := t.fr, status := { s.status with pv := t.status.pv }, env := { s.env with bus := .ack } } ∧
      PvAfterWrite i s t ∧ OtherRegsKept i s t ∧
      (∀ l, l < 32 → getWord l (t.reg i) = if l = k then v else getWord l (s.reg i)) ∧
      hostOp (.read .w32 (frOffset i k)) t = .next { t with env := { t.env with bus := .data v } }

/-- The value of FR[i], of FW bits as the invariant says, is the sum of word_k · 2^(32k) over its NW words (R65). -/
def Obligations.FieldRegisterValueIsTheSumOfItsWords : Prop :=
  ∀ (s : State) (i : RegIdx), s.reg i < 2 ^ s.fw →
    s.reg i = ∑ k ∈ Finset.range s.nw, (getWord k (s.reg i)).toNat * 2 ^ (32 * k)

/-- A write of CTRL stores X3F unless its bits are 0b11, which leave X3F unchanged, and stores REDSEL and IE; reserved bits
read 0; X3F never reads 3 (R24, R25). -/
def Obligations.ControlWriteReadsBack : Prop :=
  ∀ (s : State) (v : Word), s.status.busy = false →
    ∃ t, hostOp (.write .w32 0x008 v) s = .next t ∧
      t = { s with ctrl := t.ctrl, env := { s.env with bus := .ack } } ∧
      (ctrlWord t.ctrl).extractLsb' 0 2 =
        (if v.extractLsb' 0 2 = 3 then (ctrlWord s.ctrl).extractLsb' 0 2 else v.extractLsb' 0 2) ∧
      (ctrlWord t.ctrl).extractLsb' 2 2 = v.extractLsb' 2 2 ∧ (ctrlWord t.ctrl).extractLsb' 4 28 = 0 ∧
      (ctrlWord t.ctrl).extractLsb' 0 2 ≠ 3

/-- A write of STATUS, BUSY or not, clears DONE where v[1] = 1 and BWE where v[3] = 1 and does nothing else; a read of it
changes nothing (R35). -/
def Obligations.StatusWriteClearsDoneAndBwe : Prop :=
  ∀ (s : State) (v : Word),
    hostOp (.write .w32 0x010 v) s = .next { s with
      status := { s.status with
        done := if v.getLsbD 1 then false else s.status.done
        bwe := if v.getLsbD 3 then false else s.status.bwe }
      env := { s.env with bus := .ack } } ∧
    hostOp (.read .w32 0x010) s = .next { s with env := { s.env with bus := .data (statusWord s.status) } }

/-- While BUSY = 1 a write of CTRL, CMD, HASH_ID, a descriptor or any word of an FR window, the reserved ones too, is refused:
BWE is set and nothing else of the block changes. A write of STATUS, of a read-only register or of a reserved offset
outside the FR windows never sets BWE (R48). -/
def Obligations.WritesWhileBusyAreRefused : Prop :=
  ∀ (s : State) (off : Offset) (v : Word), s.status.busy = true → off.toNat % 4 = 0 →
    ((off ∈ [(0x008 : Offset), 0x00C, 0x014, 0x018, 0x01C, 0x020, 0x024] ∨ (0x400 ≤ off.toNat ∧ off.toNat < 0xC00)) →
      hostOp (.write .w32 off v) s = .next { s with
        status := { s.status with bwe := true }
        env := { s.env with bus := .ack } }) ∧
    ((off ∈ [(0x000 : Offset), 0x004, 0x010, 0x028, 0x02C] ∨ (0x030 ≤ off.toNat ∧ off.toNat < 0x400) ∨
        0xC00 ≤ off.toNat) →
      ∃ t, hostOp (.write .w32 off v) s = .next t ∧ (t.status.bwe = true → s.status.bwe = true))

/-- While BUSY = 0 a write of HASH_ID or a descriptor stores the value (R31, R32), and writes of the read-only registers are
ignored, BUSY or not (R21). -/
def Obligations.DescriptorWritesStore : Prop :=
  ∀ (s : State) (v : Word),
    (s.status.busy = false →
      ∀ off k, (off, k) ∈ [((0x014 : Offset), { s.kdf with hashId := v }), (0x018, { s.kdf with msgAddr := v }),
        (0x01C, { s.kdf with msgLen := v }), (0x020, { s.kdf with dstAddr := v }), (0x024, { s.kdf with dstLen := v })] →
      hostOp (.write .w32 off v) s = .next { s with kdf := k, env := { s.env with bus := .ack } }) ∧
    ∀ off ∈ [(0x000 : Offset), 0x004, 0x028, 0x02C],
      hostOp (.write .w32 off v) s = .next { s with env := { s.env with bus := .ack } }

/-- Reading any offset at any width changes no state of the block; only the bus response and the model's own counter move (R69). -/
def Obligations.ReadsChangeNothing : Prop :=
  ∀ (s : State) (width : AccessWidth) (off : Offset), ∃ r n,
    hostOp (.read width off) s = .next { s with env := { s.env with bus := r, draws := n } }

/-- No hidden register is readable or writable through the window: two states that differ only in hidden registers and CMDL
answer every read with the same data, and no write changes a hidden register, but for CMDL by a CMD write (R40, R46). -/
def Obligations.WindowDoesNotReachHiddenState : Prop :=
  ∀ (s : State) (h : Hidden) (c : Word) (width : AccessWidth) (off : Offset),
    (busRead width off { s with hid := h, cmdl := c }).env.bus = (busRead width off s).env.bus ∧
    ∀ (v : Word) (t : State), busWrite width off v s = .next t → t.hid = s.hid ∧ (off ≠ 0x00C → t.cmdl = s.cmdl)

/-- While a command runs, no turn of the host or of a collaborator changes FR, CTRL, HASH_ID, the descriptors or CMDL (R49, R77). -/
def Obligations.OperandsAreStableWhileBusy : Prop :=
  ∀ (s t : State) (a : Agent), s.status.busy = true → (a = .host ∨ a = .kdf ∨ a = .sqrt) → turn a s = .next t →
    t.fr = s.fr ∧ t.ctrl = s.ctrl ∧ t.kdf = s.kdf ∧ t.cmdl = s.cmdl ∧ t.status.busy = true ∧
    t.status.state = s.status.state

/-- IRQ is DONE and IE: it is raised by a completion when IE = 1 and falls when DONE is cleared by a STATUS write, when a
command that runs phases is accepted, or when IE is written 0 (R38, R219). -/
def Obligations.InterruptFollowsDoneAndIe : Prop :=
  (∀ (s : State) (c : StatusCode), (complete c s).irq = s.ctrl.ie ∧ (completeImmediate c s).irq = s.ctrl.ie) ∧
  (∀ s t : State, hostOp (.write .w32 0x010 0x00000002) s = .next t → t.irq = false) ∧
  (∀ (s t : State) (i : Instr), s.status.busy = false → i ≠ .nop → exec i s = .next t → t.irq = false) ∧
  ∀ (s t : State) (v : Word), s.status.busy = false → v.getLsbD 3 = false → hostOp (.write .w32 0x008 v) s = .next t →
    t.irq = false

/-- A byte the host stores in its own memory reads back, every other byte stays, and nothing of the block changes; the
canonical form is kept; a store while idle, or of the value the byte has, makes no KDF answer a draw (R78, R200; the
platform's memory and the flag are the model's, entries 11 and 12). -/
def Obligations.HostBytesReadBack : Prop :=
  ∀ (s : State) (addr : Word) (b : Byte), s.env.mem.wf = true →
    ∃ t, hostOp (.bufWrite addr b) s = .next t ∧
      t = { s with env := { s.env with mem := t.env.mem, touched := t.env.touched } } ∧
      (s.status.busy = false ∨ s.env.mem.read addr.toNat = some b → t.env.touched = s.env.touched) ∧
      t.env.mem.read addr.toNat = some b ∧ (∀ a, a ≠ addr.toNat → t.env.mem.read a = s.env.mem.read a) ∧
      t.env.mem.wf = true
end

