-- ==== Sys2Proof/Laws/Arith.lean ====
section
/-! SUPPORT. The arithmetic helpers: fast powers, results that fit, bit lengths, words and limbs. -/

namespace Sys2Proof.Machine

/-- Square-and-multiply computes the power (R104). -/
theorem powModAux_eq (n b e m : Nat) (h : e < 2 ^ n) : powModAux n b e m = b ^ e % m := by
  induction n generalizing b e with
  | zero =>
      have he : e = 0 := by simpa using h
      simp [powModAux, he]
  | succ n ih =>
      have hlt : e / 2 < 2 ^ n := by rw [pow_succ] at h; omega
      have hhalf : powModAux n (b * b % m) (e / 2) m = b ^ (2 * (e / 2)) % m := by
        rw [ih _ _ hlt, ← Nat.pow_mod, ← pow_two, ← pow_mul]
      simp only [powModAux, hhalf]
      split
      · rename_i hodd
        rw [Nat.mul_mod, Nat.mod_mod, ← Nat.mul_mod, ← pow_succ']
        congr 2; omega
      · congr 2; omega

/-- `powMod` is the power. -/
theorem powMod_eq (b e m : Nat) : powMod b e m = b ^ e % m :=
  powModAux_eq _ b e m Nat.lt_log2_self

/-- inv(z) = z^(P−2) mod P for P ≥ 3 (R104). -/
theorem inv_eq (p z : Nat) (hp : 3 ≤ p) : inv p z = z ^ (p - 2) % p := by
  unfold inv
  split
  · subst z; rw [Nat.zero_pow (by omega), Nat.zero_mod]
  · exact powMod_eq _ _ _

theorem inv_zero (p : Nat) : inv p 0 = 0 := by simp [inv]

theorem powModAux_lt (n b e m : Nat) (h : 0 < m) : powModAux n b e m < m := by
  induction n generalizing b e with
  | zero => exact Nat.mod_lt _ h
  | succ n ih =>
      simp only [powModAux]
      split
      · exact Nat.mod_lt _ h
      · exact ih _ _

theorem inv_lt (p z : Nat) (h : 0 < p) : inv p z < p := by
  unfold inv
  split
  · exact h
  · exact powModAux_lt _ _ _ _ h

theorem curvePoly_lt (p a b x : Nat) (h : 0 < p) : curvePoly p a b x < p :=
  Nat.mod_lt _ h

theorem State.fw_eq (s : State) : s.fw = 32 * s.nw := rfl

/-- A free register value is an FW-bit value (R15). -/
theorem drawFE_lt (s : State) : s.drawFE < 2 ^ s.fw :=
  Nat.mod_lt _ (Nat.two_pow_pos _)

theorem State.fe_lt (s : State) (i : RegIdx) (h : 0 < s.p) : s.fe i < s.p :=
  Nat.mod_lt _ h

/-- The bit length of an FW-bit value is at most FW (R33, R134). -/
theorem bitlen_le {v n : Nat} (h : v < 2 ^ n) : bitlen v ≤ n := by
  unfold bitlen
  split
  · omega
  · have := (Nat.log2_lt (by assumption)).2 h
    omega

/-- L ≤ LMAX (R134). -/
theorem outLen_le_lmax {s : State} (hp : s.p < 2 ^ s.fw) : outLen s.p ≤ s.env.fw.lmax := by
  have h := bitlen_le hp
  unfold State.fw at h
  unfold outLen FieldWidth.lmax Config.margin
  omega

theorem beValue_append (bs : List Byte) (b : Byte) : beValue (bs ++ [b]) = beValue bs * 256 + b.toNat := by
  simp [beValue, List.foldl_append]

/-- v < 2^(8L) (R136). -/
theorem beValue_lt (bs : List Byte) : beValue bs < 256 ^ bs.length := by
  induction bs using List.reverseRecOn with
  | nil => simp [beValue]
  | append_singleton bs b ih =>
      rw [beValue_append, List.length_append, List.length_singleton, pow_succ]
      have := b.isLt
      omega

/-! ### Words and limbs (R28, R65, R175) -/

theorem blendLimb_eq (m : Bool) (c q : Word) : blendLimb m c q = if m then c else q := by
  have h : (0xFFFFFFFF : Word) = BitVec.allOnes 32 := by decide
  cases m <;> simp [blendLimb, h, BitVec.and_allOnes, -BitVec.reduceAllOnes, -BitVec.ofNat_eq_ofNat]

theorem valueOfWords_wordsOf_aux (x n : Nat) :
    valueOfWords ((List.range n).map fun k => BitVec.ofNat 32 (x >>> (32 * k))) = x % 2 ^ (32 * n) := by
  induction n generalizing x with
  | zero => simp [valueOfWords, Nat.mod_one]
  | succ n ih =>
      rw [List.range_succ_eq_map, List.map_cons, List.map_map]
      have hshift : ((fun k => BitVec.ofNat 32 (x >>> (32 * k))) ∘ Nat.succ)
          = fun k => BitVec.ofNat 32 ((x >>> 32) >>> (32 * k)) := by
        funext k
        simp only [Function.comp, ← Nat.shiftRight_add]
        congr 2; omega
      rw [hshift]
      have hcons : ∀ (w : Word) ws, valueOfWords (w :: ws) = w.toNat + 2 ^ 32 * valueOfWords ws := fun _ _ => rfl
      rw [hcons, ih]
      simp only [Nat.shiftRight_eq_div_pow, Nat.mul_zero, Nat.pow_zero, Nat.div_one, BitVec.toNat_ofNat]
      rw [show 32 * (n + 1) = 32 + 32 * n by omega, pow_add, Nat.mod_mul]

/-- The first n words of a value are the value mod 2^(32n) (R65). -/
theorem valueOfWords_wordsOf (n : Nat) (x : FE) : valueOfWords (wordsOf n x) = x % 2 ^ (32 * n) :=
  valueOfWords_wordsOf_aux x n

/-- The limb-wise blend is a choice between the two values, cut to its limbs (R175). -/
theorem blend_eq (n : Nat) (m : Bool) (c q : FE) : blend n m c q = (if m then c else q) % 2 ^ (32 * n) := by
  unfold blend
  rw [← valueOfWords_wordsOf]
  cases m <;> simp [blendLimb_eq, wordsOf]

/-- On FW-bit values the blend of a pair is a choice between the two pairs (R175). -/
theorem blendPair_eq {s : State} (m : Bool) {c q : FE × FE} (hc : c.1 < 2 ^ s.fw ∧ c.2 < 2 ^ s.fw)
    (hq : q.1 < 2 ^ s.fw ∧ q.2 < 2 ^ s.fw) : blendPair s.nw m c q = if m then c else q := by
  rw [s.fw_eq] at hc hq
  cases m <;> simp [blendPair, blend_eq, Nat.mod_eq_of_lt, hc, hq]

/-- A blend over NW limbs is an FW-bit value. -/
theorem blend_lt (s : State) (m : Bool) (c q : FE) : blend s.nw m c q < 2 ^ s.fw := by
  rw [blend_eq, ← s.fw_eq]
  exact Nat.mod_lt _ (Nat.two_pow_pos _)

/-- Word k as quotient and remainder (R28). -/
theorem getWord_toNat (k : Nat) (x : FE) : (getWord k x).toNat = x / 2 ^ (32 * k) % 2 ^ 32 := by
  rw [getWord, BitVec.toNat_ofNat, Nat.shiftRight_eq_div_pow]

/-- The words below word k, word k and the words above it make up a value. -/
theorem words_split (k : Nat) (x : Nat) :
    x % 2 ^ (32 * k) + 2 ^ (32 * k) * (getWord k x).toNat + 2 ^ (32 * (k + 1)) * (x / 2 ^ (32 * (k + 1))) = x := by
  rw [getWord_toNat, ← Nat.mod_mul, show 32 * (k + 1) = 32 * k + 32 by omega, pow_add]
  exact Nat.mod_add_div _ _

/-- A remainder and a digit make less than the next power. -/
theorem add_mul_lt {lo b v w : Nat} (hlo : lo < b) (hv : v < w) : lo + b * v < b * w :=
  calc lo + b * v < b + b * v := Nat.add_lt_add_right hlo _
    _ = b * (v + 1) := by rw [Nat.mul_add_one, Nat.add_comm]
    _ ≤ b * w := Nat.mul_le_mul_left _ hv

/-- Digit l of a number put together around digit k, in any base. -/
theorem digit_compose (b k l lo v hi : Nat) (hb : 0 < b) (hlo : lo < b ^ k) (hv : v < b) :
    (lo + b ^ k * v + b ^ (k + 1) * hi) / b ^ l % b =
      if l < k then lo / b ^ l % b else if l = k then v else hi / b ^ (l - (k + 1)) % b := by
  split
  · rename_i h
    obtain ⟨d, rfl⟩ := Nat.exists_eq_add_of_lt h
    rw [show lo + b ^ (l + d + 1) * v + b ^ (l + d + 1 + 1) * hi = lo + b ^ l * (b * (b ^ d * v + b ^ d * b * hi)) by ring,
      Nat.add_mul_div_left _ _ (Nat.pow_pos hb), Nat.add_mul_mod_self_left]
  · split
    · subst l
      rw [show lo + b ^ k * v + b ^ (k + 1) * hi = lo + b ^ k * (v + b * hi) by ring,
        Nat.add_mul_div_left _ _ (Nat.pow_pos hb), Nat.div_eq_of_lt hlo, Nat.zero_add, Nat.add_mul_mod_self_left,
        Nat.mod_eq_of_lt hv]
    · obtain ⟨d, rfl⟩ := Nat.exists_eq_add_of_le (show k + 1 ≤ l by omega)
      rw [Nat.add_sub_cancel_left, pow_add b (k + 1), ← Nat.div_div_eq_div_mul, Nat.add_mul_div_left _ _ (Nat.pow_pos hb),
        Nat.div_eq_of_lt (show lo + b ^ k * v < b ^ (k + 1) by rw [pow_succ]; exact add_mul_lt hlo hv), Nat.zero_add]

/-- Word l of a value put together around word k. -/
theorem getWord_compose (k l lo hi : Nat) (v : Word) (hlo : lo < 2 ^ (32 * k)) :
    getWord l (lo + 2 ^ (32 * k) * v.toNat + 2 ^ (32 * (k + 1)) * hi) =
      if l < k then getWord l lo else if l = k then v else getWord (l - (k + 1)) hi := by
  apply BitVec.eq_of_toNat_eq
  rw [apply_ite BitVec.toNat, apply_ite BitVec.toNat]
  simp only [getWord_toNat, Nat.pow_mul] at hlo ⊢
  exact digit_compose (2 ^ 32) k l lo v.toNat hi (Nat.two_pow_pos _) hlo v.isLt

/-- Word l after a write of word k (R29, R30). -/
theorem getWord_setWord (k l : Nat) (v : Word) (x : FE) :
    getWord l (setWord k v x) = if l = k then v else getWord l x := by
  have h := fun w => getWord_compose k l (x % 2 ^ (32 * k)) (x / 2 ^ (32 * (k + 1))) w (Nat.mod_lt _ (Nat.two_pow_pos _))
  have hx := h (getWord k x)
  rw [words_split] at hx
  rw [setWord, h v, hx]
  split
  · rename_i hl; rw [if_neg (by omega)]
  · split <;> rfl

/-- A write of one of the NW words leaves an FW-bit value (R29). -/
theorem setWord_lt {s : State} {k : Nat} (v : Word) {x : FE} (hk : k < s.nw) (hx : x < 2 ^ s.fw) :
    setWord k v x < 2 ^ s.fw := by
  obtain ⟨d, hd⟩ := Nat.exists_eq_add_of_le (show k + 1 ≤ s.nw from hk)
  rw [s.fw_eq, hd, show 32 * (k + 1 + d) = 32 * (k + 1) + 32 * d by ring, pow_add] at hx ⊢
  have hhi : x / 2 ^ (32 * (k + 1)) < 2 ^ (32 * d) := Nat.div_lt_of_lt_mul hx
  have hlo : x % 2 ^ (32 * k) < 2 ^ (32 * k) := Nat.mod_lt _ (Nat.two_pow_pos _)
  have hlow : x % 2 ^ (32 * k) + 2 ^ (32 * k) * v.toNat < 2 ^ (32 * (k + 1)) := by
    rw [Nat.mul_add_one, pow_add]; exact add_mul_lt hlo v.isLt
  exact add_mul_lt hlow hhi

end Sys2Proof.Machine
end

