-- ==== Sys2Proof/Laws/Decode.lean ====
section
/-! SUPPORT. Fields and words are inverse to each other (R81), opcodes and operations are (R84), and a row's mask and match
say what the decoder's checks say (R84, R86). -/

namespace Sys2Proof

theorem Op.ofCode_code (o : Op) : Op.ofCode o.code = some o := by
  cases o <;> decide

theorem Op.code_of_ofCode {c : Nat} {o : Op} (h : Op.ofCode c = some o) : o.code = c := by
  have := List.find?_some h
  simpa using this

theorem Op.code_injective {o o' : Op} (h : o.code = o'.code) : o = o' := by
  have := Op.ofCode_code o
  rw [h, Op.ofCode_code] at this
  exact (Option.some.inj this).symm

/-- The width check as bounds (R81 to R83). -/
theorem CmdFields.widthsOk_iff (f : CmdFields) :
    f.widthsOk = true ↔
      f.opc < 256 ∧ f.rd < 16 ∧ f.rs1 < 16 ∧ f.rs2 < 16 ∧ f.rsv < 16 ∧ f.cnt < 256 := by
  simp [CmdFields.widthsOk, and_assoc]

/-- A field of a word as a quotient and a remainder of its number (R12, R81). -/
theorem toNat_field (w : Word) (lo len : Nat) : (w.extractLsb' lo len).toNat = w.toNat / 2 ^ lo % 2 ^ len := by
  rw [BitVec.extractLsb'_toNat, Nat.shiftRight_eq_div_pow]

/-- The six fields of a word built from fields that fit (R81). -/
theorem fieldsOf_toWord {f : CmdFields} (h : f.widthsOk = true) : fieldsOf f.toWord = f := by
  rw [CmdFields.widthsOk_iff] at h
  cases f
  simp only at h
  simp only [fieldsOf, toNat_field, CmdFields.toWord, BitVec.toNat_ofNat, CmdFields.mk.injEq]
  omega

theorem fieldsOf_widthsOk (w : Word) : (fieldsOf w).widthsOk = true := by
  rw [CmdFields.widthsOk_iff]
  simp only [fieldsOf, toNat_field]
  omega

/-- A word is the word of its fields (R81). -/
theorem toWord_fieldsOf (w : Word) : (fieldsOf w).toWord = w := by
  apply BitVec.eq_of_toNat_eq
  have := w.isLt
  simp only [fieldsOf, toNat_field, CmdFields.toWord, BitVec.toNat_ofNat]
  omega

/-- Every command's fields fit (R82, R83). -/
theorem Instr.fields_widthsOk (i : Instr) : i.fields.widthsOk = true := by
  rw [CmdFields.widthsOk_iff]
  cases i <;> simp [Instr.fields, Op.code]
  exact BitVec.isLt _

/-- The fields of a command's word (R81, R90). -/
theorem fieldsOf_encode (i : Instr) : fieldsOf (encode i) = i.fields :=
  fieldsOf_toWord i.fields_widthsOk

theorem Instr.fields_opc (i : Instr) : i.fields.opc = i.op.code := by
  cases i <;> rfl

/-- Words with the same fields are equal (R81). -/
theorem word_eq_of_fields {v w : Word} (h : fieldsOf v = fieldsOf w) : v = w := by
  rw [← toWord_fieldsOf v, h, toWord_fieldsOf]

/-- Mask and match select a row exactly when the opcode is the row's and every field it does not use is 0 (R84, R86). -/
theorem Op.selectedBy_iff (o : Op) (w : Word) :
    o.selectedBy w = true ↔ (fieldsOf w).opc = o.code ∧ (fieldsOf w).unusedOk o = true := by
  have key : o.selectedBy w = true ↔ fieldsOf (w &&& o.mask) = fieldsOf o.matchWord := by
    rw [Op.selectedBy, beq_iff_eq]
    exact ⟨fun h => by rw [h], word_eq_of_fields⟩
  rw [key]
  have ones4 : ∀ x : BitVec 4, x &&& 15#4 = x := by decide
  have ones8 : ∀ x : BitVec 8, x &&& 255#8 = x := by decide
  cases o <;>
    simp [fieldsOf, Op.mask, Op.matchWord, Op.code, CmdFields.unusedOk, Op.uses, BitVec.extractLsb'_and, ones4, ones8,
      and_assoc]

/-- A row is selected only by words with its opcode (R89). -/
theorem Op.code_of_selected {o : Op} {w : Word} (h : o.selectedBy w = true) : (fieldsOf w).opc = o.code :=
  ((o.selectedBy_iff w).1 h).1

/-- A word selects at most one row (R89). -/
theorem Op.selected_unique {o o' : Op} {w : Word} (h : o.selectedBy w = true) (h' : o'.selectedBy w = true) : o = o' :=
  Op.code_injective ((Op.code_of_selected h).symm.trans (Op.code_of_selected h'))

end Sys2Proof
end

