-- ==== Sys2Proof/Laws/Memory.lean ====
section
/-! SUPPORT. The platform's bytes: reads after writes, and every operation keeps the canonical form. -/

namespace Sys2Proof.Machine

theorem Memory.risesFrom_mono {lo lo' : Nat} {m : Memory} (h : lo' ≤ lo) (hm : Memory.risesFrom lo m = true) :
    Memory.risesFrom lo' m = true := by
  cases m with
  | nil => rfl
  | cons c rest =>
      simp only [Memory.risesFrom, Bool.and_eq_true, decide_eq_true_eq] at hm ⊢
      exact ⟨by omega, hm.2⟩

theorem Memory.risesFrom_write {lo : Nat} {m : Memory} {x : Nat} {v : Byte} (h : lo ≤ x)
    (hm : Memory.risesFrom lo m = true) : Memory.risesFrom lo (m.write x v) = true := by
  induction m generalizing lo with
  | nil => simp [Memory.write, Memory.risesFrom, h]
  | cons c rest ih =>
      obtain ⟨a, b⟩ := c
      simp only [Memory.risesFrom, Bool.and_eq_true, decide_eq_true_eq] at hm
      simp only [Memory.write]
      split
      · simp only [Memory.risesFrom, Bool.and_eq_true, decide_eq_true_eq]
        exact ⟨h, by omega, hm.2⟩
      · split
        · subst x
          simpa [Memory.risesFrom] using hm
        · simp only [Memory.risesFrom, Bool.and_eq_true, decide_eq_true_eq]
          exact ⟨hm.1, ih (by omega) hm.2⟩

theorem Memory.risesFrom_drop {lo : Nat} {m : Memory} {x : Nat} (hm : Memory.risesFrom lo m = true) :
    Memory.risesFrom lo (m.drop x) = true := by
  induction m generalizing lo with
  | nil => rfl
  | cons c rest ih =>
      obtain ⟨a, b⟩ := c
      simp only [Memory.risesFrom, Bool.and_eq_true, decide_eq_true_eq] at hm
      simp only [Memory.drop]
      split
      · exact Memory.risesFrom_mono (by omega) hm.2
      · simp only [Memory.risesFrom, Bool.and_eq_true, decide_eq_true_eq]
        exact ⟨hm.1, ih hm.2⟩

/-- A store keeps the canonical form. -/
theorem Memory.wf_write {m : Memory} (x : Nat) (v : Byte) (h : m.wf = true) : (m.write x v).wf = true :=
  Memory.risesFrom_write (Nat.zero_le x) h

/-- A removal keeps the canonical form. -/
theorem Memory.wf_drop {m : Memory} (x : Nat) (h : m.wf = true) : Memory.wf (m.drop x) = true :=
  Memory.risesFrom_drop h

/-- An address below the bound is not listed. -/
theorem Memory.read_of_lt {lo x : Nat} {m : Memory} (hx : x < lo) (hm : Memory.risesFrom lo m = true) :
    m.read x = none := by
  induction m generalizing lo with
  | nil => rfl
  | cons c rest ih =>
      obtain ⟨a, b⟩ := c
      simp only [Memory.risesFrom, Bool.and_eq_true, decide_eq_true_eq] at hm
      simp only [Memory.read]
      rw [if_neg (by omega)]
      exact ih (by omega) hm.2

/-- A byte stored reads back. -/
theorem Memory.read_write_same (m : Memory) (x : Nat) (v : Byte) : (m.write x v).read x = some v := by
  induction m with
  | nil => simp [Memory.write, Memory.read]
  | cons c rest ih =>
      obtain ⟨a, b⟩ := c
      simp only [Memory.write]
      split
      · simp [Memory.read]
      · split
        · simp [Memory.read]
        · simp only [Memory.read]
          rw [if_neg (by omega), ih]

/-- A store leaves every other address alone. -/
theorem Memory.read_write_other (m : Memory) {x y : Nat} (v : Byte) (h : y ≠ x) :
    (m.write x v).read y = m.read y := by
  induction m with
  | nil => simp [Memory.write, Memory.read]; omega
  | cons c rest ih =>
      obtain ⟨a, b⟩ := c
      simp only [Memory.write]
      split
      · simp only [Memory.read]
        rw [if_neg (by omega)]
      · split
        · subst x
          simp only [Memory.read]
          rw [if_neg (by omega), if_neg (by omega)]
        · simp only [Memory.read, ih]

/-- A removed byte has no value, in canonical form. -/
theorem Memory.read_drop_same {lo : Nat} {m : Memory} (x : Nat) (hm : Memory.risesFrom lo m = true) :
    Memory.read (m.drop x) x = none := by
  induction m generalizing lo with
  | nil => rfl
  | cons c rest ih =>
      obtain ⟨a, b⟩ := c
      simp only [Memory.risesFrom, Bool.and_eq_true, decide_eq_true_eq] at hm
      simp only [Memory.drop]
      split
      · exact Memory.read_of_lt (by omega) hm.2
      · simp only [Memory.read]
        rw [if_neg (by assumption), ih hm.2]

/-- A removal leaves every other address alone. -/
theorem Memory.read_drop_other (m : Memory) {x y : Nat} (h : y ≠ x) : Memory.read (m.drop x) y = m.read y := by
  induction m with
  | nil => rfl
  | cons c rest ih =>
      obtain ⟨a, b⟩ := c
      simp only [Memory.drop]
      split
      · simp only [Memory.read]
        rw [if_neg (by omega)]
      · simp only [Memory.read, ih]

end Sys2Proof.Machine
end

