-- ==== Sys2Proof/Laws/State.lean ====
section
/-! SUPPORT. One lemma per field per update, true by unfolding the update once, so that no later proof unfolds a record
update. -/

namespace Sys2Proof.Machine

/-! ### State.setReg -/

@[simp] theorem setReg_ctrl (s : State) (i : RegIdx) (v : FE) : (s.setReg i v).ctrl = s.ctrl := rfl
@[simp] theorem setReg_status (s : State) (i : RegIdx) (v : FE) : (s.setReg i v).status = s.status := rfl
@[simp] theorem setReg_errinfo (s : State) (i : RegIdx) (v : FE) : (s.setReg i v).errinfo = s.errinfo := rfl
@[simp] theorem setReg_kdf (s : State) (i : RegIdx) (v : FE) : (s.setReg i v).kdf = s.kdf := rfl
@[simp] theorem setReg_fr (s : State) (i : RegIdx) (v : FE) : (s.setReg i v).fr = s.fr.set i v := rfl
@[simp] theorem setReg_cmdl (s : State) (i : RegIdx) (v : FE) : (s.setReg i v).cmdl = s.cmdl := rfl
@[simp] theorem setReg_hid (s : State) (i : RegIdx) (v : FE) : (s.setReg i v).hid = s.hid := rfl
@[simp] theorem setReg_env (s : State) (i : RegIdx) (v : FE) : (s.setReg i v).env = s.env := rfl

/-! ### State.nextDraw -/

@[simp] theorem nextDraw_ctrl (s : State) : (s.nextDraw).ctrl = s.ctrl := rfl
@[simp] theorem nextDraw_status (s : State) : (s.nextDraw).status = s.status := rfl
@[simp] theorem nextDraw_errinfo (s : State) : (s.nextDraw).errinfo = s.errinfo := rfl
@[simp] theorem nextDraw_kdf (s : State) : (s.nextDraw).kdf = s.kdf := rfl
@[simp] theorem nextDraw_fr (s : State) : (s.nextDraw).fr = s.fr := rfl
@[simp] theorem nextDraw_cmdl (s : State) : (s.nextDraw).cmdl = s.cmdl := rfl
@[simp] theorem nextDraw_hid (s : State) : (s.nextDraw).hid = s.hid := rfl
@[simp] theorem nextDraw_env (s : State) : (s.nextDraw).env = { s.env with draws := s.env.draws + 1 } := rfl

/-! ### writeback -/

@[simp] theorem writeback_ctrl (d : RegIdx) (r : FE) (s : State) : (writeback d r s).ctrl = s.ctrl := rfl
@[simp] theorem writeback_status (d : RegIdx) (r : FE) (s : State) : (writeback d r s).status = { s.status with pv := s.status.pv && !isPointReg d } := rfl
@[simp] theorem writeback_errinfo (d : RegIdx) (r : FE) (s : State) : (writeback d r s).errinfo = s.errinfo := rfl
@[simp] theorem writeback_kdf (d : RegIdx) (r : FE) (s : State) : (writeback d r s).kdf = s.kdf := rfl
@[simp] theorem writeback_fr (d : RegIdx) (r : FE) (s : State) : (writeback d r s).fr = s.fr.set d r := rfl
@[simp] theorem writeback_cmdl (d : RegIdx) (r : FE) (s : State) : (writeback d r s).cmdl = s.cmdl := rfl
@[simp] theorem writeback_hid (d : RegIdx) (r : FE) (s : State) : (writeback d r s).hid = s.hid := rfl
@[simp] theorem writeback_env (d : RegIdx) (r : FE) (s : State) : (writeback d r s).env = s.env := rfl

/-! ### clearPoint -/

@[simp] theorem clearPoint_ctrl (s : State) : (clearPoint s).ctrl = s.ctrl := rfl
@[simp] theorem clearPoint_status (s : State) : (clearPoint s).status = { s.status with pv := false } := rfl
@[simp] theorem clearPoint_errinfo (s : State) : (clearPoint s).errinfo = s.errinfo := rfl
@[simp] theorem clearPoint_kdf (s : State) : (clearPoint s).kdf = s.kdf := rfl
@[simp] theorem clearPoint_fr (s : State) : (clearPoint s).fr = (s.fr.set 12 0).set 13 0 := rfl
@[simp] theorem clearPoint_cmdl (s : State) : (clearPoint s).cmdl = s.cmdl := rfl
@[simp] theorem clearPoint_hid (s : State) : (clearPoint s).hid = s.hid := rfl
@[simp] theorem clearPoint_env (s : State) : (clearPoint s).env = s.env := rfl

/-! ### completeImmediate -/

@[simp] theorem completeImmediate_ctrl (c : StatusCode) (s : State) : (completeImmediate c s).ctrl = s.ctrl := rfl
@[simp] theorem completeImmediate_status (c : StatusCode) (s : State) : (completeImmediate c s).status = { s.status with err := c, done := true } := rfl
@[simp] theorem completeImmediate_errinfo (c : StatusCode) (s : State) : (completeImmediate c s).errinfo = ⟨.idle, 0⟩ := rfl
@[simp] theorem completeImmediate_kdf (c : StatusCode) (s : State) : (completeImmediate c s).kdf = s.kdf := rfl
@[simp] theorem completeImmediate_fr (c : StatusCode) (s : State) : (completeImmediate c s).fr = s.fr := rfl
@[simp] theorem completeImmediate_cmdl (c : StatusCode) (s : State) : (completeImmediate c s).cmdl = s.cmdl := rfl
@[simp] theorem completeImmediate_hid (c : StatusCode) (s : State) : (completeImmediate c s).hid = s.hid := rfl
@[simp] theorem completeImmediate_env (c : StatusCode) (s : State) : (completeImmediate c s).env = s.env := rfl

/-! ### accept -/

@[simp] theorem accept_ctrl (o : Op) (s : State) : (accept o s).ctrl = s.ctrl := rfl
@[simp] theorem accept_status (o : Op) (s : State) : (accept o s).status = 
    { s.status with done := false, err := .ok, pv := s.status.pv && !(o == .select || o == .h2c), busy := true,
                    state := firstPhase o } := rfl
@[simp] theorem accept_errinfo (o : Op) (s : State) : (accept o s).errinfo = s.errinfo := rfl
@[simp] theorem accept_kdf (o : Op) (s : State) : (accept o s).kdf = s.kdf := rfl
@[simp] theorem accept_fr (o : Op) (s : State) : (accept o s).fr = s.fr := rfl
@[simp] theorem accept_cmdl (o : Op) (s : State) : (accept o s).cmdl = s.cmdl := rfl
@[simp] theorem accept_hid (o : Op) (s : State) : (accept o s).hid = s.hid := rfl
@[simp] theorem accept_env (o : Op) (s : State) : (accept o s).env = { s.env with touched := false } := rfl

/-! ### refuseWrite -/

@[simp] theorem refuseWrite_ctrl (s : State) : (refuseWrite s).ctrl = s.ctrl := rfl
@[simp] theorem refuseWrite_status (s : State) : (refuseWrite s).status = { s.status with bwe := true } := rfl
@[simp] theorem refuseWrite_errinfo (s : State) : (refuseWrite s).errinfo = s.errinfo := rfl
@[simp] theorem refuseWrite_kdf (s : State) : (refuseWrite s).kdf = s.kdf := rfl
@[simp] theorem refuseWrite_fr (s : State) : (refuseWrite s).fr = s.fr := rfl
@[simp] theorem refuseWrite_cmdl (s : State) : (refuseWrite s).cmdl = s.cmdl := rfl
@[simp] theorem refuseWrite_hid (s : State) : (refuseWrite s).hid = s.hid := rfl
@[simp] theorem refuseWrite_env (s : State) : (refuseWrite s).env = s.env := rfl

/-! ### State.setRes -/

@[simp] theorem setRes_ctrl (r : FE × FE) (s : State) : (s.setRes r).ctrl = s.ctrl := rfl
@[simp] theorem setRes_status (r : FE × FE) (s : State) : (s.setRes r).status = s.status := rfl
@[simp] theorem setRes_errinfo (r : FE × FE) (s : State) : (s.setRes r).errinfo = s.errinfo := rfl
@[simp] theorem setRes_kdf (r : FE × FE) (s : State) : (s.setRes r).kdf = s.kdf := rfl
@[simp] theorem setRes_fr (r : FE × FE) (s : State) : (s.setRes r).fr = s.fr := rfl
@[simp] theorem setRes_cmdl (r : FE × FE) (s : State) : (s.setRes r).cmdl = s.cmdl := rfl
@[simp] theorem setRes_hid (r : FE × FE) (s : State) : (s.setRes r).hid = { s.hid with resX := r.1, resY := r.2 } := rfl
@[simp] theorem setRes_env (r : FE × FE) (s : State) : (s.setRes r).env = s.env := rfl

/-! ### writePoint -/

@[simp] theorem writePoint_ctrl (s : State) : (writePoint s).ctrl = s.ctrl := rfl
@[simp] theorem writePoint_status (s : State) : (writePoint s).status = { s.status with pv := true } := rfl
@[simp] theorem writePoint_errinfo (s : State) : (writePoint s).errinfo = s.errinfo := rfl
@[simp] theorem writePoint_kdf (s : State) : (writePoint s).kdf = s.kdf := rfl
@[simp] theorem writePoint_fr (s : State) : (writePoint s).fr = (s.fr.set 12 s.hid.resX).set 13 s.hid.resY := rfl
@[simp] theorem writePoint_cmdl (s : State) : (writePoint s).cmdl = s.cmdl := rfl
@[simp] theorem writePoint_hid (s : State) : (writePoint s).hid = s.hid := rfl
@[simp] theorem writePoint_env (s : State) : (writePoint s).env = s.env := rfl

/-! ### clearWorking -/

@[simp] theorem clearWorking_ctrl (s : State) : (clearWorking s).ctrl = s.ctrl := rfl
@[simp] theorem clearWorking_status (s : State) : (clearWorking s).status = { s.status with pv := false } := rfl
@[simp] theorem clearWorking_errinfo (s : State) : (clearWorking s).errinfo = s.errinfo := rfl
@[simp] theorem clearWorking_kdf (s : State) : (clearWorking s).kdf = s.kdf := rfl
@[simp] theorem clearWorking_fr (s : State) : (clearWorking s).fr = Vector.ofFn fun i : Fin 16 => if i < 4 then s.fr[i] else 0 := rfl
@[simp] theorem clearWorking_cmdl (s : State) : (clearWorking s).cmdl = s.cmdl := rfl
@[simp] theorem clearWorking_hid (s : State) : (clearWorking s).hid = s.hid := rfl
@[simp] theorem clearWorking_env (s : State) : (clearWorking s).env = s.env := rfl

/-! ### storeRoot -/

@[simp] theorem storeRoot_ctrl (a : Bool × FE) (s : State) : (storeRoot a s).ctrl = s.ctrl := rfl
@[simp] theorem storeRoot_status (a : Bool × FE) (s : State) : (storeRoot a s).status = s.status := rfl
@[simp] theorem storeRoot_errinfo (a : Bool × FE) (s : State) : (storeRoot a s).errinfo = s.errinfo := rfl
@[simp] theorem storeRoot_kdf (a : Bool × FE) (s : State) : (storeRoot a s).kdf = s.kdf := rfl
@[simp] theorem storeRoot_fr (a : Bool × FE) (s : State) : (storeRoot a s).fr = s.fr := rfl
@[simp] theorem storeRoot_cmdl (a : Bool × FE) (s : State) : (storeRoot a s).cmdl = s.cmdl := rfl
@[simp] theorem storeRoot_hid (a : Bool × FE) (s : State) : (storeRoot a s).hid = 
    { s.hid with
      sqv := s.hid.sqv.set (slot s.hid.sqidx) a.1
      sqr := s.hid.sqr.set (slot s.hid.sqidx) (if a.1 then a.2 else 0)
      sqrtAns := none } := rfl
@[simp] theorem storeRoot_env (a : Bool × FE) (s : State) : (storeRoot a s).env = s.env := rfl

/-! ### State.respond -/

@[simp] theorem respond_ctrl (r : BusResponse) (s : State) : (s.respond r).ctrl = s.ctrl := rfl
@[simp] theorem respond_status (r : BusResponse) (s : State) : (s.respond r).status = s.status := rfl
@[simp] theorem respond_errinfo (r : BusResponse) (s : State) : (s.respond r).errinfo = s.errinfo := rfl
@[simp] theorem respond_kdf (r : BusResponse) (s : State) : (s.respond r).kdf = s.kdf := rfl
@[simp] theorem respond_fr (r : BusResponse) (s : State) : (s.respond r).fr = s.fr := rfl
@[simp] theorem respond_cmdl (r : BusResponse) (s : State) : (s.respond r).cmdl = s.cmdl := rfl
@[simp] theorem respond_hid (r : BusResponse) (s : State) : (s.respond r).hid = s.hid := rfl
@[simp] theorem respond_env (r : BusResponse) (s : State) : (s.respond r).env = { s.env with bus := r } := rfl

/-! ### bufChange -/

@[simp] theorem bufChange_ctrl (a : Word) (m : Memory) (s : State) : (bufChange a m s).ctrl = s.ctrl := rfl
@[simp] theorem bufChange_status (a : Word) (m : Memory) (s : State) : (bufChange a m s).status = s.status := rfl
@[simp] theorem bufChange_errinfo (a : Word) (m : Memory) (s : State) : (bufChange a m s).errinfo = s.errinfo := rfl
@[simp] theorem bufChange_kdf (a : Word) (m : Memory) (s : State) : (bufChange a m s).kdf = s.kdf := rfl
@[simp] theorem bufChange_fr (a : Word) (m : Memory) (s : State) : (bufChange a m s).fr = s.fr := rfl
@[simp] theorem bufChange_cmdl (a : Word) (m : Memory) (s : State) : (bufChange a m s).cmdl = s.cmdl := rfl
@[simp] theorem bufChange_hid (a : Word) (m : Memory) (s : State) : (bufChange a m s).hid = s.hid := rfl
@[simp] theorem bufChange_env (a : Word) (m : Memory) (s : State) : (bufChange a m s).env =
    { s.env with
      mem := m
      touched := s.env.touched ||
        (s.status.busy && describedByte a s.kdf && m.read a.toNat != s.env.mem.read a.toNat) } := rfl

/-! ### State.popSchedule -/

@[simp] theorem popSchedule_ctrl (s : State) : (s.popSchedule).ctrl = s.ctrl := rfl
@[simp] theorem popSchedule_status (s : State) : (s.popSchedule).status = s.status := rfl
@[simp] theorem popSchedule_errinfo (s : State) : (s.popSchedule).errinfo = s.errinfo := rfl
@[simp] theorem popSchedule_kdf (s : State) : (s.popSchedule).kdf = s.kdf := rfl
@[simp] theorem popSchedule_fr (s : State) : (s.popSchedule).fr = s.fr := rfl
@[simp] theorem popSchedule_cmdl (s : State) : (s.popSchedule).cmdl = s.cmdl := rfl
@[simp] theorem popSchedule_hid (s : State) : (s.popSchedule).hid = s.hid := rfl
@[simp] theorem popSchedule_env (s : State) : (s.popSchedule).env = { s.env with schedule := s.env.schedule.tail } := rfl

/-! ### State.abandon -/

@[simp] theorem abandon_ctrl (s : State) : (s.abandon).ctrl = s.ctrl := rfl
@[simp] theorem abandon_status (s : State) : (s.abandon).status = { s.status with busy := false, state := .idle } := rfl
@[simp] theorem abandon_errinfo (s : State) : (s.abandon).errinfo = s.errinfo := rfl
@[simp] theorem abandon_kdf (s : State) : (s.abandon).kdf = s.kdf := rfl
@[simp] theorem abandon_fr (s : State) : (s.abandon).fr = s.fr := rfl
@[simp] theorem abandon_cmdl (s : State) : (s.abandon).cmdl = s.cmdl := rfl
@[simp] theorem abandon_hid (s : State) : (s.abandon).hid = Hidden.cleared := rfl
@[simp] theorem abandon_env (s : State) : (s.abandon).env = s.env := rfl

/-! ### resetTurn -/

@[simp] theorem resetTurn_ctrl (s : State) : (resetTurn s).ctrl = ⟨.code, false, false⟩ := rfl
@[simp] theorem resetTurn_status (s : State) : (resetTurn s).status = ⟨false, false, false, false, .ok, .idle⟩ := rfl
@[simp] theorem resetTurn_errinfo (s : State) : (resetTurn s).errinfo = ⟨.idle, 0⟩ := rfl
@[simp] theorem resetTurn_kdf (s : State) : (resetTurn s).kdf = ⟨0, 0, 0, 0, 0⟩ := rfl
@[simp] theorem resetTurn_fr (s : State) : (resetTurn s).fr = Vector.replicate 16 0 := rfl
@[simp] theorem resetTurn_cmdl (s : State) : (resetTurn s).cmdl = 0 := rfl
@[simp] theorem resetTurn_hid (s : State) : (resetTurn s).hid = Hidden.cleared := rfl
@[simp] theorem resetTurn_env (s : State) : (resetTurn s).env = { s.env with touched := false } := rfl

/-! ### writeCandidates and drawCandidates -/

@[simp] theorem writeCandidates_ctrl (c : Candidates) (s : State) : (writeCandidates c s).ctrl = s.ctrl := rfl
@[simp] theorem writeCandidates_status (c : Candidates) (s : State) : (writeCandidates c s).status = s.status := rfl
@[simp] theorem writeCandidates_errinfo (c : Candidates) (s : State) : (writeCandidates c s).errinfo = s.errinfo := rfl
@[simp] theorem writeCandidates_kdf (c : Candidates) (s : State) : (writeCandidates c s).kdf = s.kdf := rfl
@[simp] theorem writeCandidates_cmdl (c : Candidates) (s : State) : (writeCandidates c s).cmdl = s.cmdl := rfl
@[simp] theorem writeCandidates_hid (c : Candidates) (s : State) : (writeCandidates c s).hid = s.hid := rfl
@[simp] theorem writeCandidates_env (c : Candidates) (s : State) : (writeCandidates c s).env = s.env := rfl

@[simp] theorem drawCandidates_ctrl (s : State) : (drawCandidates s).ctrl = s.ctrl := by
  simp only [drawCandidates, setReg_ctrl, nextDraw_ctrl]
@[simp] theorem drawCandidates_status (s : State) : (drawCandidates s).status = s.status := by
  simp only [drawCandidates, setReg_status, nextDraw_status]
@[simp] theorem drawCandidates_errinfo (s : State) : (drawCandidates s).errinfo = s.errinfo := by
  simp only [drawCandidates, setReg_errinfo, nextDraw_errinfo]
@[simp] theorem drawCandidates_kdf (s : State) : (drawCandidates s).kdf = s.kdf := by
  simp only [drawCandidates, setReg_kdf, nextDraw_kdf]
@[simp] theorem drawCandidates_cmdl (s : State) : (drawCandidates s).cmdl = s.cmdl := by
  simp only [drawCandidates, setReg_cmdl, nextDraw_cmdl]
@[simp] theorem drawCandidates_hid (s : State) : (drawCandidates s).hid = s.hid := by
  simp only [drawCandidates, setReg_hid, nextDraw_hid]
@[simp] theorem drawCandidates_mem (s : State) : (drawCandidates s).env.mem = s.env.mem := by
  simp only [drawCandidates, setReg_env, nextDraw_env]

/-! ### finishPhase -/

@[simp] theorem finishPhase_hold (o : Op) (s : State) : finishPhase o (.hold s) = s := rfl
@[simp] theorem finishPhase_raise (o : Op) (c : StatusCode) (s : State) : finishPhase o (.raise c s) = complete c s := rfl

/-! ### completion -/

/-- The fields of a completion (R212); FR and PV depend on the code and the latched command. -/
@[simp] theorem complete_ctrl (c : StatusCode) (s : State) : (complete c s).ctrl = s.ctrl := by
  unfold complete; split <;> rfl
@[simp] theorem complete_kdf (c : StatusCode) (s : State) : (complete c s).kdf = s.kdf := by
  unfold complete; split <;> rfl
@[simp] theorem complete_cmdl (c : StatusCode) (s : State) : (complete c s).cmdl = s.cmdl := by
  unfold complete; split <;> rfl
@[simp] theorem complete_env (c : StatusCode) (s : State) : (complete c s).env = s.env := by
  unfold complete; split <;> rfl
@[simp] theorem complete_hid (c : StatusCode) (s : State) : (complete c s).hid = Hidden.cleared := by
  unfold complete; split <;> rfl
@[simp] theorem complete_errinfo (c : StatusCode) (s : State) :
    (complete c s).errinfo =
      { ephase := if c = .ok then .idle else s.status.state
        klen := if c = .kdfLengthMismatch then s.errinfo.klen else 0 } := by
  unfold complete; split <;> rfl
@[simp] theorem complete_busy (c : StatusCode) (s : State) : (complete c s).status.busy = false := by
  unfold complete; split <;> rfl
@[simp] theorem complete_done (c : StatusCode) (s : State) : (complete c s).status.done = true := by
  unfold complete; split <;> rfl
@[simp] theorem complete_state (c : StatusCode) (s : State) : (complete c s).status.state = .idle := by
  unfold complete; split <;> rfl
@[simp] theorem complete_err (c : StatusCode) (s : State) : (complete c s).status.err = c := by
  unfold complete; split <;> rfl
@[simp] theorem complete_bwe (c : StatusCode) (s : State) : (complete c s).status.bwe = s.status.bwe := by
  unfold complete; split <;> rfl
/-- PV and the field registers after a completion with OK (R212). -/
@[simp] theorem complete_ok_pv (s : State) : (complete .ok s).status.pv = s.status.pv := rfl
@[simp] theorem complete_ok_fr (s : State) : (complete .ok s).fr = s.fr := rfl

/-! ### FW and NW: no update changes them (R9) -/

@[simp] theorem setReg_fw (i : RegIdx) (v : FE) (s : State) : (s.setReg i v).fw = s.fw := rfl
@[simp] theorem setReg_nw (i : RegIdx) (v : FE) (s : State) : (s.setReg i v).nw = s.nw := rfl
@[simp] theorem writeback_fw (d : RegIdx) (r : FE) (s : State) : (writeback d r s).fw = s.fw := rfl
@[simp] theorem writeback_nw (d : RegIdx) (r : FE) (s : State) : (writeback d r s).nw = s.nw := rfl
@[simp] theorem nextDraw_fw (s : State) : (s.nextDraw).fw = s.fw := rfl
@[simp] theorem nextDraw_nw (s : State) : (s.nextDraw).nw = s.nw := rfl
@[simp] theorem setRes_fw (r : FE × FE) (s : State) : (s.setRes r).fw = s.fw := rfl
@[simp] theorem setRes_nw (r : FE × FE) (s : State) : (s.setRes r).nw = s.nw := rfl
@[simp] theorem bufChange_fw (a : Word) (m : Memory) (s : State) : (bufChange a m s).fw = s.fw := rfl
@[simp] theorem bufChange_nw (a : Word) (m : Memory) (s : State) : (bufChange a m s).nw = s.nw := rfl
@[simp] theorem popSchedule_fw (s : State) : (s.popSchedule).fw = s.fw := rfl
@[simp] theorem popSchedule_nw (s : State) : (s.popSchedule).nw = s.nw := rfl
@[simp] theorem resetTurn_fw (s : State) : (resetTurn s).fw = s.fw := rfl
@[simp] theorem resetTurn_nw (s : State) : (resetTurn s).nw = s.nw := rfl
@[simp] theorem accept_fw (o : Op) (s : State) : (accept o s).fw = s.fw := rfl
@[simp] theorem accept_nw (o : Op) (s : State) : (accept o s).nw = s.nw := rfl

end Sys2Proof.Machine
end

