-- ==== Sys2Proof/Laws/Ops.lean ====
section
/-! SUPPORT. What the shared operations do, once: register reads after updates, operand fetch, the two ends of a command's
step. -/

namespace Sys2Proof.Machine

/-! ### Reading a field register after an update -/

theorem State.reg_def (s : State) (i : RegIdx) : s.reg i = s.fr[i] := rfl

/-- Two states with the same field registers read the same. -/
theorem State.reg_congr {s t : State} (h : t.fr = s.fr) (i : RegIdx) : t.reg i = s.reg i := by
  rw [State.reg_def, State.reg_def, h]

@[simp] theorem reg_setReg (s : State) (i j : RegIdx) (v : FE) :
    (s.setReg i v).reg j = if i = j then v else s.reg j := by
  simp [State.reg, State.setReg, Vector.getElem_set, Fin.ext_iff]

@[simp] theorem reg_writeback (d j : RegIdx) (v : FE) (s : State) :
    (writeback d v s).reg j = if d = j then v else s.reg j :=
  reg_setReg s d j v

@[simp] theorem reg_nextDraw (s : State) (j : RegIdx) : s.nextDraw.reg j = s.reg j := rfl

@[simp] theorem reg_clearPoint (s : State) (j : RegIdx) :
    (clearPoint s).reg j = if j = 12 ∨ j = 13 then 0 else s.reg j := by
  show ((s.setReg 12 0).setReg 13 0).reg j = _
  simp only [reg_setReg, eq_comm (b := j)]
  by_cases h13 : j = 13 <;> by_cases h12 : j = 12 <;> simp [h12, h13]

@[simp] theorem reg_writePoint (s : State) (j : RegIdx) :
    (writePoint s).reg j = if j = 12 then s.hid.resX else if j = 13 then s.hid.resY else s.reg j := by
  show ((s.setReg 12 s.hid.resX).setReg 13 s.hid.resY).reg j = _
  simp only [reg_setReg, eq_comm (b := j)]
  by_cases h13 : j = 13
  · subst h13; simp
  · simp [h13]

@[simp] theorem reg_clearWorking (s : State) (j : RegIdx) :
    (clearWorking s).reg j = if j < 4 then s.reg j else 0 := by
  simp [State.reg, clearWorking]

@[simp] theorem reg_complete_ok (s : State) (j : RegIdx) : (complete .ok s).reg j = s.reg j := rfl

/-- The completion of a command other than SELECT and H2C writes no field register (R213). -/
theorem complete_of_not_latched {s : State} (c : StatusCode) (h : latchedWritesPoint s = false) :
    complete c s = goIdle (recordCode c s) := by
  simp [complete, h]

/-- An error completion of SELECT or H2C clears the point (R213). -/
theorem complete_of_latched {s : State} {c : StatusCode} (hc : c ≠ .ok) (h : latchedWritesPoint s = true) :
    complete c s = goIdle (clearPoint (recordCode c s)) := by
  simp [complete, h, hc]

/-! ### Operand fetch -/

@[simp] theorem p_nextDraw (s : State) : s.nextDraw.p = s.p := rfl

/-- With P ≥ 1 a fetch is FR[i] mod P and draws nothing (R100). -/
theorem fetch_of_pos {s : State} (i : RegIdx) (h : s.p ≠ 0) : fetch i s = (s.fe i, s) := by
  simp [fetch, h]

/-- A fetch changes nothing but the free-value counter. -/
theorem fetch_state (i : RegIdx) (s : State) : (fetch i s).2 = s ∨ (fetch i s).2 = s.nextDraw := by
  unfold fetch
  split
  · exact .inr rfl
  · exact .inl rfl

/-! ### The shape of a command -/

/-- With BUSY = 0 a command that runs phases is accepted (R196). -/
theorem runCommand_idle {o : Op} {body} {s : State} (h : s.status.busy = false) :
    runCommand o body s = .next (accept o s) := by
  simp [runCommand, h]

/-- With BUSY = 1 a command takes one step of its phase (R199). -/
theorem runCommand_busy {o : Op} {body} {s : State} {f : State → PhaseEnd} (h : s.status.busy = true)
    (hf : body s.status.state = some f) : runCommand o body s = .next (finishPhase o (f s)) := by
  simp [runCommand, h, hf]

/-- What a next state of a command can be: its acceptance, or the end of a step of its phase. -/
theorem runCommand_next {o : Op} {body} {s t : State} (h : runCommand o body s = .next t) :
    (s.status.busy = false ∧ t = accept o s) ∨
      (s.status.busy = true ∧ ∃ f, body s.status.state = some f ∧ t = finishPhase o (f s)) := by
  unfold runCommand at h
  split at h
  · rename_i hb
    split at h
    · rename_i f hf
      exact .inr ⟨hb, f, hf, by cases h; rfl⟩
    · cases h
  · rename_i hb
    exact .inl ⟨by simpa using hb, by cases h; rfl⟩

/-- The EXEC phase of a field command with P ≥ 2 (R103, R115). -/
theorem arithPhase_of_two_le {s : State} (rd : RegIdx) (f : State → Nat) (h : 2 ≤ s.p) :
    arithPhase rd f s = .finished (writeback rd (f s) s) := by
  simp [arithPhase]; omega

/-- The EXEC phase of a field command with P ≤ 1: a free value (R103). -/
theorem arithPhase_of_le_one {s : State} (rd : RegIdx) (f : State → Nat) (h : s.p ≤ 1) :
    arithPhase rd f s = .finished (writeback rd s.drawFE s.nextDraw) := by
  simp [arithPhase, h]

/-! ### The window -/

/-- A read changes nothing but the free-value counter (R69). -/
theorem readRegion_state (r : Region) (s : State) :
    (readRegion r s).2 = s ∨ (readRegion r s).2 = s.nextDraw := by
  unfold readRegion
  split <;> try exact .inl rfl
  unfold readFrWord
  split
  · exact .inl rfl
  · split
    · exact .inr rfl
    · exact .inl rfl

/-- The window's field-register part is reached word by word (R28). -/
theorem regionOf_frWord (i : RegIdx) (k : Fin 32) :
    regionOf (BitVec.ofNat 12 (0x400 + 0x80 * i.val + 4 * k.val)) = .frWord i k := by
  have hi := i.isLt
  have hk := k.isLt
  have ho : (BitVec.ofNat 12 (0x400 + 0x80 * i.val + 4 * k.val)).toNat = 0x400 + 0x80 * i.val + 4 * k.val := by
    rw [BitVec.toNat_ofNat]; omega
  unfold regionOf
  rw [ho, if_pos (by omega)]
  have h1 : (0x400 + 0x80 * i.val + 4 * k.val - 0x400) / 0x80 = i.val := by omega
  have h2 : (0x400 + 0x80 * i.val + 4 * k.val - 0x400) % 0x80 / 4 = k.val := by omega
  rw [h1, h2]
  congr 1
  · exact Fin.ext (Nat.mod_eq_of_lt hi)
  · exact Fin.ext (Nat.mod_eq_of_lt hk)

end Sys2Proof.Machine
end

