-- ==== Sys2Proof/Laws/PerInstr.lean ====
section
/-! SUPPORT. The family Encoding: the fields of every command are well-formed (R82, R83, R86) and its word selects its own row of
the mask and match table and no other (R84, R89). -/

namespace Sys2Proof.Laws.Encoding

def Statement (i : Instr) : Prop :=
  i.fields.wellFormed = true ∧ ∀ o : Op, o.selectedBy (encode i) = true ↔ o = i.op

/-- The family's statement for a command that leaves the fields it does not use 0. -/
theorem statement_of {i : Instr} (h : i.fields.unusedOk i.op = true) : Statement i := by
  have hs : i.op.selectedBy (encode i) = true := by
    rw [Op.selectedBy_iff, fieldsOf_encode]
    exact ⟨i.fields_opc, h⟩
  refine ⟨?_, fun _ => ⟨fun h' => Op.selected_unique h' hs, fun h' => h' ▸ hs⟩⟩
  rw [CmdFields.wellFormed, i.fields_widthsOk, i.fields_opc, Op.ofCode_code]
  simpa using h

theorem nop : Statement .nop := statement_of rfl

theorem fadd (rd rs1 rs2 : RegIdx) : Statement (.fadd rd rs1 rs2) := statement_of rfl

theorem fneg (rd rs1 : RegIdx) : Statement (.fneg rd rs1) := statement_of rfl

theorem fmul (rd rs1 rs2 : RegIdx) : Statement (.fmul rd rs1 rs2) := statement_of rfl

theorem fsqr (rd rs1 : RegIdx) : Statement (.fsqr rd rs1) := statement_of rfl

theorem fcube (rd rs1 : RegIdx) : Statement (.fcube rd rs1) := statement_of rfl

theorem finv (rd rs1 : RegIdx) : Statement (.finv rd rs1) := statement_of rfl

theorem geval (rd rs1 : RegIdx) : Statement (.geval rd rs1) := statement_of rfl

theorem clrw : Statement .clrw := statement_of rfl

theorem validate : Statement .validate := statement_of rfl

theorem h2f (rd : RegIdx) (cnt : Byte) : Statement (.h2f rd cnt) := statement_of rfl

theorem cgen : Statement .cgen := statement_of rfl

theorem schk : Statement .schk := statement_of rfl

theorem select : Statement .select := statement_of rfl

theorem h2c : Statement .h2c := statement_of rfl

end Sys2Proof.Laws.Encoding
end

