-- ==== Sys2Proof/Laws/Phases.lean ====
section
/-! SUPPORT. What each phase step does, once: the ends of a phase, the completion's record, each phase's closed form, the two
collaborators' answers, and how a command word reaches `exec`. -/

namespace Sys2Proof.Machine

/-! ### Command words and exec -/

/-- A decoded word carries its command's opcode (R84). -/
theorem opc_of_decode {w : Word} {i : Instr} (h : decode w = .ok i) : (fieldsOf w).opc = i.op.code := by
  unfold decode decodeFields at h
  split at h
  · cases h
  · rename_i o ho
    split at h
    · have := Op.code_of_ofCode ho
      cases h
      rw [← this]
      cases o <;> rfl
    · cases h

/-- Which commands' errors clear the point, from the latched word (R212). -/
theorem latchedWritesPoint_of_decode {s : State} {i : Instr} (h : decode s.cmdl = .ok i) :
    latchedWritesPoint s = (i.op == .select || i.op == .h2c) := by
  unfold latchedWritesPoint
  rw [opc_of_decode h]
  cases i <;> rfl

theorem latchedWritesPoint_of_encode {s : State} {i : Instr} (h : s.cmdl = encode i) :
    latchedWritesPoint s = (i.op == .select || i.op == .h2c) := by
  unfold latchedWritesPoint
  rw [h, fieldsOf_encode, i.fields_opc]
  cases i <;> rfl

/-- With BUSY = 0, exec is acceptance: at once for NOP, else into the first phase (R190, R196). -/
theorem exec_of_idle {s : State} {i : Instr} (h : s.status.busy = false) :
    exec i s = .next (if i = .nop then completeImmediate .ok s else accept i.op s) := by
  cases i with
  | nop => simp [exec, execNop, h]
  | _ => exact runCommand_idle h

/-! ### The ends of a phase -/

/-- The last phase of a command that has one phase (R199). -/
theorem finishPhase_exec {o : Op} (h : phasesOf o = [.exec]) {t : State} (ht : t.status.state = .exec) :
    finishPhase o (.finished t) = complete .ok t := by
  simp [finishPhase, h, ht, phaseAfter]

/-- What any completion leaves, relative to an earlier state with the same BWE and control registers (R212). -/
theorem completed_complete {s t : State} (c : StatusCode) (hb : t.status.bwe = s.status.bwe) (hc : SameControl s t) :
    Completed c (if c = .ok then .idle else t.status.state) (if c = .kdfLengthMismatch then t.errinfo.klen else 0) s
      (complete c t) where
  busy := by simp
  done := by simp
  err := by simp
  state := by simp
  bwe := by simp [hb]
  ephase := by simp
  klen := by simp
  hid := by simp
  control := ⟨by simp [hc.ctrl], by simp [hc.kdf], by simp [hc.cmdl]⟩

/-- Field registers after an error completion of SELECT or H2C (R213). -/
theorem reg_complete_of_latched {s : State} {c : StatusCode} (hc : c ≠ .ok) (h : latchedWritesPoint s = true) (j : RegIdx) :
    (complete c s).reg j = if j = 12 ∨ j = 13 then 0 else s.reg j := by
  rw [complete_of_latched hc h]
  exact reg_clearPoint (recordCode c s) j

/-! ### Operands -/

/-- A fetch changes nothing but the environment's counter. -/
theorem fetch_eq (i : RegIdx) (s : State) :
    ∃ v n, fetch i s = (v, { s with env := { s.env with draws := n } }) := by
  unfold fetch
  split
  · exact ⟨_, _, rfl⟩
  · exact ⟨_, s.env.draws, rfl⟩

theorem fetch_nw (i : RegIdx) (s : State) : (fetch i s).2.nw = s.nw := by
  unfold fetch
  split <;> rfl

/-- `specInv` is the model's inverse (R104). -/
theorem specInv_eq_inv (p z : Nat) : specInv p z = inv p z := by
  unfold specInv inv
  split
  · rfl
  · rw [powMod_eq]

/-- `specG` is the model's curve polynomial (R107). -/
theorem specG_eq_curvePoly (s : State) (x : Nat) : specG s x = curvePoly s.p (s.fe 1) (s.fe 2) x := rfl

/-! ### VALIDATE, GENERATE, SELFCHECK -/

/-- The VALIDATE phase with P ≥ 1 (R150). -/
theorem validatePhase_of_pos {s : State} (hp : 1 ≤ s.p) :
    validatePhase s = if s.fe 1 = 0 ∨ s.fe 2 = 0 then .raise .unsupportedCurve s else .finished s := by
  simp [validatePhase, fetch_of_pos _ (show s.p ≠ 0 by omega)]

/-- Every candidate and every curve value is below P (R101, R158). -/
theorem candidates_lt {f : X3Form} {p a b t u : Nat} (hp : 0 < p) (hu : u < p) :
    let c := candidates f p a b t u
    c.x1 < p ∧ c.g1 < p ∧ c.x2 < p ∧ c.g2 < p ∧ c.x3 < p ∧ c.g3 < p := by
  refine ⟨hu, Nat.mod_lt _ hp, Nat.mod_lt _ hp, Nat.mod_lt _ hp, ?_, Nat.mod_lt _ hp⟩
  show candidate3 f p t _ _ < p
  unfold candidate3
  cases f <;> exact Nat.mod_lt _ hp

/-- The registers after the candidates' write (R158). -/
theorem reg_writeCandidates (c : Candidates) (s : State) (j : RegIdx) :
    (writeCandidates c s).reg j =
      if j = 6 then c.x1 else if j = 7 then c.g1 else if j = 8 then c.x2
      else if j = 9 then c.g2 else if j = 10 then c.x3 else if j = 11 then c.g3 else s.reg j := by
  simp only [writeCandidates, reg_setReg]
  fin_cases j <;> rfl

/-- The GENERATE phase with P ≥ 2 (R158). -/
theorem generatePhase_of_two_le {s : State} (hp : 2 ≤ s.p) :
    generatePhase s =
      .finished (writeCandidates (candidates s.ctrl.x3f s.p (s.fe 1) (s.fe 2) (s.fe 4) (s.fe 5)) s) := by
  simp [generatePhase]; omega

/-- The SELFCHECK phase with P ≥ 1 (R159, R160). -/
theorem selfcheckPhase_of_pos {s : State} (hp : 1 ≤ s.p) :
    selfcheckPhase s =
      selfcheckVerdict (selfcheckLhs s.p (s.fe 4) (s.fe 7) (s.fe 9)) (selfcheckRhs s.p (s.fe 7) (s.fe 9) (s.fe 11)) s := by
  simp [selfcheckPhase]; omega

theorem selfcheckPhase_pass {s : State} (hp : 1 ≤ s.p) (h : SelfcheckHolds s) : selfcheckPhase s = .finished s := by
  rw [selfcheckPhase_of_pos hp]; exact if_pos h

theorem selfcheckPhase_fail {s : State} (hp : 1 ≤ s.p) (h : ¬ SelfcheckHolds s) :
    selfcheckPhase s = .raise .iafSelfcheck s := by
  rw [selfcheckPhase_of_pos hp]; exact if_neg h

/-! ### The DERIVE phases and the KDF collaborator -/

/-- The output length as R134 writes it. -/
theorem outLen_eq (p : Nat) : outLen p = (bitlen p + 135) / 8 := by
  simp [outLen, Config.margin, Nat.add_assoc]

/-- The big-endian integer as R136's sum. -/
theorem beValue_eq_specValue (bs : List Byte) : beValue bs = specValue bs := by
  induction bs using List.reverseRecOn with
  | nil => rfl
  | append_singleton bs b ih =>
      rw [beValue_append, ih, specValue, specValue, List.length_append, List.length_singleton, Finset.sum_range_succ,
        Finset.sum_mul]
      congr 1
      · apply Finset.sum_congr rfl
        intro j hj
        rw [Finset.mem_range] at hj
        rw [List.getD_append _ _ _ _ hj, mul_assoc, ← pow_succ]
        congr 2; omega
      · simp

theorem derivedValue_lt {s : State} (hp : 1 ≤ s.p) (bs : List Byte) : derivedValue s bs < s.p :=
  Nat.mod_lt _ hp

/-- A derivation writes one field register, whatever the moduli are (R101, R137). -/
theorem writeDerived_eq (d : RegIdx) (v : Nat) (s : State) :
    ∃ x, writeDerived d v s = writeback d x s ∨ writeDerived d v s = writeback d x s.nextDraw := by
  unfold writeDerived
  split
  · exact ⟨_, .inr rfl⟩
  · split
    · exact ⟨_, .inr rfl⟩
    · exact ⟨_, .inl rfl⟩

/-- A response of the requested length, with both moduli nonzero: the reduced integer is written and the response is
consumed (R136, R137, R139). -/
theorem consumeResponse_of_length {s : State} (d : RegIdx) (hp : 1 ≤ s.p) (hl : s.hid.krsp.length = outLen s.p)
    (hm : s.ctrl.redsel = true ∨ s.reg 3 ≠ 0) :
    consumeResponse d s =
      .finished { writeback d (derivedValue s s.hid.krsp) s with
        hid := { s.hid with krsp := [], krspRdy := false } } := by
  have hp0 : s.p ≠ 0 := by omega
  have hm0 : reductionModulus s ≠ 0 := by
    unfold reductionModulus
    split
    · exact hp0
    · rename_i h
      rcases hm with hm | hm
      · exact absurd hm h
      · exact hm
  have hw : writeDerived d (beValue s.hid.krsp) s = writeback d (derivedValue s s.hid.krsp) s := by
    unfold writeDerived
    rw [if_neg hp0, if_neg hm0, beValue_eq_specValue]; rfl
  simp only [consumeResponse, hl, ne_eq, not_true, if_false, hw]
  rfl

/-- A response of another length raises code 2 with its length in KLEN (R135). -/
theorem consumeResponse_of_wrong_length {s : State} (d : RegIdx) (hl : s.hid.krsp.length ≠ outLen s.p) :
    consumeResponse d s =
      .raise .kdfLengthMismatch
        { s with errinfo := { s.errinfo with klen := saturatedLength s.hid.krsp.length } } := by
  simp [consumeResponse, hl]

/-- A KDF answer changes nothing of the state but the free-value counter. -/
theorem kdfAnswer_state (req : KdfRequest) (s : State) : (kdfAnswer req s).2 = s ∨ (kdfAnswer req s).2 = s.nextDraw := by
  unfold kdfAnswer
  split
  · exact .inr rfl
  · split
    · exact .inl rfl
    · exact .inr rfl

/-! ### The SQRT and SELECT phases and the SQRT collaborator -/

/-- A step of the SQRT or SELECT phase is the same for SELECT and for H2C (R192). -/
theorem exec_sqrtPhase {s : State} {i : Instr} (hi : i = .select ∨ i = .h2c) (h : RunningIn .sqrt s) :
    exec i s = .next (finishPhase i.op (sqrtPhase s)) := by
  rcases hi with rfl | rfl <;> exact runCommand_busy h.1 (by rw [h.2]; rfl)

theorem exec_selectPhase {s : State} {i : Instr} (hi : i = .select ∨ i = .h2c) (h : RunningIn .select s) :
    exec i s = .next (finishPhase i.op (selectPhase s)) := by
  rcases hi with rfl | rfl <;> exact runCommand_busy h.1 (by rw [h.2]; rfl)

theorem leastRoot_of_some {p v r : Nat} (h : leastRoot p v = some r) : r < p ∧ r * r % p = v ∧ ∀ k < r, k * k % p ≠ v := by
  unfold leastRoot at h
  rw [List.find?_range_eq_some] at h
  simp at h
  exact ⟨h.2.1, h.1, h.2.2⟩

theorem leastRoot_of_none {p v : Nat} (h : leastRoot p v = none) : ∀ k < p, k * k % p ≠ v := by
  unfold leastRoot at h
  simp at h
  exact h

/-- Trial division accepts every odd prime (R171). -/
theorem isOddPrime_of_prime {p : Nat} (hp : p.Prime) (h2 : p ≠ 2) : isOddPrime p = true := by
  have := hp.two_le
  have ho := hp.eq_two_or_odd.resolve_left h2
  simp only [isOddPrime, Bool.and_eq_true, decide_eq_true_eq, beq_iff_eq, List.all_eq_true, List.mem_range,
    Bool.or_eq_true, bne_iff_ne]
  refine ⟨⟨by omega, ho⟩, fun d hd => ?_⟩
  by_cases h : d < 2
  · exact .inl h
  · right
    intro hm
    rcases (Nat.dvd_prime hp).1 (Nat.dvd_of_mod_eq_zero hm) with h' | h' <;> omega

theorem p_setRes (r : FE × FE) (s : State) : (s.setRes r).p = s.p := rfl
theorem fe_setRes (r : FE × FE) (s : State) (i : RegIdx) : (s.setRes r).fe i = s.fe i := rfl
theorem res_setRes (r : FE × FE) (s : State) : (s.setRes r).res = r := rfl
theorem setRes_setRes (r r' : FE × FE) (s : State) : (s.setRes r).setRes r' = s.setRes r' := rfl

/-- The selection with P ≥ 1: candidate 3 overwritten by two blends (R176). -/
theorem selectRes_blends {s : State} (hp : 1 ≤ s.p) :
    selectRes s = s.setRes (blendPair s.nw s.hid.sqv[0] (s.fe 6, s.hid.sqr[0])
      (blendPair s.nw s.hid.sqv[1] (s.fe 8, s.hid.sqr[1]) (s.fe 10, s.hid.sqr[2]))) := by
  have hp0 : s.p ≠ 0 := by omega
  simp only [selectRes, fetch, p_setRes, if_neg hp0, setRes_setRes, res_setRes, setRes_hid, fe_setRes, setRes_nw]

/-- On FW-bit values the selection is a choice: the lowest valid candidate, else the third (R176, R181). -/
theorem selectRes_of_pos {s : State} (hp : 1 ≤ s.p) (hf : s.Fits) :
    selectRes s = s.setRes
      (if s.hid.sqv[0] then (s.fe 6, s.hid.sqr[0]) else if s.hid.sqv[1] then (s.fe 8, s.hid.sqr[1])
        else (s.fe 10, s.hid.sqr[2])) := by
  have hc (i : RegIdx) (j : Fin 3) : s.fe i < 2 ^ s.fw ∧ s.hid.sqr[j] < 2 ^ s.fw :=
    ⟨(s.fe_lt i hp).trans (hf.fr 0), hf.sqr j⟩
  have h2 := blendPair_eq (s := s) (c := (s.fe 8, s.hid.sqr[1])) (q := (s.fe 10, s.hid.sqr[2])) s.hid.sqv[1]
    (hc 8 1) (hc 10 2)
  have h1 := blendPair_eq (s := s) (c := (s.fe 6, s.hid.sqr[0])) s.hid.sqv[0] (hc 6 0)
    (q := if s.hid.sqv[1] then (s.fe 8, s.hid.sqr[1]) else (s.fe 10, s.hid.sqr[2]))
    (by split; exacts [hc 8 1, hc 10 2])
  exact (selectRes_blends hp).trans (congrArg (State.setRes · s) ((congrArg _ h2).trans h1))

/-- The tentative answer always has FW bits: the last blend cuts it to its limbs (R175, R176). -/
theorem selectRes_fits (s : State) :
    (selectRes s).hid.resX < 2 ^ s.fw ∧ (selectRes s).hid.resY < 2 ^ s.fw := by
  have hn {i : RegIdx} {u v : State} {x : Nat} (h : fetch i u = (x, v)) : v.nw = u.nw := by simpa [h] using fetch_nw i u
  rcases h3 : fetch 10 s with ⟨x3, s3⟩
  rcases h2 : fetch 8 (s3.setRes (x3, s3.hid.sqr[2])) with ⟨x2, s2⟩
  rcases h1 : fetch 6 (s2.setRes (blendPair s2.nw s2.hid.sqv[1] (x2, s2.hid.sqr[1]) s2.res)) with ⟨x1, s1⟩
  have h : selectRes s = s1.setRes (blendPair s1.nw s1.hid.sqv[0] (x1, s1.hid.sqr[0]) s1.res) := by
    simp only [selectRes, h3, h2, h1]
  have hw : s1.nw = s.nw := by rw [hn h1, setRes_nw, hn h2, setRes_nw, hn h3]
  rw [h, hw]
  exact ⟨blend_lt s _ _ _, blend_lt s _ _ _⟩

/-! ### Host operations -/

/-- An accepted write reaches its region (R20, R62). -/
theorem hostOp_write {off : Offset} {r : Region} (h4 : off.toNat % 4 = 0) (hr : regionOf off = r) (v : Word) (s : State) :
    hostOp (.write .w32 off v) s = writeRegion r v (s.respond .ack) := by
  simp [hostOp, busWrite, accessOk, h4, hr]

/-- An accepted read answers with its region's value (R20, R62). -/
theorem hostOp_read {off : Offset} {r : Region} (h4 : off.toNat % 4 = 0) (hr : regionOf off = r) (s : State) :
    hostOp (.read .w32 off) s = .next ((readRegion r s).2.respond (.data (readRegion r s).1)) := by
  simp [hostOp, busRead, accessOk, h4, hr]

/-! ### The invariant in the two shapes a step leaves -/

/-- The twelve fields of cleared hidden state (R45). -/
theorem Hidden.eq_cleared {h : Hidden} (h1 : h.kpend = false) (h2 : h.krsp = []) (h3 : h.krspRdy = false)
    (h4 : h.kdfReq = none) (h5 : h.sqpend = false) (h6 : h.sqidx = 0) (h7 : h.sqrtReq = none) (h8 : h.sqrtAns = none)
    (h9 : h.sqr = Vector.replicate 3 0) (h10 : h.sqv = Vector.replicate 3 false) (h11 : h.resX = 0) (h12 : h.resY = 0) :
    h = Hidden.cleared := by
  cases h; simp only at *; subst_vars; rfl

/-- With cleared hidden state only the rules about STATUS, CMDL and memory are left. -/
theorem State.inv_of_hid_cleared {t : State} (hh : t.hid = Hidden.cleared) (hm : Memory.wf t.env.mem = true)
    (hf : ∀ i, t.reg i < 2 ^ t.fw)
    (h1 : t.status.busy = true ↔ t.status.state ≠ .idle)
    (h2 : t.status.busy = true → ∃ i, decode t.cmdl = .ok i ∧ t.status.state ∈ phasesOf i.op)
    (h3 : t.status.busy = true → t.status.done = false ∧ t.status.err = .ok)
    (h4 : t.status.busy = true → latchedWritesPoint t = true → t.status.pv = false) : t.Inv := by
  have hfits : t.Fits := ⟨hf, by simp [hh, Hidden.cleared], by simp [hh, Hidden.cleared]⟩
  constructor <;> first | assumption | exact fun _ => hh | (rw [hh]; simp [Hidden.cleared])

/-- An idle block with cleared hidden state meets the invariant. -/
theorem State.inv_of_idle {t : State} (hb : t.status.busy = false) (hs : t.status.state = .idle)
    (hh : t.hid = Hidden.cleared) (hm : Memory.wf t.env.mem = true) (hf : ∀ i, t.reg i < 2 ^ t.fw) : t.Inv := by
  apply State.inv_of_hid_cleared hh hm hf <;> simp [hb, hs]

/-- The invariant does not look at the environment but for its bytes and FW. -/
theorem State.Inv.withEnv {s : State} (h : s.Inv) (e : Env) (hm : Memory.wf e.mem = true) (hw : e.fw = s.env.fw) :
    State.Inv { s with env := e } :=
  have hfw : (State.fw { s with env := e }) = s.fw := congrArg FieldWidth.bits hw
  { h with
    fits := ⟨fun i => hfw ▸ h.fits.fr i, fun j => hfw ▸ h.fits.sqr j, fun a ha => hfw ▸ h.fits.ans a ha⟩
    mem_wf := hm }

end Sys2Proof.Machine
end

