-- ==== Sys2Proof/Tests/Slice0.lean ====
section
/-! SUPPORT. Own tests: ill-formed raw commands, decoding from words written out bit by bit, one-step tests from the vectors of
spec/95_test_vectors.md (their numbers stand in each comment), and for every statement with hypotheses a state and operands
that meet them. -/

namespace Sys2Proof.Tests

open Sys2Proof Sys2Proof.Machine

-- One theorem at a time: kernel evaluations that wait for each other would each hold a thread.
set_option Elab.async false

/-! ## Helpers -/

/-- Registers from a list; the rest are 0. -/
def regsOf (l : List (RegIdx × Nat)) : Vector FE 16 :=
  Vector.ofFn fun i => match l.find? fun e => e.1 == i with
    | some e => e.2
    | none => 0

/-- The curve T23 with more registers: P = 23, A = 1, B = 1, N = 28. -/
def t23 (l : List (RegIdx × Nat)) : List (RegIdx × Nat) := [(0, 23), (1, 1), (2, 1), (3, 28)] ++ l

/-- The curve T101: P = 101, A = 1, B = 1, N = 105. -/
def t101 : List (RegIdx × Nat) := [(0, 101), (1, 1), (2, 1), (3, 105)]

/-- An idle block with these registers. -/
def idleWith (l : List (RegIdx × Nat)) : State := { State.reset with fr := regsOf l }

/-- A command running in a phase, as acceptance and the phases before leave it. -/
def running (i : Instr) (p : Phase) (l : List (RegIdx × Nat)) : State :=
  { idleWith l with cmdl := encode i, status := { State.reset.status with busy := true, state := p } }

/-- What a result's next state shows. -/
def view {α : Type} (r : Result) (f : State → α) : Option α :=
  match r with
  | .next t => some (f t)
  | _ => none

/-- The next state of a result that has one. -/
def nextOf (r : Result) : State :=
  match r with
  | .next t => t
  | _ => State.reset

/-- A result that shows something is its next state. -/
theorem eq_nextOf {r : Result} (h : (view r fun _ => ()) = some ()) : r = .next (nextOf r) := by
  cases r with
  | next t => rfl
  | fault f => cases h
  | refused q => cases h

/-- STATUS, ERRINFO and one register. -/
def seen (d : RegIdx) (t : State) : Word × Word × Nat := (statusWord t.status, errinfoWord t.errinfo, (t.reg d))

/-- A KDF response of 17 bytes with a last byte. -/
def resp17 (b : Byte) : List Byte := List.replicate 16 0 ++ [b]

/-- The state with a response in KRSP. -/
def withResponse (bs : List Byte) (s : State) : State := { s with hid := { s.hid with krsp := bs, krspRdy := true } }

/-- The state with a request at the KDF collaborator. -/
def withRequest (c : Byte) (s : State) : State :=
  { s with hid := { s.hid with kpend := true, kdfReq := some (kdfRequest c s) } }

/-- The state with roots and masks in SQR and SQV. -/
def withRoots (v1 v2 v3 : Bool) (r1 r2 r3 : Nat) (s : State) : State :=
  { s with hid := { s.hid with
      sqidx := 3
      sqv := #v[v1, v2, v3]
      sqr := #v[r1, r2, r3] } }

/-! ## Ill-formed raw commands: one for each check -/

theorem test_wf_refuses_wide_opcode : CmdFields.wellFormed ⟨256, 0, 0, 0, 0, 0⟩ = false := by decide
theorem test_wf_refuses_wide_rd : CmdFields.wellFormed ⟨0x01, 16, 0, 0, 0, 0⟩ = false := by decide
theorem test_wf_refuses_wide_rs1 : CmdFields.wellFormed ⟨0x01, 0, 16, 0, 0, 0⟩ = false := by decide
theorem test_wf_refuses_wide_rs2 : CmdFields.wellFormed ⟨0x01, 0, 0, 16, 0, 0⟩ = false := by decide
theorem test_wf_refuses_wide_reserved : CmdFields.wellFormed ⟨0x01, 0, 0, 0, 16, 0⟩ = false := by decide
theorem test_wf_refuses_wide_counter : CmdFields.wellFormed ⟨0x11, 4, 0, 0, 0, 256⟩ = false := by decide
theorem test_wf_refuses_unused_opcode : CmdFields.wellFormed ⟨0x08, 0, 0, 0, 0, 0⟩ = false := by decide
theorem test_wf_refuses_rd_of_cgen : CmdFields.wellFormed ⟨0x12, 1, 0, 0, 0, 0⟩ = false := by decide
theorem test_wf_refuses_rs1_of_h2f : CmdFields.wellFormed ⟨0x11, 4, 1, 0, 0, 0⟩ = false := by decide
theorem test_wf_refuses_rs2_of_fneg : CmdFields.wellFormed ⟨0x02, 0, 0, 1, 0, 0⟩ = false := by decide
theorem test_wf_refuses_reserved_of_h2c : CmdFields.wellFormed ⟨0x20, 0, 0, 0, 1, 0⟩ = false := by decide
theorem test_wf_refuses_counter_of_fadd : CmdFields.wellFormed ⟨0x01, 0, 0, 0, 0, 1⟩ = false := by decide
theorem test_wf_takes_h2f : CmdFields.wellFormed ⟨0x11, 15, 0, 0, 0, 255⟩ = true := by decide

/-! ## Decoding: words written out from R81 (CNT, reserved, RS2, RS1, RD, OPC) -/

theorem test_decode_nop : decode 0b00000000_0000_0000_0000_0000_00000000 = .ok .nop := by decide
theorem test_decode_fadd : decode 0b00000000_0000_0101_1010_0011_00000001 = .ok (.fadd 3 10 5) := by decide
theorem test_decode_fneg : decode 0b00000000_0000_0000_0010_1110_00000010 = .ok (.fneg 14 2) := by decide
theorem test_decode_fmul : decode 0b00000000_0000_0111_0110_1110_00000011 = .ok (.fmul 14 6 7) := by decide
theorem test_decode_fsqr : decode 0b00000000_0000_0000_0111_1110_00000100 = .ok (.fsqr 14 7) := by decide
theorem test_decode_fcube : decode 0b00000000_0000_0000_0110_1111_00000101 = .ok (.fcube 15 6) := by decide
theorem test_decode_finv : decode 0b00000000_0000_0000_1000_0001_00000110 = .ok (.finv 1 8) := by decide
theorem test_decode_geval : decode 0b00000000_0000_0000_0110_1111_00000111 = .ok (.geval 15 6) := by decide
theorem test_decode_clrw : decode 0b00000000_0000_0000_0000_0000_00001111 = .ok .clrw := by decide
theorem test_decode_validate : decode 0b00000000_0000_0000_0000_0000_00010000 = .ok .validate := by decide
theorem test_decode_h2f : decode 0b10000001_0000_0000_0000_0101_00010001 = .ok (.h2f 5 0x81) := by decide
theorem test_decode_cgen : decode 0b00000000_0000_0000_0000_0000_00010010 = .ok .cgen := by decide
theorem test_decode_schk : decode 0b00000000_0000_0000_0000_0000_00010011 = .ok .schk := by decide
theorem test_decode_select : decode 0b00000000_0000_0000_0000_0000_00010100 = .ok .select := by decide
theorem test_decode_h2c : decode 0b00000000_0000_0000_0000_0000_00100000 = .ok .h2c := by decide

/-- R87, R88: an unused opcode and a nonzero unused field are refused, each by its name. -/
theorem test_decode_refuses :
    decode 0x00000008 = .error .unusedOpcode ∧ decode 0x00100020 = .error .nonzeroUnusedField ∧
    decode 0x00000112 = .error .nonzeroUnusedField := by decide

/-- R64: byte 0 is the least significant; other lengths are no command. -/
theorem test_decode_bytes :
    decodeBytes [0x11, 0x0E, 0x00, 0x07] = .ok (.h2f 14 7) ∧ decodeBytes [0x11, 0x0E, 0x00] = .error .notOneWord := by
  decide

theorem test_table_word :
    decodeTableWord 32 0x07000E11 = some (.h2f 14 7) ∧ decodeTableWord 32 0x08 = none := by decide

/-- R90, R93: assembler lines. -/
theorem test_assemble :
    assemble "FADD" [.reg "s0", .reg "s0", .reg "s1"] = some 0x000FEE01 ∧
    assemble "H2F" [.reg "u", .imm 1] = some 0x01000511 ∧ assemble "H2F" [.reg "u", .imm 256] = none ∧
    assemble "FNEG" [.reg "f14", .reg "b"] = some 0x00002E02 ∧ assemble "FOO" [] = none := by decide

/-! ## One step of each instruction -/

/-- V-CTL-5. -/
theorem test_nop_completes_at_once : view (exec .nop State.reset) (seen 0) = some (0x2, 0, 0) := by decide

/-- V-FA-1. -/
theorem test_fadd_wraps :
    view (exec (.fadd 14 6 7) (running (.fadd 14 6 7) .exec (t23 [(6, 20), (7, 5)]))) (seen 14) = some (0x2, 0, 2) := by
  decide +kernel

/-- V-FA-21: the same register as source and destination. -/
theorem test_fadd_aliased :
    view (exec (.fadd 14 14 14) (running (.fadd 14 14 14) .exec (t23 [(14, 12)]))) (seen 14) = some (0x2, 0, 1) := by
  decide +kernel

/-- V-FA-3. -/
theorem test_fneg : view (exec (.fneg 14 6) (running (.fneg 14 6) .exec (t23 [(6, 5)]))) (seen 14) = some (0x2, 0, 18) := by
  decide +kernel

/-- V-FA-4. -/
theorem test_fneg_zero : view (exec (.fneg 14 6) (running (.fneg 14 6) .exec (t23 []))) (seen 14) = some (0x2, 0, 0) := by
  decide +kernel

/-- V-FA-6. -/
theorem test_fmul :
    view (exec (.fmul 14 6 7) (running (.fmul 14 6 7) .exec (t23 [(6, 22), (7, 22)]))) (seen 14) = some (0x2, 0, 1) := by
  decide +kernel

/-- V-FA-17: P = 2^255 − 19. -/
theorem test_fmul_wide :
    view (exec (.fmul 14 6 7) (running (.fmul 14 6 7) .exec [(0, 2 ^ 255 - 19), (6, 2 ^ 255 - 20), (7, 2 ^ 255 - 20)]))
      (seen 14) = some (0x2, 0, 1) := by
  decide +kernel

/-- V-FA-7. -/
theorem test_fsqr : view (exec (.fsqr 14 7) (running (.fsqr 14 7) .exec (t23 [(7, 22)]))) (seen 14) = some (0x2, 0, 1) := by
  decide +kernel

/-- V-FA-8. -/
theorem test_fcube :
    view (exec (.fcube 14 6) (running (.fcube 14 6) .exec (t23 [(6, 3)]))) (seen 14) = some (0x2, 0, 4) := by
  decide +kernel

/-- V-FA-19: FINV of 2 over P = 2^255 − 19 is (P + 1)/2. -/
theorem test_finv_wide :
    view (exec (.finv 14 6) (running (.finv 14 6) .exec [(0, 2 ^ 255 - 19), (6, 2)])) (seen 14)
      = some (0x2, 0, 2 ^ 254 - 9) := by
  decide +kernel

/-- V-FA-12. -/
theorem test_finv_zero : view (exec (.finv 14 6) (running (.finv 14 6) .exec (t23 []))) (seen 14) = some (0x2, 0, 0) := by
  decide +kernel

/-- V-FA-13. -/
theorem test_geval :
    view (exec (.geval 15 6) (running (.geval 15 6) .exec (t23 [(6, 3)]))) (seen 15) = some (0x2, 0, 8) := by
  decide +kernel

/-- V-FA-15: A = 0 is no error. -/
theorem test_geval_zero_a :
    view (exec (.geval 15 6) (running (.geval 15 6) .exec [(0, 23), (2, 1), (6, 2)])) (seen 15) = some (0x2, 0, 9) := by
  decide +kernel

/-- V-CTL-19: FR3 kept, FR4 and FR15 cleared. -/
theorem test_clrw :
    view (exec .clrw (running .clrw .exec (t23 [(4, 7), (15, 9)]))) (fun t => (seen 4 t, t.reg 3, t.reg 15))
      = some ((0x2, 0, 0), 28, 0) := by
  decide +kernel

/-- V-VAL-4: A = 24 reads as 1. -/
theorem test_validate_passes :
    view (exec .validate (running .validate .validate [(0, 23), (1, 24), (2, 1)])) (seen 1) = some (0x2, 0, 24) := by
  decide +kernel

/-- V-VAL-3: B = 23 reads as 0. -/
theorem test_validate_refuses :
    view (exec .validate (running .validate .validate [(0, 23), (1, 1), (2, 23)])) (seen 2) = some (0x12, 0x1, 23) := by
  decide +kernel

/-- V-H2F-4: ff × 17, counter 7, reduced by N = 28 to 15. -/
theorem test_h2f_reduces :
    view (exec (.h2f 14 7) (withResponse (List.replicate 17 0xFF) (running (.h2f 14 7) .deriveT (t23 [])))) (seen 14)
      = some (0x2, 0, 15) := by
  decide +kernel

/-- V-H2F-9: 16 bytes. -/
theorem test_h2f_short_response :
    view (exec (.h2f 4 0) (withResponse (List.replicate 16 0xFF) (running (.h2f 4 0) .deriveT (t23 [(4, 3)])))) (seen 4)
      = some (0x22, 0x00100002, 3) := by
  decide +kernel

/-- V-CGEN-5: X3F = 0 on T23 with (T, U) = (3, 2). -/
theorem test_cgen_code_form :
    view (exec .cgen (running .cgen .generate (t23 [(4, 3), (5, 2)])))
      (fun t => (seen 6 t, [t.reg 7, t.reg 8, t.reg 9, t.reg 10, t.reg 11]))
      = some ((0x2, 0, 2), [11, 15, 10, 15, 10]) := by
  decide +kernel

/-- V-CGEN-4: X3F = 2. -/
theorem test_cgen_identity_form :
    view (exec .cgen { running .cgen .generate (t23 [(4, 3), (5, 2)]) with ctrl := ⟨.identity, false, false⟩ })
      (fun t => [t.reg 10, t.reg 11]) = some [13, 3] := by
  decide +kernel

/-- V-SCHK-1. -/
theorem test_schk_passes :
    view (exec .schk (running .schk .selfcheck (t23 [(4, 1), (7, 11), (9, 8), (11, 22)]))) (seen 4) = some (0x2, 0, 1) := by
  decide +kernel

/-- V-SCHK-2. -/
theorem test_schk_fails :
    view (exec .schk (running .schk .selfcheck (t23 [(4, 1), (7, 11), (9, 8), (11, 9)]))) (seen 4) = some (0x32, 0x5, 1) := by
  decide +kernel

/-- V-SEL-2: candidate 2 is taken. -/
theorem test_select_second :
    view (exec .select (withRoots false true false 0 10 0 (running .select .select (t23 [(6, 2), (8, 3), (10, 10)]))))
      (fun t => (seen 12 t, t.reg 13)) = some ((0x6, 0, 3), 10) := by
  decide +kernel

/-- V-SEL-5: no candidate is valid. -/
theorem test_select_none :
    view (exec .select (withRoots false false false 0 0 0
      (running .select .select (t23 [(6, 2), (8, 8), (10, 10), (12, 3), (13, 10)])))) (fun t => (seen 12 t, t.reg 13))
      = some ((0x42, 0x7, 0), 0) := by
  decide +kernel

/-- V-H2C-3: a failing self-check clears FR12 and FR13. -/
theorem test_h2c_clears_the_point :
    view (exec .h2c (running .h2c .selfcheck (t101 ++ [(4, 30), (7, 68), (9, 31), (11, 30), (12, 5), (13, 6)])))
      (fun t => (seen 12 t, t.reg 13)) = some ((0x32, 0x5, 0), 0) := by
  decide +kernel

/-- V-H2C-1: u from counter 1 goes to FR5, then GENERATE (resp1 of section 2.2; N = 105 gives 38). -/
theorem test_h2c_derives_u :
    view (exec .h2c (withResponse
      [0x79, 0x97, 0xfa, 0xde, 0x2e, 0xe4, 0xb4, 0x6d, 0x03, 0x4d, 0x22, 0x42, 0x09, 0x81, 0x5b, 0x25, 0xaf]
      (running .h2c .deriveU t101))) (seen 5) = some (0x401, 0, 38) := by
  decide +kernel

/-! ## The collaborators -/

/-- The MIN root of 8 modulo 23 is 10 (§ head); 11 has none. -/
theorem test_sqrt_answers :
    leastRoot 23 8 = some 10 ∧ leastRoot 23 11 = none ∧ leastRoot 23 0 = some 0 ∧ isOddPrime 23 = true ∧
    isOddPrime 25 = false := by decide +kernel

/-- V-H2F-4: the request's label and length. -/
theorem test_kdf_request :
    (kdfRequest 7 (idleWith (t23 []))).info = [0x48, 0x32, 0x43, 0x07, 0x00] ∧
    (kdfRequest 7 (idleWith (t23 []))).outLen = 17 := by decide +kernel

/-- L1-2: L for 255, 381 and 521 bits. -/
theorem test_output_length : outLen (2 ^ 255 - 19) = 48 ∧ outLen (2 ^ 380) = 64 ∧ outLen (2 ^ 520) = 82 := by
  decide +kernel

/-! ## The window -/

/-- V-CTL-1, V-CTL-2. -/
theorem test_id_and_cfg :
    (busRead .w32 0x000 State.reset).env.bus = .data 0x48324301 ∧
    (busRead .w32 0x004 State.reset).env.bus = .data 0x00800100 := by decide

/-- V-CTL-3: X3F = 3 is not stored. -/
theorem test_ctrl_warl : view (busWrite .w32 0x008 0xFFFFFFFF State.reset) (fun t => ctrlWord t.ctrl) = some 0x0000000C := by
  decide

/-- V-CTL-6: an illegal word. -/
theorem test_illegal_word : view (busWrite .w32 0x00C 0x00000008 State.reset) (seen 0) = some (0x52, 0, 0) := by decide

/-- V-CTL-12: a CMD write while BUSY = 1 sets BWE. -/
theorem test_cmd_while_busy :
    view (busWrite .w32 0x00C 0 (running .h2c .validate t101)) (fun t => (statusWord t.status, t.cmdl))
      = some (0x109, 0x20) := by
  decide

/-- V-CTL-15: an 8-bit write gets a bus error. -/
theorem test_narrow_write :
    view (busWrite .w8 0x008 0x7 State.reset) (fun t => (t.env.bus, ctrlWord t.ctrl)) = some (.error, 0) := by decide

/-- V-CTL-17: a write of FR12 clears PV. -/
theorem test_point_write_clears_pv :
    view (busWrite .w32 0xA00 5 { idleWith [(12, 9)] with status := { State.reset.status with pv := true } })
      (fun t => (t.reg 12, t.status.pv)) = some (5, false) := by
  decide +kernel

/-- V-CTL-18. -/
theorem test_pbits : (busRead .w32 0x028 (idleWith (t23 []))).env.bus = .data 0x5 := by decide +kernel

/-- R9, R23, R28: with FW = 1024, word 31 of FR[1] is stored and CFG reads the width; with FW = 64, word 2 is reserved. -/
theorem test_other_widths :
    (let s : State := { State.reset with env := { State.reset.env with fw := ⟨30⟩ } }
     (busRead .w32 0x004 s).env.bus = .data 0x00800400 ∧
       view (busWrite .w32 0x4FC 0x5 s) (fun t => t.reg 1) = some (5 * 2 ^ (32 * 31))) ∧
    (let s : State := { State.reset with env := { State.reset.env with fw := ⟨0⟩ } }
     (busRead .w32 0x004 s).env.bus = .data 0x00800040 ∧ view (busWrite .w32 0x488 0x5 s) (fun t => t.reg 1) = some 0) := by
  decide +kernel

/-- R78, R200: while BUSY = 1 a store of the value a described byte has changes nothing, a store of another value does. -/
theorem test_described_byte :
    let s : State := { running .h2c .validate t101 with
      kdf := ⟨1, 0x80, 1, 0x90, 0⟩
      env := { State.reset.env with mem := [(0x80, 0x41)] } }
    view (hostOp (.bufWrite 0x80 0x41) s) (fun t => t.env.touched) = some false ∧
      view (hostOp (.bufWrite 0x80 0x42) s) (fun t => t.env.touched) = some true ∧
      view (hostOp (.bufDrop 0x80) s) (fun t => t.env.touched) = some true := by decide +kernel

/-! ## The offered word runs as the next command -/

theorem test_fetch_word :
    view (step (State.reset.withFetchWord 32 0x00000020)) (fun t => (statusWord t.status, t.cmdl)) = some (0x101, 0x20) := by
  decide

theorem test_fetch_word_while_busy :
    view (step ((running .h2c .deriveT t101).withFetchWord 32 0x0000000F)) (fun t => (statusWord t.status, t.cmdl))
      = some (0x801, 0xF) := by
  decide

/-! ## The hypotheses of the statements can be met -/

theorem prime_23 : Nat.Prime 23 := by norm_num
theorem prime_101 : Nat.Prime 101 := by norm_num

theorem met_DecodeAndEncodeAgree : decode 0x07000E11 = .ok (.h2f 14 7) := by decide

theorem met_LegalWordsAreTheRows : decode 0x000FEE01 = .ok (.fadd 14 14 15) ∧ Op.fadd.selectedBy 0x000FEE01 = true := by
  decide

/-- The test message and tag, and the two responses of section 2.2. -/
def msgBytes : List Byte := [0x74, 0x65, 0x73, 0x74, 0x2d, 0x6d, 0x65, 0x73, 0x73, 0x61, 0x67, 0x65]
def tagBytes : List Byte := [0x68, 0x32, 0x63, 0x2d, 0x74, 0x65, 0x73, 0x74, 0x2d, 0x76, 0x31]
def resp0 : List Byte :=
  [0x2e, 0x33, 0xde, 0x77, 0x2c, 0x23, 0x3b, 0xed, 0x09, 0xf0, 0x59, 0x6d, 0x28, 0xe3, 0x6f, 0xea, 0xb7]
def resp1 : List Byte :=
  [0x79, 0x97, 0xfa, 0xde, 0x2e, 0xe4, 0xb4, 0x6d, 0x03, 0x4d, 0x22, 0x42, 0x09, 0x81, 0x5b, 0x25, 0xaf]

/-- Bytes laid at an address. -/
def cells (a : Nat) (bs : List Byte) : Memory := (List.range bs.length).zipWith (fun i b => (a + i, b)) bs

/-- H2C just accepted, in the setup of V-H2C-1 (program P4). -/
def h2cStart : State :=
  let s := running .h2c .validate t101
  let k : KdfRegs := ⟨1, 0x80000000, 12, 0x80000010, 11⟩
  let req (c : Byte) : KdfRequest := kdfRequest c { s with kdf := k }
  { s with
    ctrl := ⟨.identity, false, false⟩
    kdf := k
    env := { s.env with
      mem := cells 0x80000000 msgBytes ++ cells 0x80000010 tagBytes
      kdfBook := [⟨req 0, msgBytes, tagBytes, resp0⟩, ⟨req 1, msgBytes, tagBytes, resp1⟩] } }

theorem h2cStart_inv : h2cStart.Inv :=
  State.inv_of_hid_cleared rfl (by decide) (by decide +kernel) (by decide) (fun _ => ⟨.h2c, by decide, by decide⟩) (fun _ => by decide)
    fun _ _ => by decide

/-- The request step of DERIVE_T. -/
def h2cDerive : State := { h2cStart with status := { h2cStart.status with state := .deriveT } }

theorem h2cDerive_inv : h2cDerive.Inv :=
  State.inv_of_hid_cleared rfl (by decide) (by decide +kernel) (by decide) (fun _ => ⟨.h2c, by decide, by decide⟩) (fun _ => by decide)
    fun _ _ => by decide

theorem met_StepKeepsTheInvariant : h2cStart.Inv ∧ step h2cStart = .next (nextOf (step h2cStart)) :=
  ⟨h2cStart_inv, eq_nextOf (by decide +kernel)⟩

theorem met_NoStepStops : State.reset.Inv ∧ h2cDerive.Inv :=
  ⟨State.inv_of_idle rfl rfl rfl (by decide) (by decide +kernel), h2cDerive_inv⟩

theorem met_RunningCommandCompletes : h2cStart.Inv ∧ h2cStart.status.busy = true ∧ h2cStart.env.schedule = [] :=
  ⟨h2cStart_inv, by decide, by decide⟩

theorem met_SequencerStepRunsTheLatchedCommand :
    nextAgent h2cStart = .sequencer ∧ h2cStart.status.busy = true ∧ decode h2cStart.cmdl = .ok .h2c := by decide

theorem met_CommandWriteRunsItsWord :
    let s := State.reset.withProgram [.write .w32 0x00C 0x0000000F, .waitIdle]
    nextAgent s = .host ∧ s.env.hostOps = .write .w32 0x00C 0x0000000F :: [.waitIdle] ∧ s.status.busy = false ∧
      decode 0x0000000F = .ok .clrw := by decide

/-- AcceptanceStartsTheFirstPhase, IllegalWordOnlyReports, NopCompletesAtAcceptance: an idle block, legal and illegal words. -/
theorem met_acceptance :
    State.reset.status.busy = false ∧ Instr.select ≠ .nop ∧ Instr.fadd 1 2 3 ≠ .nop ∧ Instr.h2c ≠ .nop ∧ Instr.schk ≠ .nop ∧
      decode 0x00010002 = .error .nonzeroUnusedField := by decide

theorem met_ClearWorkingRegisters : RunningIn .exec (running .clrw .exec (t23 [(4, 7)])) := ⟨rfl, rfl⟩

/-- AddAndNegate, MultiplySquareCube, CurvePolynomialIsEvaluated: at the least modulus and at T23. -/
theorem met_field_commands :
    RunningIn .exec (running (.fadd 14 6 7) .exec [(0, 2), (6, 3)]) ∧
      2 ≤ (running (.fadd 14 6 7) .exec [(0, 2), (6, 3)]).p ∧
      RunningIn .exec (running (.geval 15 6) .exec (t23 [(6, 3)])) ∧ 2 ≤ (running (.geval 15 6) .exec (t23 [(6, 3)])).p :=
  ⟨⟨rfl, rfl⟩, by decide +kernel, ⟨rfl, rfl⟩, by decide +kernel⟩

theorem met_InverseIsThePower :
    let s := running (.finv 14 6) .exec (t23 [(6, 5)])
    RunningIn .exec s ∧ 2 ≤ s.p ∧ Nat.Prime s.p ∧ s.reg 6 % s.p ≠ 0 := by
  have hp : (running (.finv 14 6) .exec (t23 [(6, 5)])).p = 23 := by decide +kernel
  refine ⟨⟨rfl, rfl⟩, by decide +kernel, ?_, by decide +kernel⟩
  rw [hp]; exact prime_23

/-- P = 0 and P = 1. -/
theorem met_FieldCommandsCompleteOnABadModulus :
    RunningIn .exec (running (.fmul 14 6 7) .exec []) ∧ (running (.fmul 14 6 7) .exec []).p ≤ 1 ∧
      RunningIn .exec (running (.fmul 14 6 7) .exec [(0, 1)]) ∧ (running (.fmul 14 6 7) .exec [(0, 1)]).p ≤ 1 :=
  ⟨⟨rfl, rfl⟩, by decide +kernel, ⟨rfl, rfl⟩, by decide +kernel⟩

/-- Both branches: V-VAL-3 and V-VAL-4. -/
theorem met_ValidateChecksTheCurve :
    let bad := running .validate .validate [(0, 23), (1, 1), (2, 23)]
    let good := running .validate .validate [(0, 23), (1, 24), (2, 1)]
    RunningIn .validate bad ∧ 1 ≤ bad.p ∧ bad.cmdl = encode .validate ∧ bad.reg 2 % bad.p = 0 ∧
      RunningIn .validate good ∧ 1 ≤ good.p ∧ good.cmdl = encode .validate ∧ good.reg 1 % good.p ≠ 0 ∧
      good.reg 2 % good.p ≠ 0 :=
  ⟨⟨rfl, rfl⟩, by decide +kernel, rfl, by decide +kernel, ⟨rfl, rfl⟩, by decide +kernel, rfl, by decide +kernel,
    by decide +kernel⟩

/-- Each of the three commands, on a curve with a = 0 and on T23. -/
theorem met_HashingCommandsCheckTheCurveFirst :
    ∀ i ∈ [Instr.h2f 4 0, .cgen, .h2c],
      (let bad := running i .validate [(0, 23), (1, 0), (2, 1)]
       RunningIn .validate bad ∧ 1 ≤ bad.p ∧ bad.cmdl = encode i ∧ bad.reg 1 % bad.p = 0) ∧
      (let good := running i .validate (t23 [])
       RunningIn .validate good ∧ 1 ≤ good.p ∧ good.cmdl = encode i ∧ good.reg 1 % good.p ≠ 0 ∧
         good.reg 2 % good.p ≠ 0) := by
  intro i hi
  simp only [List.mem_cons, List.not_mem_nil, or_false] at hi
  rcases hi with rfl | rfl | rfl <;>
    exact ⟨⟨⟨rfl, rfl⟩, by decide +kernel, rfl, by decide +kernel⟩,
      ⟨rfl, rfl⟩, by decide +kernel, rfl, by decide +kernel, by decide +kernel⟩

theorem met_OnlyDerivePhasesIssueKdfRequests :
    h2cDerive.Inv ∧ turn .sequencer h2cDerive = .next (nextOf (turn .sequencer h2cDerive)) ∧
      h2cDerive.hid.kdfReq = none ∧ (nextOf (turn .sequencer h2cDerive)).hid.kdfReq ≠ none :=
  ⟨h2cDerive_inv, eq_nextOf (by decide +kernel), by decide, by decide +kernel⟩

/-- The three derivations, before the request and while it is outstanding. -/
theorem met_DerivationIssuesTheRequest :
    (let s := running (.h2f 14 7) .deriveT (t23 [])
     RunningIn .deriveT s ∧ s.hid.kpend = false ∧ s.hid.krspRdy = false ∧ (withRequest 7 s).hid.kpend = true ∧
       RunningIn .deriveT (withRequest 7 s)) ∧
    (let s := running .h2c .deriveT (t23 [])
     RunningIn .deriveT s ∧ s.hid.kpend = false ∧ s.hid.krspRdy = false) ∧
    (let s := running .h2c .deriveU (t23 [])
     RunningIn .deriveU s ∧ s.hid.kpend = false ∧ s.hid.krspRdy = false) :=
  ⟨⟨⟨rfl, rfl⟩, rfl, rfl, rfl, rfl, rfl⟩, ⟨⟨rfl, rfl⟩, rfl, rfl⟩, ⟨rfl, rfl⟩, rfl, rfl⟩

/-- The state of V-H2F-1 just before the response is consumed. -/
def h2fReady : State := withResponse (resp17 0x1d) (running (.h2f 4 0) .deriveT (t23 []))

/-- REDSEL = 0 with N ≠ 0, and REDSEL = 1 with N = 0. -/
theorem met_H2fWritesTheReducedResponse :
    RunningIn .deriveT h2fReady ∧ 1 ≤ h2fReady.p ∧ h2fReady.hid.kpend = false ∧ h2fReady.hid.krspRdy = true ∧
      h2fReady.hid.krsp.length = (bitlen h2fReady.p + 135) / 8 ∧ h2fReady.reg 3 ≠ 0 ∧
      (let s := { withResponse (resp17 0x1d) (running (.h2f 4 0) .deriveT [(0, 23)]) with ctrl := ⟨.code, true, false⟩ }
       RunningIn .deriveT s ∧ 1 ≤ s.p ∧ s.hid.krsp.length = (bitlen s.p + 135) / 8 ∧ s.ctrl.redsel = true) :=
  ⟨⟨rfl, rfl⟩, by decide +kernel, rfl, rfl, by decide +kernel, by decide +kernel, ⟨rfl, rfl⟩, by decide +kernel,
    by decide +kernel, rfl⟩

/-- V-H2F-13, and the same curve in both DERIVE phases of H2C. -/
theorem met_H2fWithZeroOrderCompletes :
    ∀ ip ∈ [(Instr.h2f 4 0, Phase.deriveT), (.h2c, .deriveT), (.h2c, .deriveU)],
      let s := withResponse (resp17 0x1d) (running ip.1 ip.2 [(0, 23), (1, 1), (2, 1)])
      RunningIn ip.2 s ∧ 1 ≤ s.p ∧ s.hid.kpend = false ∧ s.hid.krspRdy = true ∧
        s.hid.krsp.length = (bitlen s.p + 135) / 8 ∧ s.ctrl.redsel = false ∧ s.reg 3 = 0 := by
  intro ip hip
  simp only [List.mem_cons, List.not_mem_nil, or_false] at hip
  rcases hip with rfl | rfl | rfl <;>
    exact ⟨⟨rfl, rfl⟩, by decide +kernel, rfl, rfl, by decide +kernel, rfl, by decide +kernel⟩

theorem met_H2cDerivesTThenU :
    (let s := withResponse resp0 (running .h2c .deriveT t101)
     RunningIn .deriveT s ∧ 1 ≤ s.p ∧ s.hid.kpend = false ∧ s.hid.krspRdy = true ∧
       s.hid.krsp.length = (bitlen s.p + 135) / 8 ∧ s.reg 3 ≠ 0) ∧
    (let s := withResponse resp1 (running .h2c .deriveU t101)
     RunningIn .deriveU s ∧ 1 ≤ s.p ∧ s.hid.kpend = false ∧ s.hid.krspRdy = true ∧
       s.hid.krsp.length = (bitlen s.p + 135) / 8 ∧ s.reg 3 ≠ 0) :=
  ⟨⟨⟨rfl, rfl⟩, by decide +kernel, rfl, rfl, by decide +kernel, by decide +kernel⟩, ⟨rfl, rfl⟩, by decide +kernel, rfl, rfl,
    by decide +kernel, by decide +kernel⟩

/-- V-H2F-10 (length 0) for H2F, and one byte too many for H2C in both phases. -/
theorem met_WrongResponseLengthIsReported :
    (let s := withResponse [] (running (.h2f 4 0) .deriveT (t23 []))
     s.status.busy = true ∧ s.hid.kpend = false ∧ s.hid.krspRdy = true ∧ s.hid.krsp.length ≠ (bitlen s.p + 135) / 8 ∧
       s.status.state = .deriveT ∧ s.cmdl = encode (.h2f 4 0)) ∧
    (let s := withResponse (0 :: resp0) (running .h2c .deriveU t101)
     s.status.busy = true ∧ s.hid.kpend = false ∧ s.hid.krspRdy = true ∧ s.hid.krsp.length ≠ (bitlen s.p + 135) / 8 ∧
       s.status.state = .deriveU ∧ s.cmdl = encode .h2c) :=
  ⟨⟨rfl, rfl, rfl, by decide +kernel, rfl, rfl⟩, rfl, rfl, rfl, by decide +kernel, rfl, rfl⟩

theorem met_KdfAnswersWithItsFunction :
    let s := withRequest 0 h2cDerive
    s.hid.kpend = true ∧ s.hid.kdfReq = some (kdfRequest 0 h2cDerive) ∧ s.env.touched = false ∧
      Memory.readBytes s.env.mem (kdfRequest 0 h2cDerive).msgAddr.toNat (kdfRequest 0 h2cDerive).msgLen.toNat
        = some msgBytes ∧
      Memory.readBytes s.env.mem (kdfRequest 0 h2cDerive).dstAddr.toNat (kdfRequest 0 h2cDerive).dstLen.toNat
        = some tagBytes :=
  ⟨rfl, rfl, rfl, by decide +kernel, by decide +kernel⟩

/-- The setup of V-CGEN-4 in GENERATE. -/
def cgenReady : State :=
  { running .cgen .generate (t23 [(4, 3), (5, 2)]) with ctrl := ⟨.identity, false, false⟩ }

/-- The setup of V-CGEN-10 (g1 = 0) and of V-CGEN-11 (g1 ≠ 0), with d = 0. -/
def cgenExceptional (t u : Nat) : State :=
  { running .cgen .generate (t23 [(4, t), (5, u)]) with ctrl := ⟨.identity, false, false⟩ }

/-- SCHK running on the registers another state left. -/
def schkOn (t : State) : State := { running .schk .selfcheck [] with fr := t.fr }

theorem met_GenerateWritesTheCandidates : RunningIn .generate cgenReady ∧ 2 ≤ cgenReady.p :=
  ⟨⟨rfl, rfl⟩, by decide +kernel⟩

/-- SelfcheckCommandReports and SelfcheckPhaseOfH2c: V-SCHK-1 passes, V-SCHK-2 fails. -/
theorem met_selfcheck :
    (let s := running .schk .selfcheck (t23 [(4, 1), (7, 11), (9, 8), (11, 22)])
     RunningIn .selfcheck s ∧ 1 ≤ s.p ∧ s.cmdl = encode .schk ∧ SelfcheckHolds s) ∧
    (let s := running .h2c .selfcheck (t23 [(4, 1), (7, 11), (9, 8), (11, 9)])
     RunningIn .selfcheck s ∧ 1 ≤ s.p ∧ s.cmdl = encode .h2c ∧ ¬ SelfcheckHolds s) :=
  ⟨⟨⟨rfl, rfl⟩, by decide +kernel, rfl, by unfold SelfcheckHolds; decide +kernel⟩, ⟨rfl, rfl⟩, by decide +kernel, rfl,
    by unfold SelfcheckHolds; decide +kernel⟩

theorem met_SelfcheckPassesWhenDenominatorNonzero :
    let s := cgenReady
    let t := nextOf (exec .cgen s)
    RunningIn .generate s ∧ s.ctrl.x3f = .identity ∧ Nat.Prime s.p ∧ s.p ≠ 2 ∧ s.reg 1 % s.p ≠ 0 ∧
      s.reg 2 % s.p ≠ 0 ∧
      ((s.reg 4 % s.p) ^ 4 * specG s (s.reg 5 % s.p) ^ 2
        + (s.reg 4 % s.p) ^ 2 * specG s (s.reg 5 % s.p)) % s.p ≠ 0 ∧ exec .cgen s = .next t ∧
      RunningIn .selfcheck (schkOn t) ∧ (schkOn t).fr = t.fr := by
  have hp : cgenReady.p = 23 := by decide +kernel
  refine ⟨⟨rfl, rfl⟩, rfl, ?_, by decide +kernel, by decide +kernel, by decide +kernel, by decide +kernel,
    eq_nextOf (by decide +kernel), ⟨rfl, rfl⟩, rfl⟩
  rw [hp]; exact prime_23

/-- Both sides of the equivalence: V-CGEN-10 has g1 = 0, V-CGEN-11 has g1 ≠ 0 and g2 ≠ 0. -/
theorem met_SelfcheckOnTheExceptionalSet :
    (∀ tu ∈ [(1, 4), (1, 22)],
      let s := cgenExceptional tu.1 tu.2
      let t := nextOf (exec .cgen s)
      RunningIn .generate s ∧ s.ctrl.x3f = .identity ∧ Nat.Prime s.p ∧ s.p ≠ 2 ∧ s.reg 1 % s.p ≠ 0 ∧
        s.reg 2 % s.p ≠ 0 ∧
        ((s.reg 4 % s.p) ^ 4 * specG s (s.reg 5 % s.p) ^ 2
          + (s.reg 4 % s.p) ^ 2 * specG s (s.reg 5 % s.p)) % s.p = 0 ∧ exec .cgen s = .next t ∧
        RunningIn .selfcheck (schkOn t) ∧ (schkOn t).fr = t.fr) ∧
    (nextOf (exec .cgen (cgenExceptional 1 4))).reg 7 = 0 ∧ (nextOf (exec .cgen (cgenExceptional 1 22))).reg 7 ≠ 0 := by
  have h4 : (cgenExceptional 1 4).p = 23 := by decide +kernel
  have h22 : (cgenExceptional 1 22).p = 23 := by decide +kernel
  refine ⟨?_, by decide +kernel, by decide +kernel⟩
  intro tu htu
  simp only [List.mem_cons, List.not_mem_nil, or_false] at htu
  rcases htu with rfl | rfl
  · refine ⟨⟨rfl, rfl⟩, rfl, ?_, by decide +kernel, by decide +kernel, by decide +kernel, by decide +kernel,
      eq_nextOf (by decide +kernel), ⟨rfl, rfl⟩, rfl⟩
    show Nat.Prime (cgenExceptional 1 4).p
    rw [h4]; exact prime_23
  · refine ⟨⟨rfl, rfl⟩, rfl, ?_, by decide +kernel, by decide +kernel, by decide +kernel, by decide +kernel,
      eq_nextOf (by decide +kernel), ⟨rfl, rfl⟩, rfl⟩
    show Nat.Prime (cgenExceptional 1 22).p
    rw [h22]; exact prime_23

/-- SELECT at the start of the SQRT phase, in the setup of V-SEL-2, whose G are values of g on T23. -/
def selectStart : State := running .select .sqrt (t23 [(6, 2), (7, 11), (8, 3), (9, 8), (10, 10), (11, 22)])

/-- SELECT in round j of the SQRT phase. -/
def selectRound (j : BitVec 2) : State := { selectStart with hid := { selectStart.hid with sqidx := j } }

/-- SELECT with a request at the SQRT collaborator. -/
def selectAsked : State :=
  { selectStart with hid := { selectStart.hid with sqidx := 2, sqpend := true, sqrtReq := some ⟨23, 8⟩ } }

/-- SELECT with an answer for candidate j. -/
def selectAnswered (j : BitVec 2) (valid : Bool) : State :=
  { selectStart with hid := { selectStart.hid with sqidx := j, sqrtAns := some (valid, 10) } }

/-- Each round, the first one with SQIDX 0 and 1, and a round with the request outstanding. -/
theorem met_SqrtPhaseIssuesTheRequests :
    RunningIn .sqrt selectStart ∧ 1 ≤ selectStart.p ∧ selectStart.hid.sqidx = 0 ∧ selectStart.hid.sqpend = false ∧
      selectStart.hid.sqrtAns = none ∧
      (∀ j ∈ [1, 2, 3], RunningIn .sqrt (selectRound (BitVec.ofNat 2 j)) ∧
        (selectRound (BitVec.ofNat 2 j)).hid.sqidx = BitVec.ofNat 2 j) ∧
      RunningIn .sqrt selectAsked ∧ selectAsked.hid.sqidx = BitVec.ofNat 2 2 ∧ selectAsked.hid.sqpend = true :=
  ⟨⟨rfl, rfl⟩, by decide +kernel, rfl, rfl, rfl, fun _ _ => ⟨⟨rfl, rfl⟩, rfl⟩, ⟨rfl, rfl⟩, rfl, rfl⟩

theorem met_SqrtPhaseStoresTheAnswers :
    ∀ j ∈ [0, 1, 2], let s := selectAnswered (BitVec.ofNat 2 (j + 1)) true
      j < 3 ∧ RunningIn .sqrt s ∧ s.hid.sqpend = false ∧ s.hid.sqrtAns = some (true, 10) ∧
        s.hid.sqidx = BitVec.ofNat 2 (j + 1) := by
  intro j hj
  refine ⟨?_, ⟨rfl, rfl⟩, rfl, rfl, rfl⟩
  simp only [List.mem_cons, List.not_mem_nil, or_false] at hj
  omega

theorem met_SqrtAnswerKeepsTheContract :
    selectAsked.hid.sqpend = true ∧ selectAsked.hid.sqrtReq = some ⟨23, 8⟩ ∧ Nat.Prime 23 ∧ 23 ≠ 2 ∧
      8 < 23 :=
  ⟨rfl, rfl, prime_23, by decide, by decide⟩

/-- Each candidate in turn: V-SEL-1, V-SEL-2, V-SEL-3. -/
theorem met_SelectTakesTheLowestValidCandidate :
    ∀ v ∈ [(true, false, false), (false, true, false), (false, false, true)],
      let s := withRoots v.1 v.2.1 v.2.2 1 10 4 (running .select .select (t23 [(6, 0), (8, 3), (10, 5)]))
      RunningIn .select s ∧ 1 ≤ s.p ∧ s.Fits ∧ (s.hid.sqv[0] = true ∨ s.hid.sqv[1] = true ∨ s.hid.sqv[2] = true) := by
  intro v hv
  simp only [List.mem_cons, List.not_mem_nil, or_false] at hv
  rcases hv with rfl | rfl | rfl <;>
    exact ⟨⟨rfl, rfl⟩, by decide +kernel, ⟨by decide +kernel, by decide +kernel, fun _ h => nomatch h⟩, by decide +kernel⟩

/-- V-SEL-5, for both commands. -/
theorem met_SelectWithoutARootReports :
    ∀ i ∈ [Instr.select, .h2c],
      let s := withRoots false false false 0 0 0 (running i .select (t23 [(6, 2), (8, 8), (10, 10)]))
      RunningIn .select s ∧ 1 ≤ s.p ∧ s.cmdl = encode i ∧ s.hid.sqv[0] = false ∧ s.hid.sqv[1] = false ∧
        s.hid.sqv[2] = false := by
  intro i hi
  simp only [List.mem_cons, List.not_mem_nil, or_false] at hi
  rcases hi with rfl | rfl <;> exact ⟨⟨rfl, rfl⟩, by decide +kernel, rfl, rfl, rfl, rfl⟩

/-- Two different runs in each phase. -/
theorem met_SelectorTraceIgnoresTheMasks :
    (selectAnswered 1 true ≠ selectAnswered 1 false ∧
      (selectAnswered 1 true).blankRoots = (selectAnswered 1 false).blankRoots ∧ RunningIn .sqrt (selectAnswered 1 true)) ∧
    (let s := running .select .select (t23 [])
     withRoots true false false 1 0 0 s ≠ withRoots false true false 0 2 0 s ∧
       (withRoots true false false 1 0 0 s).blankRoots = (withRoots false true false 0 2 0 s).blankRoots ∧
       RunningIn .select (withRoots true false false 1 0 0 s)) :=
  ⟨⟨by decide +kernel, rfl, rfl, rfl⟩, by decide +kernel, rfl, rfl, rfl⟩

/-- The registers of V-SCHK-1, which pass, for both commands. -/
def rootsReady (i : Instr) : State := running i .sqrt (t23 [(4, 1), (7, 11), (9, 8), (11, 22)])

theorem met_PassingSelfcheckLeavesASquare :
    ∀ i ∈ [Instr.select, .h2c],
      RunningIn .sqrt (rootsReady i) ∧ (rootsReady i).cmdl = encode i ∧ (rootsReady i).hid = Hidden.cleared ∧
        (rootsReady i).env.schedule = [] ∧ Nat.Prime (rootsReady i).p ∧ (rootsReady i).p ≠ 2 ∧
        SelfcheckHolds (rootsReady i) := by
  intro i _
  exact ⟨⟨rfl, rfl⟩, rfl, rfl, rfl, prime_23, (by decide : 23 ≠ 2), (by decide : (1 ^ 3 * 11 ^ 2 * 8) ^ 2 % 23 = 11 * 8 * 22 % 23)⟩

theorem met_SelectReturnsACurvePoint :
    let s := selectStart
    RunningIn .sqrt s ∧ s.cmdl = encode .select ∧ s.hid = Hidden.cleared ∧ s.env.schedule = [] ∧ Nat.Prime s.p ∧ s.p ≠ 2 ∧
      s.p < 2 ^ s.fw ∧
      s.reg 7 % s.p = specG s (s.reg 6 % s.p) ∧
      s.reg 9 % s.p = specG s (s.reg 8 % s.p) ∧
      s.reg 11 % s.p = specG s (s.reg 10 % s.p) := by
  have hp : selectStart.p = 23 := by decide +kernel
  refine ⟨⟨rfl, rfl⟩, rfl, rfl, rfl, ?_, ?_, ?_, ?_⟩
  · rw [hp]; exact prime_23
  · rw [hp]; decide
  · rw [hp]; decide +kernel
  · decide +kernel

/-- V-H2C-1. -/
theorem met_H2cHashesToACurvePoint :
    let s := h2cStart
    s.Inv ∧ RunningIn .validate s ∧ s.cmdl = encode .h2c ∧ s.env.schedule = [] ∧ s.env.touched = false ∧ Nat.Prime s.p ∧
      s.p ≠ 2 ∧ s.reg 1 % s.p ≠ 0 ∧ s.reg 2 % s.p ≠ 0 ∧ s.reg 3 ≠ 0 ∧
      Memory.readBytes s.env.mem s.kdf.msgAddr.toNat s.kdf.msgLen.toNat = some msgBytes ∧
      Memory.readBytes s.env.mem s.kdf.dstAddr.toNat s.kdf.dstLen.toNat = some tagBytes ∧
      resp0 = kdfFunction s.env.kdfBook (kdfRequest 0 s) msgBytes tagBytes ∧
      resp1 = kdfFunction s.env.kdfBook (kdfRequest 1 s) msgBytes tagBytes ∧ resp0.length = outLen s.p ∧
      resp1.length = outLen s.p ∧ derivedValue s resp0 = 30 ∧ derivedValue s resp1 = 38 ∧
      (let c := candidates s.ctrl.x3f s.p (s.fe 1) (s.fe 2) 30 38
       selfcheckLhs s.p 30 c.g1 c.g2 = selfcheckRhs s.p c.g1 c.g2 c.g3) := by
  have hp : h2cStart.p = 101 := by decide +kernel
  have h0 : derivedValue h2cStart resp0 = 30 := by
    rw [derivedValue, ← beValue_eq_specValue]; decide +kernel
  have h1 : derivedValue h2cStart resp1 = 38 := by
    rw [derivedValue, ← beValue_eq_specValue]; decide +kernel
  refine ⟨h2cStart_inv, ⟨rfl, rfl⟩, rfl, rfl, rfl, ?_⟩
  rw [h0, h1, hp]
  refine ⟨prime_101, by decide, ?_⟩
  decide +kernel

/-- SELECT about to end with a point, and with none. -/
def selectEnding (v : Bool) : State := withRoots false v false 0 (if v then 10 else 0) 0
  (running .select .select (t23 [(6, 2), (8, 3), (10, 10)]))

/-- The steps of PointIsAllOrNothing's two cases, of a failing SCHK, and of a completion. -/
theorem met_completions :
    (∀ v ∈ [true, false], let s := selectEnding v
      s.status.busy = true ∧ latchedWritesPoint s = true ∧ sequencerTurn s = .next (nextOf (sequencerTurn s)) ∧
        (nextOf (sequencerTurn s)).status.busy = false) ∧
    (let s := running .schk .selfcheck (t23 [(4, 1), (7, 11), (9, 8), (11, 9)])
     s.status.busy = true ∧ latchedWritesPoint s = false ∧ sequencerTurn s = .next (nextOf (sequencerTurn s)) ∧
       (nextOf (sequencerTurn s)).status.busy = false ∧ (nextOf (sequencerTurn s)).status.err ≠ .ok) := by
  refine ⟨fun v hv => ?_, rfl, by decide +kernel, eq_nextOf (by decide +kernel), by decide +kernel, by decide +kernel⟩
  simp only [List.mem_cons, List.not_mem_nil, or_false] at hv
  rcases hv with rfl | rfl <;> exact ⟨rfl, by decide +kernel, eq_nextOf (by decide +kernel), by decide +kernel⟩

/-- PointIsAllOrNothing and ErrorsOfOtherCommandsWriteNothing also ask for the invariant. -/
theorem met_completions_inv :
    (∀ v ∈ [true, false], (selectEnding v).Inv) ∧
    (running .schk .selfcheck (t23 [(4, 1), (7, 11), (9, 8), (11, 9)])).Inv := by
  refine ⟨fun v hv => ?_, State.inv_of_hid_cleared rfl (by decide) (by decide +kernel) (by decide)
    (fun _ => ⟨.schk, by decide, by decide⟩) (fun _ => by decide) fun _ _ => by decide⟩
  simp only [List.mem_cons, List.not_mem_nil, or_false] at hv
  rcases hv with rfl | rfl
  all_goals
    constructor
    case running => exact fun _ => ⟨.select, by decide, by decide⟩
    case fits => exact ⟨by decide +kernel, by decide +kernel, fun _ h => nomatch h⟩
    case kdf_request => exact fun _ h => nomatch h
    case sqrt_request => exact fun _ h => nomatch h
    all_goals decide +kernel

/-- DerivationIssuesTheRequest, RegisterReads, FieldRegisterValueIsTheSumOfItsWords: registers of FW bits, the widest value
among them. -/
theorem met_fits :
    State.reset.Fits ∧ (running (.h2f 14 7) .deriveT (t23 [])).Fits ∧ (idleWith [(0, 2 ^ 256 - 1)]).Fits :=
  ⟨⟨by decide +kernel, by decide +kernel, fun _ h => nomatch h⟩, ⟨by decide +kernel, by decide +kernel, fun _ h => nomatch h⟩,
    by decide +kernel, by decide +kernel, fun _ h => nomatch h⟩

/-- BadAccessChangesNothing: a wrong width, and a misaligned offset. -/
theorem met_BadAccessChangesNothing : (AccessWidth.w8 ≠ .w32) ∧ ((0xFFE : Offset).toNat % 4 ≠ 0) := by decide

/-- ReservedOffsetsReadZero: the ends of each range. -/
theorem met_ReservedOffsetsReadZero :
    (∀ off ∈ [(0x030 : Offset), 0x3FC, 0xC00, 0xFFC], off.toNat % 4 = 0 ∧
      ((0x030 ≤ off.toNat ∧ off.toNat < 0x400) ∨ 0xC00 ≤ off.toNat)) ∧
    (0x420 : Offset).toNat = 0x400 + 0x80 * (0 : RegIdx).val + 4 * 8 ∧ State.reset.nw ≤ 8 ∧
    (0xBFC : Offset).toNat = 0x400 + 0x80 * (15 : RegIdx).val + 4 * 31 ∧ State.reset.nw ≤ 31 := by decide

/-- FieldRegisterWordWriteReadsBack, ControlWriteReadsBack, DescriptorWritesStore, InterruptFollowsDoneAndIe: an idle block,
the first and the last word, IE cleared. -/
theorem met_idle_writes :
    State.reset.status.busy = false ∧ 0 < State.reset.nw ∧ 7 < State.reset.nw ∧ (0x00000007 : Word).getLsbD 3 = false ∧
      hostOp (.write .w32 0x010 0x00000002) State.reset = .next (nextOf (hostOp (.write .w32 0x010 0x00000002) State.reset)) ∧
      hostOp (.write .w32 0x008 0x00000007) State.reset = .next (nextOf (hostOp (.write .w32 0x008 0x00000007) State.reset)) ∧
      exec .h2c State.reset = .next (nextOf (exec .h2c State.reset)) :=
  ⟨rfl, by decide, by decide, by decide, eq_nextOf (by decide), eq_nextOf (by decide), eq_nextOf (by decide)⟩

/-- WritesWhileBusyAreRefused: the ends of each range, and CMD. -/
theorem met_WritesWhileBusyAreRefused :
    h2cStart.status.busy = true ∧ (∀ off ∈ [(0x400 : Offset), 0xBFC, 0x00C, 0x010, 0x030, 0x3FC, 0xC00, 0xFFC],
        off.toNat % 4 = 0) ∧
      (0x400 ≤ (0xBFC : Offset).toNat ∧ (0xBFC : Offset).toNat < 0xC00) ∧
      (0x030 ≤ (0x3FC : Offset).toNat ∧ (0x3FC : Offset).toNat < 0x400) ∧ 0xC00 ≤ (0xC00 : Offset).toNat := by decide

/-- NopCompletesAtAcceptance and WindowDoesNotReachHiddenState: a word with OPC 0 that is not 0, a busy block, a write with a next
state at another offset. -/
theorem met_nop_and_hidden :
    (fieldsOf 0x00000100).opc = 0 ∧ (0x00000100 : Word) ≠ 0 ∧ h2cStart.status.busy = true ∧
      busWrite .w32 0x400 5 State.reset = .next (nextOf (busWrite .w32 0x400 5 State.reset)) ∧ (0x400 : Offset) ≠ 0x00C :=
  ⟨by decide, by decide, rfl, eq_nextOf (by decide +kernel), by decide⟩

/-- OperandsAreStableWhileBusy: a turn of each agent it names. -/
theorem met_OperandsAreStableWhileBusy :
    h2cStart.status.busy = true ∧ turn .host h2cStart = .next (nextOf (turn .host h2cStart)) ∧
      turn .kdf (withRequest 0 h2cDerive) = .next (nextOf (turn .kdf (withRequest 0 h2cDerive))) ∧
      turn .sqrt selectAsked = .next (nextOf (turn .sqrt selectAsked)) :=
  ⟨rfl, rfl, rfl, rfl⟩

theorem met_HostBytesReadBack : h2cStart.env.mem.wf = true := by decide +kernel

end Sys2Proof.Tests
end

section
/-! SUPPORT. The phase steps of all commands in one list, and what every one of them keeps: the layer between `exec` and
the statements about any step of the sequencer. -/

namespace Sys2Proof.Machine

/-! ### The phase steps of a command -/

/-- The phase steps of a command, as its meaning hands them to `runCommand` (R199). NOP has none. -/
def bodyOf : Instr → Phase → Option (State → PhaseEnd)
  | .nop => fun _ => none
  | .fadd rd rs1 rs2 => execOnly (arithPhase rd fun s => (s.fe rs1 + s.fe rs2) % s.p)
  | .fneg rd rs1 => execOnly (arithPhase rd fun s => (s.p - s.fe rs1) % s.p)
  | .fmul rd rs1 rs2 => execOnly (arithPhase rd fun s => (s.fe rs1 * s.fe rs2) % s.p)
  | .fsqr rd rs1 => execOnly (arithPhase rd fun s => (s.fe rs1 * s.fe rs1) % s.p)
  | .fcube rd rs1 => execOnly (arithPhase rd fun s => (s.fe rs1 * s.fe rs1 * s.fe rs1) % s.p)
  | .finv rd rs1 => execOnly (arithPhase rd fun s => inv s.p (s.fe rs1))
  | .geval rd rs1 => execOnly (arithPhase rd fun s => s.g (s.fe rs1))
  | .clrw => execOnly fun s => .finished (clearWorking s)
  | .validate => validateBody
  | .h2f rd cnt => h2fBody rd cnt
  | .cgen => cgenBody
  | .schk => schkBody
  | .select => selectBody
  | .h2c => h2cBody

/-- With BUSY = 1 every command is a step of its phases; NOP, which has none, stops (R190, R199). -/
theorem exec_of_busy {s : State} (i : Instr) (hb : s.status.busy = true) :
    exec i s = runCommand i.op (bodyOf i) s := by
  cases i with
  | nop => simp [exec, execNop, runCommand, bodyOf, hb]
  | _ => rfl

/-- The steps the sequencer can take in a phase, whichever command runs. -/
inductive PhaseStep : Phase → (State → PhaseEnd) → Prop
  | arith (rd : RegIdx) (formula : State → Nat) (hlt : ∀ s : State, 0 < s.p → formula s < s.p) :
      PhaseStep .exec (arithPhase rd formula)
  | clear : PhaseStep .exec fun s => .finished (clearWorking s)
  | validate : PhaseStep .validate validatePhase
  | deriveT (d : RegIdx) (c : Byte) : PhaseStep .deriveT (derivePhase d c)
  | deriveU (d : RegIdx) (c : Byte) : PhaseStep .deriveU (derivePhase d c)
  | generate : PhaseStep .generate generatePhase
  | selfcheck : PhaseStep .selfcheck selfcheckPhase
  | sqrt : PhaseStep .sqrt sqrtPhase
  | select : PhaseStep .select selectPhase

theorem phaseStep_of_some {ph : Phase} {f g : State → PhaseEnd} (hg : PhaseStep ph g) (h : some g = some f) :
    PhaseStep ph f :=
  Option.some.inj h ▸ hg

/-- A command with EXEC only takes its step there. -/
theorem execOnly_some {g f : State → PhaseEnd} {ph : Phase} (h : execOnly g ph = some f) : ph = .exec ∧ f = g := by
  cases ph <;> simp_all [execOnly]

/-- A field command's step is an arithmetic step with a value below P (R101). -/
theorem phaseStep_arith {rd : RegIdx} {formula : State → Nat} {ph : Phase} {f : State → PhaseEnd}
    (h : execOnly (arithPhase rd formula) ph = some f) (hlt : ∀ s : State, 0 < s.p → formula s < s.p) :
    PhaseStep ph f := by
  obtain ⟨rfl, rfl⟩ := execOnly_some h
  exact .arith rd formula hlt

/-- Every command's phase steps are in the list. -/
theorem phaseStep_of_bodyOf {i : Instr} {ph : Phase} {f : State → PhaseEnd} (h : bodyOf i ph = some f) :
    PhaseStep ph f := by
  cases i with
  | nop => cases h
  | fadd | fneg | fmul | fsqr | fcube => exact phaseStep_arith h fun _ hp => Nat.mod_lt _ hp
  | finv => exact phaseStep_arith h fun _ hp => inv_lt _ _ hp
  | geval => exact phaseStep_arith h fun _ hp => curvePoly_lt _ _ _ _ hp
  | clrw => obtain ⟨rfl, rfl⟩ := execOnly_some h; exact .clear
  | validate =>
      cases ph with
      | validate => exact phaseStep_of_some .validate h
      | _ => cases h
  | h2f rd cnt =>
      cases ph with
      | validate => exact phaseStep_of_some .validate h
      | deriveT => exact phaseStep_of_some (.deriveT rd cnt) h
      | _ => cases h
  | cgen =>
      cases ph with
      | validate => exact phaseStep_of_some .validate h
      | generate => exact phaseStep_of_some .generate h
      | _ => cases h
  | schk =>
      cases ph with
      | selfcheck => exact phaseStep_of_some .selfcheck h
      | _ => cases h
  | select =>
      cases ph with
      | sqrt => exact phaseStep_of_some .sqrt h
      | select => exact phaseStep_of_some .select h
      | _ => cases h
  | h2c =>
      cases ph with
      | validate => exact phaseStep_of_some .validate h
      | deriveT => exact phaseStep_of_some (.deriveT 4 0) h
      | deriveU => exact phaseStep_of_some (.deriveU 5 1) h
      | generate => exact phaseStep_of_some .generate h
      | selfcheck => exact phaseStep_of_some .selfcheck h
      | sqrt => exact phaseStep_of_some .sqrt h
      | select => exact phaseStep_of_some .select h
      | idle | exec => cases h

/-- What a sequencer turn is while BUSY = 1: one step of the latched command's phase (R40, R250). -/
theorem sequencerTurn_next {s t : State} (hb : s.status.busy = true) (h : sequencerTurn s = .next t) :
    ∃ i f, decode s.cmdl = .ok i ∧ bodyOf i s.status.state = some f ∧ t = finishPhase i.op (f s) := by
  rw [sequencerTurn, if_pos hb] at h
  split at h
  · rename_i i hi
    rw [exec_of_busy i hb] at h
    rcases runCommand_next h with ⟨hb', -⟩ | ⟨-, f, hf, rfl⟩
    · rw [hb] at hb'; cases hb'
    · exact ⟨i, f, hi, hf, rfl⟩
  · cases h

/-- The state at the end of a phase step, before the sequencer acts on it. -/
def PhaseEnd.state : PhaseEnd → State
  | .hold s | .finished s | .raise _ s => s

/-- How the sequencer ends a phase step: it holds, goes on to the next phase, or completes (R199). -/
theorem finishPhase_cases (o : Op) (e : PhaseEnd) :
    (∃ u, e = .hold u ∧ finishPhase o e = u) ∨
    (∃ u p, e = .finished u ∧ phaseAfter u.status.state (phasesOf o) = some p ∧
      finishPhase o e = { u with status := { u.status with state := p } }) ∨
    ∃ c, finishPhase o e = complete c e.state := by
  cases e with
  | hold u => exact .inl ⟨u, rfl, rfl⟩
  | raise c u => exact .inr (.inr ⟨c, rfl⟩)
  | finished u =>
      cases hp : phaseAfter u.status.state (phasesOf o) with
      | none => exact .inr (.inr ⟨.ok, by simp [finishPhase, hp, PhaseEnd.state]⟩)
      | some p => exact .inr (.inl ⟨u, p, rfl, hp, by simp [finishPhase, hp]⟩)

/-! ### What every phase step keeps -/

/-- What a phase step never changes: the control registers, STATUS but for PV, and the environment but for the free-value
counter. -/
structure PhaseKept (s t : State) : Prop where
  control : SameControl s t
  status : t.status = { s.status with pv := t.status.pv }
  env : ∃ n, t.env = { s.env with draws := n }

theorem PhaseKept.busy {s t : State} (h : PhaseKept s t) : t.status.busy = s.status.busy := by rw [h.status]

theorem PhaseKept.state {s t : State} (h : PhaseKept s t) : t.status.state = s.status.state := by rw [h.status]

theorem PhaseKept.params {s t : State} (h : PhaseKept s t) :
    t.env.fw = s.env.fw ∧ t.env.sqrtRoot = s.env.sqrtRoot := by
  obtain ⟨n, hn⟩ := h.env
  constructor <;> rw [hn]

theorem PhaseKept.fw {s t : State} (h : PhaseKept s t) : t.fw = s.fw := by
  obtain ⟨n, hn⟩ := h.env
  rw [State.fw, hn, State.fw]

theorem PhaseKept.mem {s t : State} (h : PhaseKept s t) : t.env.mem = s.env.mem := by
  obtain ⟨n, hn⟩ := h.env
  rw [hn]

theorem PhaseKept.refl (s : State) : PhaseKept s s := ⟨⟨rfl, rfl, rfl⟩, rfl, s.env.draws, rfl⟩

theorem PhaseKept.trans {s t u : State} (h : PhaseKept s t) (h' : PhaseKept t u) : PhaseKept s u := by
  obtain ⟨hc, hs, n, hn⟩ := h
  obtain ⟨hc', hs', n', hn'⟩ := h'
  refine ⟨⟨hc'.ctrl.trans hc.ctrl, hc'.kdf.trans hc.kdf, hc'.cmdl.trans hc.cmdl⟩, ?_, n', by rw [hn', hn]⟩
  rw [hs', hs]

theorem nextDraw_kept (s : State) : PhaseKept s s.nextDraw := ⟨⟨rfl, rfl, rfl⟩, rfl, _, rfl⟩

theorem setReg_kept (s : State) (i : RegIdx) (v : FE) : PhaseKept s (s.setReg i v) :=
  ⟨⟨rfl, rfl, rfl⟩, rfl, s.env.draws, rfl⟩

theorem writeback_kept (d : RegIdx) (v : FE) (s : State) : PhaseKept s (writeback d v s) :=
  ⟨⟨rfl, rfl, rfl⟩, rfl, s.env.draws, rfl⟩

theorem withHid_kept (s : State) (h : Hidden) : PhaseKept s { s with hid := h } :=
  ⟨⟨rfl, rfl, rfl⟩, rfl, s.env.draws, rfl⟩

@[simp] theorem fetch_fr (i : RegIdx) (s : State) : (fetch i s).2.fr = s.fr := by
  rcases fetch_state i s with h | h <;> rw [h, ← nextDraw_fr s]

@[simp] theorem fetch_hid (i : RegIdx) (s : State) : (fetch i s).2.hid = s.hid := by
  rcases fetch_state i s with h | h <;> rw [h, ← nextDraw_hid s]

@[simp] theorem fetch_status (i : RegIdx) (s : State) : (fetch i s).2.status = s.status := by
  rcases fetch_state i s with h | h <;> rw [h, ← nextDraw_status s]

theorem fetch_kept (i : RegIdx) (s : State) : PhaseKept s (fetch i s).2 := by
  rcases fetch_state i s with h | h <;> rw [h]
  · exact .refl s
  · exact nextDraw_kept s

/-- A derivation writes FR[d], PV and the counter (R101, R137). -/
theorem writeDerived_kept (d : RegIdx) (v : Nat) (s : State) : PhaseKept s (writeDerived d v s) := by
  obtain ⟨x, h | h⟩ := writeDerived_eq d v s <;> rw [h]
  · exact writeback_kept d x s
  · exact (nextDraw_kept s).trans (writeback_kept d x _)

theorem consumeResponse_kept (d : RegIdx) (s : State) : PhaseKept s (consumeResponse d s).state := by
  unfold consumeResponse
  split
  · exact ⟨⟨rfl, rfl, rfl⟩, rfl, s.env.draws, rfl⟩
  · exact (writeDerived_kept d _ s).trans (withHid_kept _ _)

theorem derivePhase_kept (d : RegIdx) (c : Byte) (s : State) : PhaseKept s (derivePhase d c s).state := by
  unfold derivePhase
  split
  · exact .refl s
  · split
    · exact consumeResponse_kept d s
    · exact withHid_kept s _

/-- VALIDATE fetches twice and changes nothing else (R150). -/
theorem validatePhase_state (s : State) : (validatePhase s).state = (fetch 2 (fetch 1 s).2).2 := by
  unfold validatePhase
  simp only
  split <;> rfl

theorem validatePhase_kept (s : State) : PhaseKept s (validatePhase s).state := by
  rw [validatePhase_state]
  exact (fetch_kept 1 s).trans (fetch_kept 2 _)

theorem writeCandidates_kept (c : Candidates) (s : State) : PhaseKept s (writeCandidates c s) where
  control := ⟨writeCandidates_ctrl c s, writeCandidates_kdf c s, writeCandidates_cmdl c s⟩
  status := by rw [writeCandidates_status]
  env := ⟨s.env.draws, writeCandidates_env c s⟩

theorem drawCandidates_kept (s : State) : PhaseKept s (drawCandidates s) := by
  have draw (i : RegIdx) {u : State} (h : PhaseKept s u) : PhaseKept s (u.nextDraw.setReg i u.drawFE) :=
    h.trans ((nextDraw_kept u).trans (setReg_kept _ i _))
  exact draw 11 (draw 10 (draw 9 (draw 8 (draw 7 (draw 6 (.refl s))))))

theorem generatePhase_kept (s : State) : PhaseKept s (generatePhase s).state := by
  unfold generatePhase
  split
  · exact drawCandidates_kept s
  · exact writeCandidates_kept _ s

theorem selfcheckVerdict_state (l r : Nat) (s : State) : (selfcheckVerdict l r s).state = s := by
  unfold selfcheckVerdict
  split <;> rfl

/-- The self-check changes nothing but, with P = 0, the free-value counter (R160). -/
theorem selfcheckPhase_state (s : State) :
    (selfcheckPhase s).state = s ∨ (selfcheckPhase s).state = s.nextDraw.nextDraw := by
  unfold selfcheckPhase
  split
  · exact .inr (selfcheckVerdict_state _ _ _)
  · exact .inl (selfcheckVerdict_state _ _ _)

theorem selfcheckPhase_kept (s : State) : PhaseKept s (selfcheckPhase s).state := by
  rcases selfcheckPhase_state s with h | h <;> rw [h]
  · exact .refl s
  · exact (nextDraw_kept s).trans (nextDraw_kept _)

theorem sqrtPhase_kept (s : State) : PhaseKept s (sqrtPhase s).state := by
  unfold sqrtPhase
  split
  · exact .refl s
  · split
    · exact (fetch_kept _ s).trans (withHid_kept _ _)
    · simp only
      split <;> exact withHid_kept s _

/-- The selection is three fetches, each with a write of RES after it (R176). -/
theorem selectRes_eq (s : State) :
    ∃ r3 r2 r1, selectRes s =
      (fetch 6 ((fetch 8 ((fetch 10 s).2.setRes r3)).2.setRes r2)).2.setRes r1 := by
  unfold selectRes
  exact ⟨_, _, _, rfl⟩

theorem selectRes_kept (s : State) : PhaseKept s (selectRes s) := by
  have blend {u : State} (h : PhaseKept s u) (i : RegIdx) (r : FE × FE) : PhaseKept s ((fetch i u).2.setRes r) :=
    h.trans ((fetch_kept i u).trans (withHid_kept _ _))
  obtain ⟨r3, r2, r1, h⟩ := selectRes_eq s
  rw [h]
  exact blend (blend (blend (.refl s) 10 r3) 8 r2) 6 r1

/-- The SELECT phase is the selection, with the point written when a candidate is valid (R177, R179). -/
theorem selectPhase_state (s : State) :
    (selectPhase s).state = writePoint (selectRes s) ∨ (selectPhase s).state = selectRes s := by
  unfold selectPhase
  generalize selectRes s = u
  simp only
  split
  · exact .inl rfl
  · exact .inr rfl

theorem writePoint_kept (s : State) : PhaseKept s (writePoint s) := ⟨⟨rfl, rfl, rfl⟩, rfl, s.env.draws, rfl⟩

theorem selectPhase_kept (s : State) : PhaseKept s (selectPhase s).state := by
  rcases selectPhase_state s with h | h <;> rw [h]
  · exact (selectRes_kept s).trans (writePoint_kept _)
  · exact selectRes_kept s

/-- Every phase step stays within the frame. -/
theorem PhaseStep.kept {ph : Phase} {f : State → PhaseEnd} (h : PhaseStep ph f) (s : State) :
    PhaseKept s (f s).state := by
  cases h with
  | arith rd formula _ =>
      unfold arithPhase
      split
      · exact (nextDraw_kept s).trans (writeback_kept rd _ _)
      · exact writeback_kept rd _ s
  | clear => exact ⟨⟨rfl, rfl, rfl⟩, rfl, s.env.draws, rfl⟩
  | validate => exact validatePhase_kept s
  | deriveT d c | deriveU d c => exact derivePhase_kept d c s
  | generate => exact generatePhase_kept s
  | selfcheck => exact selfcheckPhase_kept s
  | sqrt => exact sqrtPhase_kept s
  | select => exact selectPhase_kept s

/-! ### Every phase step keeps the registers' width -/

/-- Every field register holds an FW-bit value (R27). -/
def State.RegsFit (s : State) : Prop := ∀ i : RegIdx, s.reg i < 2 ^ s.fw

theorem State.RegsFit.congr {s t : State} (h : s.RegsFit) (hr : t.fr = s.fr) (hw : t.fw = s.fw) : t.RegsFit := by
  intro i
  rw [State.reg_congr hr, hw]
  exact h i

theorem State.RegsFit.setReg {s : State} (h : s.RegsFit) (i : RegIdx) {v : FE} (hv : v < 2 ^ s.fw) :
    (s.setReg i v).RegsFit := by
  intro j
  rw [reg_setReg, setReg_fw]
  split
  · exact hv
  · exact h j

theorem State.RegsFit.writeback {s : State} (h : s.RegsFit) (d : RegIdx) {v : FE} (hv : v < 2 ^ s.fw) :
    (writeback d v s).RegsFit :=
  (h.setReg d hv).congr rfl rfl

theorem State.RegsFit.nextDraw {s : State} (h : s.RegsFit) : s.nextDraw.RegsFit := h.congr rfl rfl

theorem State.RegsFit.writeDerived {s : State} (h : s.RegsFit) (d : RegIdx) (v : Nat) :
    (writeDerived d v s).RegsFit := by
  have below (x : Nat) (hp : s.p ≠ 0) : x % s.p < 2 ^ s.fw := (Nat.mod_lt x (Nat.pos_of_ne_zero hp)).trans (h 0)
  unfold Machine.writeDerived
  split
  · exact h.nextDraw.writeback d (drawFE_lt s)
  · split
    · exact h.nextDraw.writeback d (below _ ‹_›)
    · exact h.writeback d (below _ ‹_›)

theorem State.RegsFit.writeCandidates {s : State} (h : s.RegsFit) {c : Candidates} {p : Nat} (hp : p < 2 ^ s.fw)
    (hc : c.x1 < p ∧ c.g1 < p ∧ c.x2 < p ∧ c.g2 < p ∧ c.x3 < p ∧ c.g3 < p) : (writeCandidates c s).RegsFit := by
  obtain ⟨h6, h7, h8, h9, h10, h11⟩ := hc
  exact (((((h.setReg 6 (h6.trans hp)).setReg 7 (h7.trans hp)).setReg 8 (h8.trans hp)).setReg 9 (h9.trans hp)).setReg 10
    (h10.trans hp)).setReg 11 (h11.trans hp)

theorem State.RegsFit.drawCandidates {s : State} (h : s.RegsFit) : (drawCandidates s).RegsFit := by
  have draw {u : State} (hu : u.RegsFit) (i : RegIdx) : (u.nextDraw.setReg i u.drawFE).RegsFit :=
    hu.nextDraw.setReg i (drawFE_lt u)
  exact draw (draw (draw (draw (draw (draw h 6) 7) 8) 9) 10) 11

theorem State.RegsFit.writePoint {s : State} (h : s.RegsFit) (hx : s.hid.resX < 2 ^ s.fw) (hy : s.hid.resY < 2 ^ s.fw) :
    (writePoint s).RegsFit :=
  (h.setReg 12 hx).setReg 13 hy

theorem State.RegsFit.fetch {s : State} (h : s.RegsFit) (i : RegIdx) : (fetch i s).2.RegsFit := by
  rcases fetch_state i s with h' | h' <;> rw [h'] <;> exact h

theorem State.RegsFit.derivePhase {s : State} (h : s.RegsFit) (d : RegIdx) (c : Byte) :
    (derivePhase d c s).state.RegsFit := by
  unfold Machine.derivePhase
  split
  · exact h
  · split
    · unfold consumeResponse
      split
      · exact h
      · exact h.writeDerived d _
    · exact h

theorem sqrtPhase_fr (s : State) : (sqrtPhase s).state.fr = s.fr := by
  unfold sqrtPhase
  split
  · rfl
  · split
    · exact fetch_fr _ s
    · simp only
      split <;> rfl

theorem selectRes_fr (s : State) : (selectRes s).fr = s.fr := by
  obtain ⟨r3, r2, r1, h⟩ := selectRes_eq s
  rw [h, setRes_fr, fetch_fr, setRes_fr, fetch_fr, setRes_fr, fetch_fr]

/-- A completion keeps the registers' width: it writes nothing but 0 (R212, R213). -/
theorem State.RegsFit.complete {s : State} (h : s.RegsFit) (c : StatusCode) : (complete c s).RegsFit := by
  unfold Machine.complete
  split
  · exact ((h.setReg 12 (Nat.two_pow_pos _)).setReg 13 (Nat.two_pow_pos _)).congr rfl rfl
  · exact h.congr rfl rfl

/-- Every phase step writes FW-bit values only (R101). -/
theorem PhaseStep.regsFit {ph : Phase} {f : State → PhaseEnd} (h : PhaseStep ph f) {s : State} (hs : s.RegsFit) :
    (f s).state.RegsFit := by
  cases h with
  | arith rd formula hlt =>
      unfold arithPhase
      split
      · exact hs.nextDraw.writeback rd (drawFE_lt s)
      · exact hs.writeback rd ((hlt s (by omega)).trans (hs 0))
  | clear =>
      intro j
      show (clearWorking s).reg j < 2 ^ s.fw
      rw [reg_clearWorking]
      split
      · exact hs j
      · exact Nat.two_pow_pos _
  | validate =>
      rw [validatePhase_state]
      exact (hs.fetch 1).fetch 2
  | deriveT d c | deriveU d c => exact hs.derivePhase d c
  | generate =>
      unfold generatePhase
      split
      · exact hs.drawCandidates
      · have hp : 0 < s.p := by omega
        exact hs.writeCandidates (hs 0) (candidates_lt hp (s.fe_lt 5 hp))
  | selfcheck => rcases selfcheckPhase_state s with h | h <;> rw [h] <;> exact hs
  | sqrt => exact hs.congr (sqrtPhase_fr s) (sqrtPhase_kept s).fw
  | select =>
      have hr : (selectRes s).RegsFit := hs.congr (selectRes_fr s) (selectRes_kept s).fw
      obtain ⟨hx, hy⟩ := selectRes_fits s
      rw [← (selectRes_kept s).fw] at hx hy
      rcases selectPhase_state s with h | h <;> rw [h]
      · exact hr.writePoint hx hy
      · exact hr

end Sys2Proof.Machine
end

section
/-! SUPPORT. What a turn of the host and of a collaborator can do, once: what a write leaves, what stays. -/

namespace Sys2Proof.Machine

/-! ### The host's turn -/

/-- A change outside the block: the parameters and the canonical form of the platform's bytes are kept. -/
structure EnvOnly (s t : State) : Prop where
  block : t = { s with env := t.env }
  fw : t.env.fw = s.env.fw
  sqrtRoot : t.env.sqrtRoot = s.env.sqrtRoot
  mem_wf : s.env.mem.wf = true → t.env.mem.wf = true

theorem EnvOnly.refl (s : State) : EnvOnly s s := ⟨rfl, rfl, rfl, id⟩

theorem EnvOnly.trans {s t u : State} (h : EnvOnly s t) (h' : EnvOnly t u) : EnvOnly s u :=
  ⟨by rw [h'.block, h.block], h'.fw.trans h.fw, h'.sqrtRoot.trans h.sqrtRoot, h'.mem_wf ∘ h.mem_wf⟩

theorem respond_envOnly (r : BusResponse) (s : State) : EnvOnly s (s.respond r) := ⟨rfl, rfl, rfl, id⟩

theorem nextDraw_envOnly (s : State) : EnvOnly s s.nextDraw := ⟨rfl, rfl, rfl, id⟩

/-- The host's list and the schedule are outside the block. -/
theorem withHostOps_envOnly (ops : List HostOp) (s : State) :
    EnvOnly s { s with env := { s.env with hostOps := ops } } := ⟨rfl, rfl, rfl, id⟩

theorem popSchedule_envOnly (s : State) : EnvOnly s s.popSchedule := ⟨rfl, rfl, rfl, id⟩

theorem bufChange_envOnly (a : Word) {m : Memory} {s : State} (h : s.env.mem.wf = true → m.wf = true) :
    EnvOnly s (bufChange a m s) := ⟨rfl, rfl, rfl, h⟩

/-- A bus read changes nothing of the block (R69). -/
theorem busRead_envOnly (width : AccessWidth) (off : Offset) (s : State) : EnvOnly s (busRead width off s) := by
  unfold busRead
  split
  · have h := respond_envOnly (.data (readRegion (regionOf off) s).1) (readRegion (regionOf off) s).2
    rcases readRegion_state (regionOf off) s with hr | hr <;> rw [hr] at h
    · simpa [hr] using h
    · simpa [hr] using (nextDraw_envOnly s).trans h
  · exact respond_envOnly .error s

/-- What an accepted write can leave (R21, R29, R35, R48). -/
inductive WriteEffect (r : Region) (v : Word) (s : State) : State → Prop
  | ignored : WriteEffect r v s s
  | status : WriteEffect r v s { s with status := writeStatus v s.status }
  | refused (hb : s.status.busy = true) : WriteEffect r v s (refuseWrite s)
  | command (hb : s.status.busy = false) (hr : r = .cmd) {t : State} (h : issueCommand v s = .next t) : WriteEffect r v s t
  | control (hb : s.status.busy = false) (c : Ctrl) : WriteEffect r v s { s with ctrl := c }
  | kdfReg (hb : s.status.busy = false) (k : KdfRegs) : WriteEffect r v s { s with kdf := k }
  | register (hb : s.status.busy = false) (i : RegIdx) (k : Nat) (hk : k < s.nw) :
      WriteEffect r v s (writeback i (setWord k v (s.reg i)) s)

/-- A guarded write is refused while BUSY = 1 and done else (R48). -/
theorem guardBusy_next {f : State → Result} {s t : State} (h : guardBusy f s = .next t) :
    (s.status.busy = true ∧ t = refuseWrite s) ∨ (s.status.busy = false ∧ f s = .next t) := by
  unfold guardBusy at h
  split at h
  · rename_i hb
    cases h
    exact .inl ⟨hb, rfl⟩
  · rename_i hb
    exact .inr ⟨by simpa using hb, h⟩

/-- The effect of a guarded write from its effect while BUSY = 0. -/
theorem writeEffect_of_guarded {r : Region} {v : Word} {f : State → Result} {s t : State} (h : guardBusy f s = .next t)
    (hf : s.status.busy = false → f s = .next t → WriteEffect r v s t) : WriteEffect r v s t := by
  rcases guardBusy_next h with ⟨hb, rfl⟩ | ⟨hb, h⟩
  · exact .refused hb
  · exact hf hb h

/-- Every write of a region has one of the effects. -/
theorem writeRegion_next {r : Region} {v : Word} {s t : State} (h : writeRegion r v s = .next t) : WriteEffect r v s t := by
  cases r with
  | id | cfg | pbits | errinfo | reserved => cases h; exact .ignored
  | status => cases h; exact .status
  | cmd => exact writeEffect_of_guarded h fun hb h => .command hb rfl h
  | ctrl => rw [writeRegion] at h; exact writeEffect_of_guarded h fun hb h => by cases h; exact .control hb _
  | hashId | msgAddr | msgLen | dstAddr | dstLen =>
      rw [writeRegion] at h
      exact writeEffect_of_guarded h fun hb h => by cases h; exact .kdfReg hb _
  | frWord i k =>
      rw [writeRegion] at h
      refine writeEffect_of_guarded h fun hb h => ?_
      cases h
      unfold writeFrWord
      split
      · exact .ignored
      · exact .register hb i k (by omega)

/-- What the issue of a word leaves: a completion at once, or an acceptance (R196, R197). -/
theorem issueCommand_next {w : Word} {s t : State} (hb : s.status.busy = false) (h : issueCommand w s = .next t) :
    (∃ c, t = completeImmediate c { s with cmdl := w }) ∨
      ∃ i, decode w = .ok i ∧ i ≠ .nop ∧ t = accept i.op { s with cmdl := w } := by
  unfold issueCommand at h
  simp only at h
  split at h
  · cases h; exact .inl ⟨_, rfl⟩
  · rename_i i hi
    rw [exec_of_idle (s := { s with cmdl := w }) hb] at h
    cases h
    by_cases hn : i = .nop
    · exact .inl ⟨.ok, if_pos hn⟩
    · exact .inr ⟨i, hi, hn, if_neg hn⟩

/-- A bus write: a bus error, or a write of the region. -/
theorem busWrite_next {width : AccessWidth} {off : Offset} {v : Word} {s t : State} (h : busWrite width off v s = .next t) :
    t = s.respond .error ∨
      (accessOk width off = true ∧ WriteEffect (regionOf off) v (s.respond .ack) t) := by
  unfold busWrite at h
  split at h
  · rename_i hok
    exact .inr ⟨hok, writeRegion_next h⟩
  · cases h; exact .inl rfl

/-- A host operation is a change outside the block, then at most one write of a region. -/
theorem hostOp_next {op : HostOp} {s t : State} (h : hostOp op s = .next t) :
    ∃ u r v, EnvOnly s u ∧ WriteEffect r v u t := by
  have outside (hu : EnvOnly s t) : ∃ u r v, EnvOnly s u ∧ WriteEffect r v u t := ⟨t, .reserved, 0, hu, .ignored⟩
  cases op with
  | read width off => cases h; exact outside (busRead_envOnly width off s)
  | write width off v =>
      rcases busWrite_next h with rfl | ⟨-, h⟩
      · exact outside (respond_envOnly .error s)
      · exact ⟨_, _, v, respond_envOnly .ack s, h⟩
  | waitIdle =>
      have hr := busRead_envOnly .w32 0x010 s
      simp only [hostOp] at h
      split at h <;> cases h
      · exact outside (hr.trans (withHostOps_envOnly _ _))
      · exact outside hr
  | bufWrite a b => cases h; exact outside (bufChange_envOnly a (Memory.wf_write _ b))
  | bufDrop a => cases h; exact outside (bufChange_envOnly a (Memory.wf_drop _))

/-- The host's turn likewise. -/
theorem hostTurn_next {s t : State} (h : hostTurn s = .next t) : ∃ u r v, EnvOnly s u ∧ WriteEffect r v u t := by
  unfold hostTurn at h
  split at h
  · cases h; exact ⟨s, .reserved, 0, .refl s, .ignored⟩
  · obtain ⟨u, r, v, hu, hw⟩ := hostOp_next h
    exact ⟨u, r, v, (withHostOps_envOnly _ s).trans hu, hw⟩

/-! ### The collaborators' turns -/

/-- A KDF turn answers the request in flight, or there is none (R130). -/
theorem kdfTurn_cases (s : State) :
    kdfTurn s = s ∨ ∃ req bs n, s.hid.kpend = true ∧ s.hid.kdfReq = some req ∧
      kdfTurn s = { s with
        hid := { s.hid with krsp := bs, krspRdy := true, kpend := false, kdfReq := none }
        env := { s.env with draws := n } } := by
  unfold kdfTurn
  split
  · rename_i req hk hr
    rcases kdfAnswer_state req s with h | h <;> simp only [h]
    · exact .inr ⟨req, _, s.env.draws, hk, hr, rfl⟩
    · exact .inr ⟨req, _, _, hk, hr, rfl⟩
  · exact .inl rfl

/-- A SQRT turn answers the request in flight, or there is none (R170). -/
theorem sqrtTurn_cases (s : State) :
    sqrtTurn s = s ∨ ∃ req, s.hid.sqpend = true ∧ s.hid.sqrtReq = some req ∧
      sqrtTurn s = { s with
        hid := { s.hid with sqrtAns := some (sqrtAnswer req s), sqpend := false, sqrtReq := none }
        env := { s.env with draws := s.env.draws + 1 } } := by
  unfold sqrtTurn
  split
  · exact .inr ⟨_, ‹_›, ‹_›, rfl⟩
  · exact .inl rfl

/-- A KDF turn stays within a phase step's frame and writes no field register (R77). -/
theorem kdfTurn_kept (s : State) : PhaseKept s (kdfTurn s) ∧ (kdfTurn s).fr = s.fr := by
  rcases kdfTurn_cases s with h | ⟨req, bs, n, -, -, h⟩ <;> rw [h]
  · exact ⟨.refl s, rfl⟩
  · exact ⟨⟨⟨rfl, rfl, rfl⟩, rfl, n, rfl⟩, rfl⟩

/-- A SQRT turn likewise. -/
theorem sqrtTurn_kept (s : State) : PhaseKept s (sqrtTurn s) ∧ (sqrtTurn s).fr = s.fr := by
  rcases sqrtTurn_cases s with h | ⟨req, -, -, h⟩ <;> rw [h]
  · exact ⟨.refl s, rfl⟩
  · exact ⟨⟨⟨rfl, rfl, rfl⟩, rfl, _, rfl⟩, rfl⟩

/-- The SQRT port's answer is an FW-bit value when P is (R171, R172). -/
theorem sqrtAnswer_lt {req : SqrtRequest} {s : State} (h : req.p < 2 ^ s.fw) : (sqrtAnswer req s).2 < 2 ^ s.fw := by
  unfold sqrtAnswer
  split
  · split
    · rename_i r hr
      obtain ⟨hlt, -, -⟩ := leastRoot_of_some hr
      have hp : chosenRoot s.env.sqrtRoot req.p r s.drawBit < req.p := by
        unfold chosenRoot
        split
        · exact hlt
        · split
          · exact hlt
          · exact Nat.mod_lt _ (by omega)
      exact hp.trans h
    · exact drawFE_lt s
  · exact drawFE_lt s

end Sys2Proof.Machine
end

section
/-! SUPPORT. The fields of the register words, bit by bit, and the regions of the window by ranges of offsets. -/

namespace Sys2Proof.Machine

open BitVec (extractLsb'_append_eq_right extractLsb'_append_eq_left extractLsb'_append_eq_of_le getLsbD_append
  toNat_ofNat)

/-! ### The fields of the register words (R23 to R25, R33, R34, R37) -/

/-- FW fits CFG's and PBITS's fields (R9). -/
theorem State.fw_lt (s : State) : s.fw < 2 ^ 16 := by
  have := s.env.fw.extra.isLt
  simp only [State.fw, FieldWidth.bits, FieldWidth.nw]
  omega

/-- CFG carries FW, the margin and zeros (R23). -/
theorem cfgWord_fields (s : State) :
    ((cfgWord s).extractLsb' 0 16).toNat = s.fw ∧ (cfgWord s).extractLsb' 16 8 = 128 ∧
      (cfgWord s).extractLsb' 24 8 = 0 := by
  rw [cfgWord]
  refine ⟨?_, ?_, ?_⟩
  · rw [extractLsb'_append_eq_right, toNat_ofNat, Nat.mod_eq_of_lt s.fw_lt]
  · rw [extractLsb'_append_eq_of_le (by omega), extractLsb'_append_eq_right]
    rfl
  · rw [extractLsb'_append_eq_of_le (by omega), extractLsb'_append_eq_left]
    rfl

/-- CFG as a number (R23). -/
theorem cfgWord_eq (s : State) : cfgWord s = BitVec.ofNat 32 (0x00800000 + s.fw) := by
  have widths : ∀ e : Fin 31, BitVec.ofNat 8 0 ++ BitVec.ofNat 8 Config.margin ++ BitVec.ofNat 16 (32 * (e.val + 2)) =
      BitVec.ofNat 32 (0x00800000 + 32 * (e.val + 2)) := by decide
  exact widths s.env.fw.extra

/-- CTRL carries X3F, REDSEL, IE and zeros (R24). -/
theorem ctrlWord_fields (c : Ctrl) :
    (ctrlWord c).extractLsb' 0 2 = c.x3f.bits ∧ (ctrlWord c).getLsbD 2 = c.redsel ∧ (ctrlWord c).getLsbD 3 = c.ie ∧
      (ctrlWord c).extractLsb' 4 28 = 0 := by
  rw [ctrlWord]
  refine ⟨extractLsb'_append_eq_right, ?_, ?_, ?_⟩
  · iterate 2 rw [getLsbD_append]
    simp
  · iterate 3 rw [getLsbD_append]
    simp
  · iterate 3 rw [extractLsb'_append_eq_of_le (by omega)]
    rfl

/-- STATUS carries its four bits, ERR, STATE and zeros (R34). -/
theorem statusWord_fields (t : Status) :
    (statusWord t).getLsbD 0 = t.busy ∧ (statusWord t).getLsbD 1 = t.done ∧ (statusWord t).getLsbD 2 = t.pv ∧
      (statusWord t).getLsbD 3 = t.bwe ∧ (statusWord t).extractLsb' 4 4 = t.err.number ∧
      (statusWord t).extractLsb' 8 4 = stateCode t.state ∧ (statusWord t).extractLsb' 12 20 = 0 := by
  rw [statusWord]
  refine ⟨?_, ?_, ?_, ?_, ?_, ?_, ?_⟩
  · rw [getLsbD_append]
    simp
  · iterate 2 rw [getLsbD_append]
    simp
  · iterate 3 rw [getLsbD_append]
    simp
  · iterate 4 rw [getLsbD_append]
    simp
  · iterate 4 rw [extractLsb'_append_eq_of_le (by omega)]
    exact extractLsb'_append_eq_right
  · iterate 5 rw [extractLsb'_append_eq_of_le (by omega)]
    exact extractLsb'_append_eq_right
  · iterate 6 rw [extractLsb'_append_eq_of_le (by omega)]
    rfl

/-- ERRINFO carries EPHASE, zeros and KLEN (R37). -/
theorem errinfoWord_fields (e : ErrInfo) :
    (errinfoWord e).extractLsb' 0 4 = stateCode e.ephase ∧ (errinfoWord e).extractLsb' 4 12 = 0 ∧
      (errinfoWord e).extractLsb' 16 16 = e.klen := by
  rw [errinfoWord]
  refine ⟨extractLsb'_append_eq_right, ?_, ?_⟩
  · rw [extractLsb'_append_eq_of_le (by omega), extractLsb'_append_eq_right]
  · rw [extractLsb'_append_eq_of_le (by omega), extractLsb'_append_eq_left]

/-- PBITS carries the bit length of an FW-bit FR[0] and zeros (R33). -/
theorem pbitsWord_fields (s : State) :
    (s.p < 2 ^ s.fw → ((pbitsWord s).extractLsb' 0 16).toNat = bitlen s.p) ∧ (pbitsWord s).extractLsb' 16 16 = 0 := by
  rw [pbitsWord]
  refine ⟨fun hp => ?_, extractLsb'_append_eq_left⟩
  have hlt : bitlen s.p < 2 ^ 16 := (bitlen_le hp).trans_lt s.fw_lt
  rw [extractLsb'_append_eq_right, toNat_ofNat, Nat.mod_eq_of_lt hlt]

/-- A phase and its STATE code are a row of R36's table. -/
theorem stateCode_mem (p : Phase) :
    (p, stateCode p) ∈ [(Phase.idle, (0 : BitVec 4)), (.validate, 1), (.deriveT, 2), (.deriveU, 3), (.generate, 4),
      (.selfcheck, 5), (.sqrt, 6), (.select, 7), (.exec, 8)] := by
  cases p <;> decide

/-- A status code and its number are a row of R211's table. -/
theorem number_mem (c : StatusCode) :
    (c, c.number) ∈ [(StatusCode.ok, (0 : BitVec 4)), (.unsupportedCurve, 1), (.kdfLengthMismatch, 2),
      (.iafSelfcheck, 3), (.iafNosqrt, 4), (.illegalCommand, 5)] := by
  cases c <;> decide

/-- An x3 form and its bits are a row of R24's table. -/
theorem x3f_bits_mem (f : X3Form) : (f, f.bits) ∈ [(X3Form.code, (0 : BitVec 2)), (.comment, 1), (.identity, 2)] := by
  cases f <;> decide

/-- The form a CTRL write leaves: the bits written, unless they are 0b11 (R25). -/
theorem bits_x3Write (v : BitVec 2) (old : X3Form) : (x3Write v old).bits = if v = 3 then old.bits else v := by
  revert v
  cases old <;> decide

theorem bits_ne_three (f : X3Form) : f.bits ≠ 3 := by
  cases f <;> decide

/-! ### Regions (R20, R28) -/

/-- Every offset of the FR windows is a word of a field register (R28). -/
theorem regionOf_frWindow {off : Offset} (h : 0x400 ≤ off.toNat ∧ off.toNat < 0xC00) :
    ∃ i k, regionOf off = .frWord i k := by
  unfold regionOf
  simp only [if_pos h]
  exact ⟨_, _, rfl⟩

/-- The two reserved ranges outside the FR windows (R63). -/
theorem regionOf_reserved {off : Offset} (h : (0x030 ≤ off.toNat ∧ off.toNat < 0x400) ∨ 0xC00 ≤ off.toNat) :
    regionOf off = .reserved := by
  unfold regionOf
  iterate 13 rw [if_neg (by omega)]

/-- A choice between two values that differ from a third differs from it. -/
theorem ite_ne {α : Type} {c : Prop} [Decidable c] {a b x : α} (ha : a ≠ x) (hb : b ≠ x) : (if c then a else b) ≠ x := by
  split
  · exact ha
  · exact hb

/-- CMD stands at one offset only (R20). -/
theorem regionOf_eq_cmd {off : Offset} (h : regionOf off = .cmd) : off = 0x00C := by
  by_contra hne
  have h12 : off.toNat ≠ 0x00C := fun h12 => hne (BitVec.eq_of_toNat_eq h12)
  refine absurd h ?_
  unfold regionOf
  generalize off.toNat = o at h12
  dsimp only
  rw [if_neg h12]
  iterate 12 refine ite_ne nofun ?_
  exact nofun

end Sys2Proof.Machine
end

section
/-! PROOFS. Every turn keeps the invariant: the host's and the collaborators' turns by their effects, the sequencer's by what
its phase step leaves when it holds, when it goes on and when it completes. -/

namespace Sys2Proof.Machine

/-- What a turn keeps: the invariant and the parameters FW and SQRT_ROOT. -/
def InvKept (s t : State) : Prop := t.Inv ∧ t.env.fw = s.env.fw ∧ t.env.sqrtRoot = s.env.sqrtRoot

theorem InvKept.trans {s t u : State} (h : InvKept s t) (h' : InvKept t u) : InvKept s u := by
  obtain ⟨-, hw, hr⟩ := h
  obtain ⟨hi, hw', hr'⟩ := h'
  exact ⟨hi, hw'.trans hw, hr'.trans hr⟩

/-! ### Facts the invariant gives about a state -/

theorem State.Inv.regsFit {s : State} (h : s.Inv) : s.RegsFit := h.fits.fr

theorem State.Inv.busy_of_state {s : State} (h : s.Inv) {ph : Phase} (hs : s.status.state = ph) (hp : ph ≠ .idle) :
    s.status.busy = true := h.busy_iff.2 (hs ▸ hp)

theorem State.Inv.idle_of_not_busy {s : State} (h : s.Inv) (hb : s.status.busy = false) : s.status.state = .idle := by
  by_contra hs
  rw [h.busy_iff.2 hs] at hb
  cases hb

/-- Outside the SQRT and SELECT phases, with no KDF request in flight, only a KDF response can stand in the hidden
registers: consuming it leaves them cleared (R45, R139). -/
theorem State.Inv.cleared_after_response {s : State} (h : s.Inv) (hk : s.hid.kpend = false)
    (hq : s.status.state ≠ .sqrt) (hl : s.status.state ≠ .select) :
    { s.hid with krsp := [], krspRdy := false } = Hidden.cleared := by
  have hport : ¬ (s.hid.sqpend = true ∨ s.hid.sqrtAns.isSome = true) := fun hp => hq (h.sqrt_phase hp).1
  rw [not_or, Bool.not_eq_true, Bool.not_eq_true] at hport
  obtain ⟨hpend, hans⟩ := hport
  have hkreq : s.hid.kdfReq = none := by simpa [hk] using h.kdf_held
  have hqreq : s.hid.sqrtReq = none := by simpa [hpend] using h.sqrt_held
  have hqans : s.hid.sqrtAns = none := by simpa using hans
  obtain ⟨hidx, hroots, hmasks⟩ := h.roots_clear hq hl
  obtain ⟨hx, hy⟩ := h.res_clear
  exact Hidden.eq_cleared hk rfl rfl hkreq hpend hidx hqreq hqans hroots hmasks hx hy

/-- Outside the port phases no hidden data is held (R45, R139, R178). -/
theorem State.Inv.cleared_outside_ports {s : State} (h : s.Inv) (ht : s.status.state ≠ .deriveT)
    (hu : s.status.state ≠ .deriveU) (hq : s.status.state ≠ .sqrt) (hl : s.status.state ≠ .select) :
    s.hid = Hidden.cleared := by
  have hport : ¬ (s.hid.kpend = true ∨ s.hid.krspRdy = true) := fun hp => (h.kdf_phase hp).elim ht hu
  rw [not_or, Bool.not_eq_true, Bool.not_eq_true] at hport
  obtain ⟨hk, hr⟩ := hport
  have hc := h.cleared_after_response hk hq hl
  rw [← h.krsp_empty hr, ← hr] at hc
  exact hc

/-! ### The host's turn -/

theorem EnvOnly.invKept {s t : State} (h : EnvOnly s t) (hs : s.Inv) : InvKept s t :=
  ⟨h.block ▸ hs.withEnv t.env (h.mem_wf hs.mem_wf) h.fw, h.fw, h.sqrtRoot⟩

/-- The invariant does not look at BWE, and at DONE, ERR and PV only while a command runs. -/
theorem State.Inv.withStatus {s : State} (h : s.Inv) {st : Status} (hb : st.busy = s.status.busy)
    (hp : st.state = s.status.state)
    (hu : s.status.busy = true → st.done = s.status.done ∧ st.err = s.status.err ∧ st.pv = s.status.pv) :
    State.Inv { s with status := st } :=
  { h with
    busy_iff := by simpa only [hb, hp] using h.busy_iff
    running := by simpa only [hb, hp] using h.running
    quiet := by simpa only [hb] using h.quiet
    undone := fun hbt => by
      rw [hb] at hbt
      obtain ⟨hd, he, -⟩ := hu hbt
      exact ⟨hd.trans (h.undone hbt).1, he.trans (h.undone hbt).2⟩
    unpointed := fun hbt hl => by
      rw [hb] at hbt
      exact (hu hbt).2.2.trans (h.unpointed hbt hl)
    kdf_phase := by simpa only [hp] using h.kdf_phase
    sqrt_phase := by simpa only [hp] using h.sqrt_phase
    roots_clear := by simpa only [hp] using h.roots_clear
    fits := ⟨h.fits.fr, h.fits.sqr, h.fits.ans⟩ }

/-- A write of an idle block that leaves it idle and touches no hidden register. -/
theorem State.Inv.of_idle_write {s t : State} (h : s.Inv) (hb : s.status.busy = false) (hst : t.status.busy = false)
    (hs : t.status.state = s.status.state) (hh : t.hid = s.hid) (he : t.env = s.env) (hr : t.RegsFit) : InvKept s t :=
  ⟨State.inv_of_idle hst (hs.trans (h.idle_of_not_busy hb)) (hh.trans (h.quiet hb)) (he ▸ h.mem_wf) hr,
    by rw [he], by rw [he]⟩

/-- No command's phase list names IDLE (R199). -/
theorem ne_idle_of_mem_phasesOf {o : Op} {p : Phase} (h : p ∈ phasesOf o) : p ≠ .idle := by
  rintro rfl
  revert h
  cases o <;> decide

theorem firstPhase_mem {o : Op} (h : o ≠ .nop) : firstPhase o ∈ phasesOf o := by
  revert h
  cases o <;> decide

theorem op_ne_nop {i : Instr} (h : i ≠ .nop) : i.op ≠ .nop := by
  cases i with
  | nop => exact absurd rfl h
  | _ => exact nofun

/-- Acceptance of a decoded command keeps the invariant (R196). -/
theorem accept_inv {s : State} (h : s.Inv) (hb : s.status.busy = false) {i : Instr} (hi : decode s.cmdl = .ok i)
    (hn : i ≠ .nop) : (accept i.op s).Inv := by
  have hmem := firstPhase_mem (op_ne_nop hn)
  refine State.inv_of_hid_cleared (t := accept i.op s) (h.quiet hb) h.mem_wf h.regsFit ?_ ?_ ?_ ?_
  · exact ⟨fun _ => ne_idle_of_mem_phasesOf hmem, fun _ => rfl⟩
  · exact fun _ => ⟨i, hi, hmem⟩
  · exact fun _ => ⟨rfl, rfl⟩
  · intro _ hl
    have hl' : latchedWritesPoint s = true := hl
    rw [latchedWritesPoint_of_decode hi] at hl'
    simp [hl']

/-- Every effect of a write keeps the invariant. -/
theorem WriteEffect.invKept {r : Region} {v : Word} {s t : State} (h : WriteEffect r v s t) (hs : s.Inv) : InvKept s t := by
  cases h with
  | ignored => exact ⟨hs, rfl, rfl⟩
  | status =>
      refine ⟨hs.withStatus rfl rfl fun hb => ⟨?_, rfl, rfl⟩, rfl, rfl⟩
      rw [writeStatus, (hs.undone hb).1]
      rfl
  | refused hb => exact ⟨hs.withStatus rfl rfl fun _ => ⟨rfl, rfl, rfl⟩, rfl, rfl⟩
  | command hb _ h =>
      have hlatched : State.Inv { s with cmdl := v } :=
        (hs.of_idle_write hb (t := { s with cmdl := v }) hb rfl rfl rfl hs.regsFit).1
      rcases issueCommand_next hb h with ⟨c, rfl⟩ | ⟨i, hi, hn, rfl⟩
      · exact hs.of_idle_write hb hb rfl rfl rfl hs.regsFit
      · exact ⟨accept_inv hlatched hb hi hn, rfl, rfl⟩
  | control hb c => exact hs.of_idle_write hb hb rfl rfl rfl hs.regsFit
  | kdfReg hb k => exact hs.of_idle_write hb hb rfl rfl rfl hs.regsFit
  | register hb i k hk =>
      exact hs.of_idle_write hb hb rfl rfl rfl (hs.regsFit.writeback i (setWord_lt v hk (hs.regsFit i)))

/-- The host's turn keeps the invariant. -/
theorem hostTurn_invKept {s t : State} (hs : s.Inv) (h : hostTurn s = .next t) : InvKept s t := by
  obtain ⟨u, r, v, hu, hw⟩ := hostTurn_next h
  have hsu := hu.invKept hs
  exact hsu.trans (hw.invKept hsu.1)

/-! ### The collaborators' turns and reset -/

/-- A KDF turn keeps the invariant: the response takes the request's place (R130). -/
theorem kdfTurn_invKept {s : State} (hs : s.Inv) : InvKept s (kdfTurn s) := by
  rcases kdfTurn_cases s with h | ⟨req, bs, n, hk, -, h⟩ <;> rw [h]
  · exact ⟨hs, rfl, rfl⟩
  · have hph := hs.kdf_phase (.inl hk)
    have hb : s.status.busy = true := hph.elim (hs.busy_of_state · nofun) (hs.busy_of_state · nofun)
    refine ⟨State.Inv.withEnv (s := { s with hid := { s.hid with krsp := bs, krspRdy := true, kpend := false, kdfReq := none } })
      ?_ _ hs.mem_wf rfl, rfl, rfl⟩
    exact { hs with
      quiet := fun hq => Bool.noConfusion (hb.symm.trans hq)
      kdf_held := rfl
      kdf_phase := fun _ => hph
      kdf_one := nofun
      krsp_empty := nofun
      kdf_request := nofun
      fits := ⟨hs.fits.fr, hs.fits.sqr, hs.fits.ans⟩ }

/-- A SQRT turn keeps the invariant: the answer takes the request's place and has FW bits (R170, R171). -/
theorem sqrtTurn_invKept {s : State} (hs : s.Inv) : InvKept s (sqrtTurn s) := by
  rcases sqrtTurn_cases s with h | ⟨req, hp, hr, h⟩ <;> rw [h]
  · exact ⟨hs, rfl, rfl⟩
  · have hph := hs.sqrt_phase (.inl hp)
    have hb := hs.busy_of_state hph.1 nofun
    have hlt : (sqrtAnswer req s).2 < 2 ^ s.fw := sqrtAnswer_lt (hs.sqrt_request req hr ▸ hs.fits.fr 0)
    refine ⟨State.Inv.withEnv
      (s := { s with hid := { s.hid with sqrtAns := some (sqrtAnswer req s), sqpend := false, sqrtReq := none } })
      ?_ _ hs.mem_wf rfl, rfl, rfl⟩
    exact { hs with
      quiet := fun hq => Bool.noConfusion (hb.symm.trans hq)
      sqrt_held := rfl
      sqrt_one := nofun
      sqrt_phase := fun _ => hph
      sqrt_request := nofun
      fits := ⟨hs.fits.fr, hs.fits.sqr, fun a ha => by cases ha; exact hlt⟩ }

/-- Reset keeps the invariant (R47, R240). -/
theorem resetTurn_invKept {s : State} (hs : s.Inv) : InvKept s (resetTurn s) := by
  refine ⟨State.inv_of_idle rfl rfl rfl hs.mem_wf fun i => ?_, rfl, rfl⟩
  have h0 : (resetTurn s).reg i = 0 := by simp [State.reg_def]
  rw [h0]
  exact Nat.two_pow_pos _

/-! ### The sequencer's turn -/

/-- A completion meets the invariant (R45, R212). -/
theorem complete_inv {s : State} (c : StatusCode) (hm : s.env.mem.wf = true) (hr : s.RegsFit) : (complete c s).Inv :=
  State.inv_of_idle (complete_busy c s) (complete_state c s) (complete_hid c s) (by rw [complete_env]; exact hm)
    (hr.complete c)

theorem phaseAfter_mem {cur p : Phase} {l : List Phase} (h : phaseAfter cur l = some p) : p ∈ l := by
  induction l with
  | nil => cases h
  | cons q rest ih =>
      unfold phaseAfter at h
      split at h
      · exact List.mem_cons_of_mem _ (List.mem_of_mem_head? h)
      · exact List.mem_cons_of_mem _ (ih h)

/-- SQRT is followed by SELECT, which ends every command that has it (R199). -/
theorem phaseAfter_sqrt {o : Op} {p : Phase} (h : phaseAfter .sqrt (phasesOf o) = some p) : p = .select := by
  revert h
  cases o <;> simp [phasesOf, phaseAfter, eq_comm]

theorem phaseAfter_select (o : Op) : phaseAfter .select (phasesOf o) = none := by
  cases o <;> rfl

/-- The advance to the next phase keeps the invariant when the step has left the hidden registers clear and has set no PV
(R34, R199). -/
theorem advance_inv {s t : State} (hs : s.Inv) (hb : s.status.busy = true) (hk : PhaseKept s t) (hr : t.RegsFit)
    (hh : t.hid = Hidden.cleared) (hpv : t.status.pv = true → s.status.pv = true) {i : Instr} {p : Phase}
    (hi : decode s.cmdl = .ok i) (hp : p ∈ phasesOf i.op) :
    State.Inv { t with status := { t.status with state := p } } := by
  obtain ⟨⟨-, -, hcmdl⟩, hst, -⟩ := id hk
  have hbt : t.status.busy = true := by rw [hst]; exact hb
  refine State.inv_of_hid_cleared (t := { t with status := { t.status with state := p } }) hh (hk.mem ▸ hs.mem_wf) hr
    ?_ ?_ ?_ ?_
  · exact ⟨fun _ => ne_idle_of_mem_phasesOf hp, fun _ => hbt⟩
  · exact fun _ => ⟨i, hcmdl ▸ hi, hp⟩
  · intro _
    show t.status.done = false ∧ t.status.err = .ok
    rw [hst]
    exact hs.undone hb
  · intro _ hl
    have hl' : latchedWritesPoint t = true := hl
    have hls : latchedWritesPoint s = true := by rwa [latchedWritesPoint, hcmdl] at hl'
    show t.status.pv = false
    by_contra hpt
    rw [Bool.not_eq_false] at hpt
    rw [hs.unpointed hb hls] at hpv
    cases hpv hpt

/-! ### The steps that stay in a phase, and those that leave it -/

/-- A DERIVE step that holds waits for the response or issues the request (R130, R139). -/
theorem derivePhase_hold {d : RegIdx} {c : Byte} {s u : State} (h : derivePhase d c s = .hold u) :
    u = s ∨ (s.hid.kpend = false ∧ s.hid.krspRdy = false ∧
      u = { s with hid := { s.hid with kpend := true, kdfReq := some (kdfRequest c s) } }) := by
  unfold derivePhase at h
  split at h
  · cases h; exact .inl rfl
  · split at h
    · unfold consumeResponse at h
      split at h <;> cases h
    · cases h
      rename_i hk hr
      exact .inr ⟨Bool.eq_false_iff.2 hk, Bool.eq_false_iff.2 hr, rfl⟩

theorem writeDerived_hid (d : RegIdx) (v : Nat) (s : State) : (writeDerived d v s).hid = s.hid := by
  obtain ⟨x, h | h⟩ := writeDerived_eq d v s <;> rw [h] <;> rfl

theorem writeDerived_pv (d : RegIdx) (v : Nat) (s : State) :
    (writeDerived d v s).status.pv = (s.status.pv && !isPointReg d) := by
  obtain ⟨x, h | h⟩ := writeDerived_eq d v s <;> rw [h] <;> rfl

/-- A DERIVE step that is over consumed the response and wrote no PV 1 (R139). -/
theorem derivePhase_finished {d : RegIdx} {c : Byte} {s u : State} (h : derivePhase d c s = .finished u) :
    s.hid.kpend = false ∧ u.hid = { s.hid with krsp := [], krspRdy := false } ∧
      (u.status.pv = true → s.status.pv = true) := by
  unfold derivePhase at h
  split at h
  · cases h
  · rename_i hk
    split at h
    · unfold consumeResponse at h
      split at h
      · cases h
      · cases h
        rw [writeDerived_hid, writeDerived_pv, Bool.and_eq_true]
        exact ⟨Bool.eq_false_iff.2 hk, rfl, And.left⟩
    · cases h

/-- A state with a request for the KDF collaborator meets the invariant (R130, R131). -/
theorem issueKdf_inv {s : State} (hs : s.Inv) (hph : s.status.state = .deriveT ∨ s.status.state = .deriveU)
    (hr : s.hid.krspRdy = false) (c : Byte) :
    State.Inv { s with hid := { s.hid with kpend := true, kdfReq := some (kdfRequest c s) } } :=
  have hb : s.status.busy = true := hph.elim (hs.busy_of_state · nofun) (hs.busy_of_state · nofun)
  { hs with
    quiet := fun hq => Bool.noConfusion (hb.symm.trans hq)
    kdf_held := rfl
    kdf_phase := fun _ => hph
    kdf_one := fun h => by rw [hr] at h; cases h.2
    kdf_request := fun r h => ⟨c, by cases h; rfl⟩
    fits := ⟨hs.fits.fr, hs.fits.sqr, hs.fits.ans⟩ }

theorem derivePhase_hold_inv {d : RegIdx} {c : Byte} {s u : State} (hs : s.Inv)
    (hph : s.status.state = .deriveT ∨ s.status.state = .deriveU) (h : derivePhase d c s = .hold u) : u.Inv := by
  rcases derivePhase_hold h with rfl | ⟨-, hr, rfl⟩
  · exact hs
  · exact issueKdf_inv hs hph hr c

/-- A step of the SQRT phase: wait, issue, or store (R170, R178). -/
theorem sqrtPhase_cases (s : State) :
    sqrtPhase s = .hold s ∨ (s.hid.sqrtAns = none ∧ sqrtPhase s = .hold (issueRoot s)) ∨
      ∃ ans, s.hid.sqpend = false ∧ s.hid.sqrtAns = some ans ∧
        sqrtPhase s = if s.hid.sqidx = 3 then .finished (storeRoot ans s)
          else .hold { storeRoot ans s with hid := { (storeRoot ans s).hid with sqidx := s.hid.sqidx + 1 } } := by
  unfold sqrtPhase
  split
  · exact .inl rfl
  · rename_i hp
    split
    · exact .inr (.inl ⟨‹_›, rfl⟩)
    · exact .inr (.inr ⟨_, by simpa using hp, ‹_›, rfl⟩)

/-- A state with a request for the SQRT collaborator meets the invariant (R170, R178). -/
theorem issueRoot_inv {s : State} (hs : s.Inv) (hph : s.status.state = .sqrt) (ha : s.hid.sqrtAns = none) :
    (issueRoot s).Inv := by
  have hb := hs.busy_of_state hph nofun
  have hidx : (if s.hid.sqidx = 0 then 1 else s.hid.sqidx) ≠ 0 := by
    split
    · decide
    · assumption
  obtain ⟨v, n, hv⟩ := fetch_eq (valueReg (if s.hid.sqidx = 0 then 1 else s.hid.sqidx)) s
  simp only [issueRoot, hv]
  exact { hs.withEnv { s.env with draws := n } hs.mem_wf rfl with
    quiet := fun hq => Bool.noConfusion (hb.symm.trans hq)
    sqrt_held := rfl
    sqrt_one := fun _ => ha
    sqrt_phase := fun _ => ⟨hph, hidx⟩
    sqrt_request := fun r h => by cases h; rfl
    roots_clear := fun hq _ => absurd hph hq
    fits := ⟨hs.fits.fr, hs.fits.sqr, hs.fits.ans⟩ }

/-- Storing an answer keeps the masks' rule: an invalid candidate has root 0 (R173, R174). -/
theorem storeRoot_masks {s : State} (hs : s.Inv) (ans : Bool × FE) (k : Fin 3)
    (h : (storeRoot ans s).hid.sqv[k] = false) : (storeRoot ans s).hid.sqr[k] = 0 := by
  have hk := hs.masks k
  simp only [storeRoot_hid, Fin.getElem_fin, Vector.getElem_set] at h hk ⊢
  split
  · rw [if_pos ‹_›] at h
    simp [h]
  · rw [if_neg ‹_›] at h
    exact hk h

/-- The stored roots have FW bits (R43). -/
theorem storeRoot_sqr_lt {s : State} (hs : s.Inv) {ans : Bool × FE} (ha : s.hid.sqrtAns = some ans) (k : Fin 3) :
    (storeRoot ans s).hid.sqr[k] < 2 ^ s.fw := by
  have hk := hs.fits.sqr k
  simp only [storeRoot_hid, Fin.getElem_fin, Vector.getElem_set] at hk ⊢
  split
  · split
    · exact hs.fits.ans ans ha
    · exact Nat.two_pow_pos _
  · exact hk

/-- With new roots in SQR and SQV and nothing on the SQRT port, the SQRT phase, with any next candidate, and the SELECT phase
meet the invariant (R43, R173). -/
theorem withRoots_inv {s : State} (hs : s.Inv) (hph : s.status.state = .sqrt) (hp : s.hid.sqpend = false)
    {r : Vector FE 3} {v : Vector Bool 3} (hmask : ∀ k : Fin 3, v[k] = false → r[k] = 0)
    (hfit : ∀ k : Fin 3, r[k] < 2 ^ s.fw) (j : BitVec 2) {p : Phase} (hpp : p = .sqrt ∨ p = .select)
    {i : Instr} (hi : decode s.cmdl = .ok i) (hm : p ∈ phasesOf i.op) :
    State.Inv { s with
      status := { s.status with state := p }
      hid := { s.hid with sqv := v, sqr := r, sqrtAns := none, sqidx := j } } :=
  have hb := hs.busy_of_state hph nofun
  { hs with
    busy_iff := ⟨fun _ => ne_idle_of_mem_phasesOf hm, fun _ => hb⟩
    running := fun _ => ⟨i, hi, hm⟩
    quiet := fun hq => Bool.noConfusion (hb.symm.trans hq)
    kdf_phase := fun h => by rcases hs.kdf_phase h with h | h <;> rw [hph] at h <;> cases h
    sqrt_one := fun _ => rfl
    sqrt_phase := fun h => h.elim (fun h => Bool.noConfusion (hp.symm.trans h)) nofun
    roots_clear := fun hq hl => (hpp.elim hq hl).elim
    masks := hmask
    fits := ⟨hs.fits.fr, hfit, nofun⟩ }

/-- After the third candidate the SELECT phase meets the invariant (R178, R199). -/
theorem sqrtPhase_finished_inv {s u : State} (hs : s.Inv) (hph : s.status.state = .sqrt) {i : Instr}
    (hi : decode s.cmdl = .ok i) (hm : .select ∈ phasesOf i.op) (hu : sqrtPhase s = .finished u) :
    State.Inv { u with status := { u.status with state := .select } } := by
  rcases sqrtPhase_cases s with h | ⟨-, h⟩ | ⟨ans, hp, ha, h⟩ <;> rw [h] at hu
  · cases hu
  · cases hu
  · split at hu <;> cases hu
    exact withRoots_inv hs hph hp (storeRoot_masks hs ans) (storeRoot_sqr_lt hs ha) s.hid.sqidx (.inr rfl) hi hm

/-- A phase step that holds keeps the invariant. -/
theorem PhaseStep.hold_inv {ph : Phase} {f : State → PhaseEnd} (h : PhaseStep ph f) {s u : State} (hs : s.Inv)
    (hph : s.status.state = ph) {i : Instr} (hi : decode s.cmdl = .ok i) (hm : ph ∈ phasesOf i.op)
    (hu : f s = .hold u) : u.Inv := by
  cases h with
  | arith rd formula _ =>
      unfold arithPhase at hu
      split at hu <;> cases hu
  | clear => cases hu
  | validate =>
      unfold validatePhase at hu
      simp only at hu
      split at hu <;> cases hu
  | deriveT d c => exact derivePhase_hold_inv hs (.inl hph) hu
  | deriveU d c => exact derivePhase_hold_inv hs (.inr hph) hu
  | generate =>
      unfold generatePhase at hu
      split at hu <;> cases hu
  | selfcheck =>
      unfold selfcheckPhase selfcheckVerdict at hu
      split at hu <;> split at hu <;> cases hu
  | sqrt =>
      rcases sqrtPhase_cases s with h | ⟨ha, h⟩ | ⟨ans, hp, ha, h⟩ <;> rw [h] at hu
      · cases hu; exact hs
      · cases hu; exact issueRoot_inv hs hph ha
      · split at hu <;> cases hu
        have hstored := withRoots_inv hs hph hp (storeRoot_masks hs ans) (storeRoot_sqr_lt hs ha) (s.hid.sqidx + 1)
          (.inl rfl) hi hm
        rw [← hph] at hstored
        exact hstored
  | select =>
      unfold selectPhase at hu
      generalize selectRes s = v at hu
      simp only at hu
      split at hu <;> cases hu

/-- A phase step that is over, in any phase but SQRT and SELECT, leaves no hidden data and no PV 1 of its own (R45, R139). -/
theorem PhaseStep.finished_cleared {ph : Phase} {f : State → PhaseEnd} (h : PhaseStep ph f) {s u : State} (hs : s.Inv)
    (hph : s.status.state = ph) (hq : ph ≠ .sqrt) (hl : ph ≠ .select) (hu : f s = .finished u) :
    u.hid = Hidden.cleared ∧ (u.status.pv = true → s.status.pv = true) := by
  have quiet (ht : ph ≠ .deriveT) (hu : ph ≠ .deriveU) : s.hid = Hidden.cleared := by
    subst hph; exact hs.cleared_outside_ports ht hu hq hl
  cases h with
  | arith rd formula _ =>
      unfold arithPhase at hu
      split at hu <;> cases hu <;> exact ⟨quiet nofun nofun, fun h => (Bool.and_eq_true_iff.1 h).1⟩
  | clear => cases hu; exact ⟨quiet nofun nofun, nofun⟩
  | validate =>
      have hv := validatePhase_state s
      rw [hu] at hv
      rw [show u = _ from hv, fetch_hid, fetch_hid, fetch_status, fetch_status]
      exact ⟨quiet nofun nofun, id⟩
  | deriveT d c | deriveU d c =>
      obtain ⟨hk, hh, hpv⟩ := derivePhase_finished hu
      exact ⟨hh.trans (hs.cleared_after_response hk (hph ▸ hq) (hph ▸ hl)), hpv⟩
  | generate =>
      unfold generatePhase at hu
      split at hu <;> cases hu
      · rw [drawCandidates_hid, drawCandidates_status]
        exact ⟨quiet nofun nofun, id⟩
      · rw [writeCandidates_hid, writeCandidates_status]
        exact ⟨quiet nofun nofun, id⟩
  | selfcheck =>
      have h : u = s ∨ u = s.nextDraw.nextDraw := by
        have h := selfcheckPhase_state s
        rwa [hu] at h
      rcases h with rfl | rfl <;> exact ⟨quiet nofun nofun, id⟩
  | sqrt => exact absurd rfl hq
  | select => exact absurd rfl hl

/-- A phase step that is over and has a phase after it goes on to a state with the invariant (R199). -/
theorem PhaseStep.advance_inv {s u : State} (hs : s.Inv) (hb : s.status.busy = true) {f : State → PhaseEnd}
    (h : PhaseStep s.status.state f) {i : Instr} (hi : decode s.cmdl = .ok i) {p : Phase} (hu : f s = .finished u)
    (hp : phaseAfter s.status.state (phasesOf i.op) = some p) :
    State.Inv { u with status := { u.status with state := p } } := by
  have hkept := h.kept s
  have hregs := h.regsFit hs.regsFit
  rw [hu] at hkept hregs
  by_cases hl : s.status.state = .select
  · rw [hl, phaseAfter_select] at hp
    cases hp
  · by_cases hq : s.status.state = .sqrt
    · have hm := phaseAfter_mem hp
      rw [hq] at h hp
      obtain rfl := phaseAfter_sqrt hp
      cases h
      exact sqrtPhase_finished_inv hs hq hi hm hu
    · obtain ⟨hh, hpv⟩ := h.finished_cleared hs rfl hq hl hu
      exact Machine.advance_inv hs hb hkept hregs hh hpv hi (phaseAfter_mem hp)

/-- The sequencer's turn keeps the invariant. -/
theorem sequencerTurn_invKept {s t : State} (hs : s.Inv) (h : sequencerTurn s = .next t) : InvKept s t := by
  by_cases hb : s.status.busy = true
  · obtain ⟨i, f, hi, hf, rfl⟩ := sequencerTurn_next hb h
    obtain ⟨i', hi', hm⟩ := hs.running hb
    obtain rfl : i' = i := by rw [hi] at hi'; cases hi'; rfl
    have hstep := phaseStep_of_bodyOf hf
    have hkept := hstep.kept s
    rcases finishPhase_cases i'.op (f s) with ⟨u, he, hu⟩ | ⟨u, p, he, hp, hu⟩ | ⟨c, hu⟩ <;> rw [hu]
    · rw [he] at hkept
      exact ⟨hstep.hold_inv hs rfl hi hm he, hkept.params⟩
    · rw [he] at hkept
      have hstate : u.status.state = s.status.state := hkept.state
      rw [hstate] at hp
      exact ⟨hstep.advance_inv hs hb hi he hp, hkept.params⟩
    · rw [InvKept, complete_env]
      exact ⟨complete_inv c (hkept.mem ▸ hs.mem_wf) (hstep.regsFit hs.regsFit), hkept.params⟩
  · rw [sequencerTurn, if_neg hb] at h
    cases h
    exact ⟨hs, rfl, rfl⟩

/-- Settles O7: a step is a turn after the schedule's next name is taken off, and each agent's turn keeps the invariant. -/
theorem stepKeepsTheInvariant : Obligations.StepKeepsTheInvariant := by
  intro s t hs h
  have hpop := (popSchedule_envOnly s).invKept hs
  refine hpop.trans ?_
  obtain ⟨hinv, -, -⟩ := hpop
  unfold step turn at h
  split at h
  · exact hostTurn_invKept hinv h
  · exact sequencerTurn_invKept hinv h
  · cases h; exact kdfTurn_invKept hinv
  · cases h; exact sqrtTurn_invKept hinv
  · cases h; exact resetTurn_invKept hinv

end Sys2Proof.Machine
end

section
/-! PROOFS. Reset, completion, and the agents' turns that the state's rules name. -/

namespace Sys2Proof.Machine

/-- Settles O46: only `complete` lowers BUSY, and it keeps the phase step's frame. -/
theorem completionLeavesTheRecord : Obligations.CompletionLeavesTheRecord := by
  intro s t hb h hbt
  obtain ⟨i, f, -, hf, rfl⟩ := sequencerTurn_next hb h
  have hkept := (phaseStep_of_bodyOf hf).kept s
  have stays {u : State} (hu : PhaseKept s u) (hub : u.status.busy = false) : False := by
    rw [hu.busy, hb] at hub
    cases hub
  rcases finishPhase_cases i.op (f s) with ⟨u, he, hu⟩ | ⟨u, p, he, -, hu⟩ | ⟨c, hu⟩ <;> rw [hu] at hbt ⊢
  · rw [he] at hkept
    exact (stays hkept hbt).elim
  · rw [he] at hkept
    exact (stays hkept hbt).elim
  · rw [complete_errinfo, complete_err, complete_cmdl, hkept.state, hkept.control.cmdl]
    exact ⟨complete_done _ _, complete_state _ _, complete_hid _ _, rfl, rfl, fun hc => if_neg hc⟩

/-- Settles O58: a write while BUSY = 1 is refused, and a collaborator answers on its port only. -/
theorem operandsAreStableWhileBusy : Obligations.OperandsAreStableWhileBusy := by
  have collaborator {s t : State} (hb : s.status.busy = true) (h : PhaseKept s t ∧ t.fr = s.fr) :
      t.fr = s.fr ∧ t.ctrl = s.ctrl ∧ t.kdf = s.kdf ∧ t.cmdl = s.cmdl ∧ t.status.busy = true ∧
        t.status.state = s.status.state := by
    obtain ⟨hkept, hfr⟩ := h
    obtain ⟨hctrl, hkdf, hcmdl⟩ := hkept.control
    exact ⟨hfr, hctrl, hkdf, hcmdl, hkept.busy.trans hb, hkept.state⟩
  intro s t a hb ha h
  rcases ha with rfl | rfl | rfl
  · obtain ⟨u, r, v, hu, hw⟩ := hostTurn_next h
    rw [hu.block] at hw
    have notIdle (hidle : s.status.busy = false) : False := by rw [hb] at hidle; cases hidle
    cases hw with
    | ignored | status | refused => exact ⟨rfl, rfl, rfl, rfl, hb, rfl⟩
    | command hidle | control hidle | kdfReg hidle | register hidle => exact (notIdle hidle).elim
  · cases h; exact collaborator hb (kdfTurn_kept s)
  · cases h; exact collaborator hb (sqrtTurn_kept s)

theorem reg_reset (i : RegIdx) : State.reset.reg i = 0 := by simp [State.reg_def, State.reset]

/-- Settles O4: both states are R47's values with some environment. -/
theorem resetSetsEveryRegister : Obligations.ResetSetsEveryRegister := by
  intro s
  refine ⟨resetTurn s, rfl, fun r hr => ?_⟩
  have hreset : ∃ e, r = { State.reset with env := e } := by
    rcases hr with rfl | rfl
    · exact ⟨_, rfl⟩
    · exact ⟨Env.initial, rfl⟩
  have hfw : (r = resetTurn s → r.fw = s.fw) ∧ (r = State.reset → r.fw = 256) :=
    ⟨fun h => h ▸ resetTurn_fw s, fun h => h ▸ rfl⟩
  have hcfg := cfgWord_eq r
  have hctrl : ctrlWord State.reset.ctrl = 0 := by decide
  have hstatus : statusWord State.reset.status = 0 := by decide
  have herrinfo : errinfoWord State.reset.errinfo = 0 := by decide
  have hpbits : pbitsWord State.reset = 0 := by decide
  have hroots : ∀ i : Fin 3, Hidden.cleared.sqr[i] = 0 ∧ Hidden.cleared.sqv[i] = false := by decide
  obtain ⟨e, rfl⟩ := hreset
  exact ⟨rfl, hctrl, hstatus, herrinfo, rfl, rfl, rfl, rfl, rfl, rfl, rfl, reg_reset, rfl, hpbits, rfl, rfl, rfl, rfl,
    hroots, rfl, rfl, rfl, rfl, hcfg, hfw⟩

/-- Settles O6: the reset state is idle, with cleared hidden registers and every register 0. -/
theorem resetMeetsTheInvariant : Obligations.ResetMeetsTheInvariant := by
  refine State.inv_of_idle rfl rfl rfl rfl fun i => ?_
  rw [reg_reset]
  exact Nat.two_pow_pos _

/-- Settles O10: the sequencer decodes CMDL and hands the command to `exec`. -/
theorem sequencerStepRunsTheLatchedCommand : Obligations.SequencerStepRunsTheLatchedCommand := by
  intro s i hn hb hi
  have hturn : step s = sequencerTurn s.popSchedule := by rw [step, hn]; rfl
  rw [hturn, sequencerTurn, popSchedule_status, if_pos hb, popSchedule_cmdl, hi]

/-- Settles O11: offset 0x00C is CMD, and its idle write issues the word. -/
theorem commandWriteRunsItsWord : Obligations.CommandWriteRunsItsWord := by
  intro s w i rest hn hops hb hi
  have hturn : step s = hostOp (.write .w32 0x00C w) { s.popSchedule with
      env := { s.popSchedule.env with hostOps := rest } } := by
    rw [step, hn]
    simp [turn, hostTurn, hops]
  rw [hturn, hostOp_write (r := .cmd) rfl rfl, writeRegion, guardBusy, if_neg (by simp [hb]), issueCommand]
  simp only [hi]
  rfl

end Sys2Proof.Machine
end

section
/-! PROOFS. The register window: what every register reads, what every write leaves. -/

namespace Sys2Proof.Machine

/-- An idle write of a guarded region is done (R48). -/
theorem hostOp_guarded_idle {off : Offset} {r : Region} {v : Word} {f : State → Result} (h4 : off.toNat % 4 = 0)
    (hr : regionOf off = r) (hf : ∀ u, writeRegion r v u = guardBusy f u) {s t : State} (hb : s.status.busy = false)
    (ht : f (s.respond .ack) = .next t) : hostOp (.write .w32 off v) s = .next t := by
  rw [hostOp_write h4 hr, hf, guardBusy, respond_status, hb]
  exact ht

/-- A write of a guarded region while BUSY = 1 sets BWE and does nothing else (R48). -/
theorem hostOp_guarded_busy {off : Offset} {r : Region} {v : Word} {f : State → Result} (h4 : off.toNat % 4 = 0)
    (hr : regionOf off = r) (hf : ∀ u, writeRegion r v u = guardBusy f u) {s : State} (hb : s.status.busy = true) :
    hostOp (.write .w32 off v) s =
      .next { s with status := { s.status with bwe := true }, env := { s.env with bus := .ack } } := by
  rw [hostOp_write h4 hr, hf, guardBusy, respond_status, hb]
  rfl

theorem isPointReg_iff {d : RegIdx} : isPointReg d = true ↔ d = 12 ∨ d = 13 := by
  rw [isPointReg, Bool.or_eq_true, beq_iff_eq, beq_iff_eq]

/-- A write-back leaves PV as R101 says. -/
theorem pvAfterWrite_writeback (d : RegIdx) (v : FE) (s : State) : PvAfterWrite d s (writeback d v s) := by
  unfold PvAfterWrite
  rw [writeback_status]
  by_cases h : d = 12 ∨ d = 13
  · rw [if_pos h, isPointReg_iff.2 h]
    exact Bool.and_false _
  · rw [if_neg h, Bool.eq_false_iff.2 (mt isPointReg_iff.1 h)]
    exact Bool.and_true _

/-- A write of a word in range is a write-back of the value with the word replaced (R29). -/
theorem writeFrWord_of_lt {k : Fin 32} {s : State} (hk : k.val < s.nw) (i : RegIdx) (v : Word) :
    writeFrWord i k v s = writeback i (setWord k v (s.reg i)) s :=
  if_neg (Nat.not_le.2 hk)

/-- The value a read of a field register's word returns (R28, R30). -/
theorem readFrWord_value (i : RegIdx) (k : Fin 32) (s : State) :
    (readFrWord i k s).1 =
      if s.nw ≤ k.val then 0 else if s.status.busy then s.drawWord else getWord k (s.reg i) := by
  unfold readFrWord
  split
  · rfl
  · split <;> rfl

/-- An idle read of a word in range changes nothing (R30). -/
theorem readFrWord_of_idle {i : RegIdx} {k : Fin 32} {s : State} (hk : k.val < s.nw) (hb : s.status.busy = false) :
    readFrWord i k s = (getWord k (s.reg i), s) := by
  rw [readFrWord, if_neg (by omega), hb]
  rfl

/-- Bits 3 and 2 of a word decide the field they make up. -/
theorem extractLsb'_two_congr {v w : Word} (h2 : v.getLsbD 2 = w.getLsbD 2) (h3 : v.getLsbD 3 = w.getLsbD 3) :
    v.extractLsb' 2 2 = w.extractLsb' 2 2 := by
  apply BitVec.eq_of_getLsbD_eq
  intro i hi
  simp only [BitVec.getLsbD_extractLsb', hi, decide_true, Bool.true_and]
  interval_cases i
  · exact h2
  · exact h3

/-- Settles O49: each read reaches its region, and each word's fields are those of the register. -/
theorem registerReads : Obligations.RegisterReads := by
  intro s
  obtain ⟨hfw, hmargin, hcfg⟩ := cfgWord_fields s
  obtain ⟨hx3f, hredsel, hie, hctrl⟩ := ctrlWord_fields s.ctrl
  obtain ⟨hbusy, hdone, hpv, hbwe, herr, hstate, hstatus⟩ := statusWord_fields s.status
  obtain ⟨hephase, hzero, hklen⟩ := errinfoWord_fields s.errinfo
  obtain ⟨hbits, hpbits⟩ := pbitsWord_fields s
  refine ⟨cfgWord s, ctrlWord s.ctrl, statusWord s.status, pbitsWord s, errinfoWord s.errinfo, ?_, hfw, hmargin, hcfg,
    hx3f ▸ x3f_bits_mem _, hredsel, hie, hctrl, hbusy, hdone, hpv, hbwe, herr ▸ number_mem _,
    ⟨hstate ▸ stateCode_mem _, hephase ▸ stateCode_mem _⟩, hstatus, hzero, hklen, fun hf => hbits (hf.fr 0), hpbits⟩
  intro off v h
  simp only [List.mem_cons, Prod.mk.injEq, List.not_mem_nil, or_false] at h
  rcases h with ⟨rfl, rfl⟩ | ⟨rfl, rfl⟩ | ⟨rfl, rfl⟩ | ⟨rfl, rfl⟩ | ⟨rfl, rfl⟩ | ⟨rfl, rfl⟩ | ⟨rfl, rfl⟩ | ⟨rfl, rfl⟩ |
    ⟨rfl, rfl⟩ | ⟨rfl, rfl⟩ | ⟨rfl, rfl⟩ | ⟨rfl, rfl⟩ <;> exact hostOp_read rfl rfl s

/-- Settles O50: the write is a write-back of the value with word k replaced (R29). -/
theorem fieldRegisterWordWriteReadsBack : Obligations.FieldRegisterWordWriteReadsBack := by
  intro s i k v hk hb
  have hk32 : k < 32 := by
    have := s.env.fw.extra.isLt
    simp only [State.nw, FieldWidth.nw] at hk
    omega
  have hregion : regionOf (frOffset i k) = .frWord i ⟨k, hk32⟩ := regionOf_frWord i ⟨k, hk32⟩
  have haligned : (frOffset i k).toNat % 4 = 0 := by
    rw [frOffset, BitVec.toNat_ofNat]
    omega
  have hwords (l : Nat) : getWord l ((writeback i (setWord k v (s.reg i)) (s.respond .ack)).reg i) =
      if l = k then v else getWord l (s.reg i) := by
    rw [reg_writeback, if_pos rfl, getWord_setWord]
  refine ⟨writeback i (setWord k v (s.reg i)) (s.respond .ack), ?_, rfl, ?_, ?_, fun l _ => hwords l, ?_⟩
  · exact hostOp_guarded_idle haligned hregion (fun _ => rfl) hb
      (congrArg Host.Outcome.next (writeFrWord_of_lt (k := ⟨k, hk32⟩) (s := s.respond .ack) hk i v))
  · exact pvAfterWrite_writeback i _ (s.respond .ack)
  · intro j hj
    rw [reg_writeback, if_neg hj.symm]
    rfl
  · have hread := readFrWord_of_idle (i := i) (k := ⟨k, hk32⟩)
      (s := writeback i (setWord k v (s.reg i)) (s.respond .ack)) hk hb
    rw [hostOp_read haligned hregion, readRegion, hread, hwords, if_pos rfl]
    rfl

/-- Settles O52: only the bits 0b11 leave X3F as it was (R25). -/
theorem controlWriteReadsBack : Obligations.ControlWriteReadsBack := by
  intro s v hb
  obtain ⟨hold, -, -, -⟩ := ctrlWord_fields s.ctrl
  obtain ⟨hx3f, hredsel, hie, hzero⟩ := ctrlWord_fields (writeCtrl v s.ctrl)
  refine ⟨{ s.respond .ack with ctrl := writeCtrl v s.ctrl }, hostOp_guarded_idle rfl rfl (fun _ => rfl) hb rfl, rfl, ?_,
    extractLsb'_two_congr hredsel hie, hzero, hx3f ▸ bits_ne_three _⟩
  rw [hold, ← bits_x3Write]
  exact hx3f

/-- Settles O53: STATUS is no protected register, and its write is W1C. -/
theorem statusWriteClearsDoneAndBwe : Obligations.StatusWriteClearsDoneAndBwe := by
  intro s v
  have clears (b c : Bool) : (b && !c) = if c then false else b := by cases b <;> cases c <;> rfl
  refine ⟨?_, hostOp_read (r := .status) rfl rfl s⟩
  rw [hostOp_write (r := .status) rfl rfl, writeRegion, writeStatus, clears, clears]
  rfl

/-- Settles O54: the protected regions are guarded, and no other write sets BWE. -/
theorem writesWhileBusyAreRefused : Obligations.WritesWhileBusyAreRefused := by
  intro s off v hb h4
  constructor
  · intro h
    rcases h with h | h
    · simp only [List.mem_cons, List.not_mem_nil, or_false] at h
      rcases h with rfl | rfl | rfl | rfl | rfl | rfl | rfl <;> exact hostOp_guarded_busy h4 rfl (fun _ => rfl) hb
    · obtain ⟨i, k, hr⟩ := regionOf_frWindow h
      exact hostOp_guarded_busy h4 hr (fun _ => rfl) hb
  · intro h
    rw [hostOp_write h4 rfl]
    have ignored {r : Region} (hr : regionOf off = r) (hw : writeRegion r v (s.respond .ack) = .next (s.respond .ack)) :
        ∃ t, writeRegion (regionOf off) v (s.respond .ack) = .next t ∧ (t.status.bwe = true → s.status.bwe = true) :=
      ⟨s.respond .ack, hr ▸ hw, id⟩
    rcases h with h | h
    · simp only [List.mem_cons, List.not_mem_nil, or_false] at h
      rcases h with rfl | rfl | rfl | rfl | rfl
      · exact ignored (r := .id) rfl rfl
      · exact ignored (r := .cfg) rfl rfl
      · refine ⟨_, rfl, fun hbwe => ?_⟩
        simp only [writeStatus, respond_status, Bool.and_eq_true] at hbwe
        exact hbwe.1
      · exact ignored (r := .pbits) rfl rfl
      · exact ignored (r := .errinfo) rfl rfl
    · exact ignored (regionOf_reserved h) rfl

/-- Settles O55: the five stores are guarded writes, and the read-only regions have no effect of a write. -/
theorem descriptorWritesStore : Obligations.DescriptorWritesStore := by
  intro s v
  constructor
  · intro hb off k h
    simp only [List.mem_cons, Prod.mk.injEq, List.not_mem_nil, or_false] at h
    rcases h with ⟨rfl, rfl⟩ | ⟨rfl, rfl⟩ | ⟨rfl, rfl⟩ | ⟨rfl, rfl⟩ | ⟨rfl, rfl⟩ <;>
      exact hostOp_guarded_idle rfl rfl (fun _ => rfl) hb rfl
  · intro off h
    simp only [List.mem_cons, List.not_mem_nil, or_false] at h
    rcases h with rfl | rfl | rfl | rfl <;> exact hostOp_write rfl rfl v s

/-- No region's value depends on a hidden register or on CMDL (R40, R46). -/
theorem readRegion_withHidden (r : Region) (s : State) (h : Hidden) (c : Word) :
    (readRegion r { s with hid := h, cmdl := c }).1 = (readRegion r s).1 := by
  cases r with
  | frWord i k => exact (readFrWord_value i k _).trans (readFrWord_value i k s).symm
  | _ => rfl

/-- A write leaves the hidden registers, and CMDL unless it is a CMD write (R40, R46). -/
theorem WriteEffect.hidden {r : Region} {v : Word} {s t : State} (h : WriteEffect r v s t) :
    t.hid = s.hid ∧ (r ≠ .cmd → t.cmdl = s.cmdl) := by
  cases h with
  | command hb hr h =>
      refine ⟨?_, fun hn => absurd hr hn⟩
      rcases issueCommand_next hb h with ⟨c, rfl⟩ | ⟨i, -, -, rfl⟩ <;> rfl
  | ignored | status | refused | control | kdfReg | register => exact ⟨rfl, fun _ => rfl⟩

/-- Settles O57: no region's value names hidden state, and no effect of a write reaches it. -/
theorem windowDoesNotReachHiddenState : Obligations.WindowDoesNotReachHiddenState := by
  intro s h c width off
  constructor
  · unfold busRead
    split
    · exact congrArg BusResponse.data (readRegion_withHidden (regionOf off) s h c)
    · rfl
  · intro v t ht
    rcases busWrite_next ht with rfl | ⟨-, hw⟩
    · exact ⟨rfl, fun _ => rfl⟩
    · obtain ⟨hhid, hcmdl⟩ := hw.hidden
      exact ⟨hhid, fun hoff => hcmdl fun hr => hoff (regionOf_eq_cmd hr)⟩

/-- Settles O59: IRQ reads DONE and IE, and each rule writes one of the two. -/
theorem interruptFollowsDoneAndIe : Obligations.InterruptFollowsDoneAndIe := by
  refine ⟨fun s c => ⟨?_, ?_⟩, fun s t h => ?_, fun s t i hb hi h => ?_, fun s t v hb hv h => ?_⟩
  · simp [State.irq]
  · simp [State.irq]
  · cases h
    simp [State.irq, writeStatus]
  · rw [exec_of_idle hb, if_neg hi] at h
    cases h
    rfl
  · rw [hostOp_guarded_idle (r := .ctrl) rfl rfl (fun _ => rfl) hb rfl] at h
    cases h
    exact (congrArg (s.status.done && ·) hv).trans (Bool.and_false _)

end Sys2Proof.Machine
end

section
/-! PROOFS. The window's accesses as the memory rules say them: refused accesses, reads, reserved offsets, words of a field
register, and the host's own bytes. -/

namespace Sys2Proof.Machine

/-- An access of another width or at a misaligned offset is not accepted (R62). -/
theorem accessOk_eq_false {width : AccessWidth} {off : Offset} (h : width ≠ .w32 ∨ off.toNat % 4 ≠ 0) :
    accessOk width off = false := by
  rcases h with hwidth | halign
  · simp [accessOk, hwidth]
  · simp [accessOk, halign]

/-- Settles O47: an access that is not accepted reaches no region. -/
theorem badAccessChangesNothing : Obligations.BadAccessChangesNothing := by
  intro s width off v h
  have hno := accessOk_eq_false h
  constructor
  · simp [hostOp, busRead, hno, State.respond]
  · simp [hostOp, busWrite, hno, State.respond]

/-- Settles O56: a refused read only answers, and an accepted one is at most a draw followed by the response. -/
theorem readsChangeNothing : Obligations.ReadsChangeNothing := by
  intro s width off
  by_cases hbad : width ≠ .w32 ∨ off.toNat % 4 ≠ 0
  · exact ⟨.error, s.env.draws, (badAccessChangesNothing s width off 0 hbad).1⟩
  · obtain ⟨rfl, h4⟩ : width = .w32 ∧ off.toNat % 4 = 0 := by simpa using hbad
    rw [hostOp_read h4 rfl]
    rcases readRegion_state (regionOf off) s with hkept | hdrawn
    · exact ⟨_, s.env.draws, by rw [hkept]; rfl⟩
    · exact ⟨_, s.env.draws + 1, by rw [hdrawn]; rfl⟩

/-! ### Reserved offsets (R28, R63) -/

/-- The region of the offset of word k of FR[i] (R28). -/
theorem regionOf_of_toNat_eq {off : Offset} {i : RegIdx} {k : Fin 32}
    (h : off.toNat = 0x400 + 0x80 * i.val + 4 * k.val) : regionOf off = .frWord i k := by
  rw [← regionOf_frWord, ← h, BitVec.ofNat_toNat, BitVec.setWidth_eq]

/-- A reserved word of a field register reads 0 (R28, R63). -/
theorem readFrWord_of_le {s : State} {k : Fin 32} (hk : s.nw ≤ k.val) (i : RegIdx) : readFrWord i k s = (0, s) :=
  if_pos hk

/-- A reserved word of a field register ignores a write (R28, R63). -/
theorem writeFrWord_of_le {s : State} {k : Fin 32} (hk : s.nw ≤ k.val) (i : RegIdx) (v : Word) :
    writeFrWord i k v s = s :=
  if_pos hk

/-- Settles O48: the offsets outside the FR windows name the reserved region; a reserved word inside them passes the BUSY
guard like every word of a window and then has no effect. -/
theorem reservedOffsetsReadZero : Obligations.ReservedOffsetsReadZero := by
  intro s off v h4
  refine ⟨fun h => ?_, fun i k hnw hk h => ?_⟩
  · have hr := regionOf_reserved h
    exact ⟨hostOp_read h4 hr s, hostOp_write h4 hr v s⟩
  · have hr : regionOf off = .frWord i ⟨k, hk⟩ := regionOf_of_toNat_eq h
    constructor
    · rw [hostOp_read h4 hr, readRegion, readFrWord_of_le hnw]
      rfl
    · cases hb : s.status.busy with
      | true => exact hostOp_guarded_busy h4 hr (fun _ => rfl) hb
      | false =>
          refine hostOp_guarded_idle h4 hr (fun _ => rfl) hb ?_
          rw [writeFrWord_of_le hnw, if_neg Bool.false_ne_true]
          rfl

/-! ### The value of a field register (R65) -/

/-- The first n words of a value, weighted by their places, make up the value mod 2^(32n) (R65). -/
theorem sum_getWord (x : FE) (n : Nat) :
    ∑ k ∈ Finset.range n, (getWord k x).toNat * 2 ^ (32 * k) = x % 2 ^ (32 * n) := by
  induction n with
  | zero => simp [Nat.mod_one]
  | succ n ih =>
      rw [Finset.sum_range_succ, ih, getWord_toNat, Nat.mul_succ, pow_add, Nat.mod_mul, Nat.mul_comm (2 ^ (32 * n))]

/-- Settles O51: the NW words make up the value mod 2^FW, and an FW-bit value is its own remainder. -/
theorem fieldRegisterValueIsTheSumOfItsWords : Obligations.FieldRegisterValueIsTheSumOfItsWords := by
  intro s i hlt
  rw [sum_getWord, ← s.fw_eq, Nat.mod_eq_of_lt hlt]

/-! ### The host's own bytes (R61, R78) -/

/-- A change of the host's memory while the block is idle, or one that leaves the byte as it was, does not raise the flag
that makes KDF answers draws (R78; entry 12). -/
theorem bufChange_touched {a : Word} {m : Memory} {s : State}
    (h : s.status.busy = false ∨ m.read a.toNat = s.env.mem.read a.toNat) :
    (bufChange a m s).env.touched = s.env.touched := by
  rcases h with hidle | hsame
  · simp [hidle]
  · simp [hsame]

/-- Settles O60: the store is a change of the host's memory alone, and `Memory.write` keeps every other byte. -/
theorem hostBytesReadBack : Obligations.HostBytesReadBack := by
  intro s addr b hwf
  have hread := Memory.read_write_same s.env.mem addr.toNat b
  exact ⟨bufChange addr (s.env.mem.write addr.toNat b) s, rfl, rfl,
    fun h => bufChange_touched (h.imp_right fun hb => hread.trans hb.symm), hread,
    fun a ha => Memory.read_write_other s.env.mem b ha, Memory.wf_write addr.toNat b hwf⟩

end Sys2Proof.Machine
end

section
/-! PROOFS. The encoding: decoding is the selection of a row of R84, and a command and its word are inverse to each other. -/

namespace Sys2Proof

/-! ### Commands and their fields (R81, R84) -/

theorem Op.mem_all (o : Op) : o ∈ Op.all := by
  cases o <;> decide

/-- The command built for a row belongs to that row (R84). -/
@[simp] theorem op_instrOf (o : Op) (f : CmdFields) : (instrOf o f).op = o := by
  cases o <;> rfl

/-- A command's fields give the command back: its operands fit their fields (R82, R83). -/
@[simp] theorem instrOf_fields (i : Instr) : instrOf i.op i.fields = i := by
  cases i <;> simp [instrOf, Instr.op, Instr.fields]

/-- A command's fields are 0 where its row does not use them (R90). -/
theorem Instr.fields_unusedOk (i : Instr) : i.fields.unusedOk i.op = true := by
  cases i <;> rfl

/-- Fields that pass a row's checks are those of the command built from them (R84, R86). -/
theorem fields_instrOf {o : Op} {f : CmdFields} (hw : f.widthsOk = true) (hc : f.opc = o.code)
    (hu : f.unusedOk o = true) : (instrOf o f).fields = f := by
  rw [CmdFields.widthsOk_iff] at hw
  obtain ⟨-, hrd, hrs1, hrs2, -, hcnt⟩ := hw
  obtain ⟨opc, rd, rs1, rs2, rsv, cnt⟩ := f
  cases o <;> simp_all [instrOf, Instr.fields, CmdFields.unusedOk, Op.uses, Nat.mod_eq_of_lt]

/-! ### Decoding by rows (R84, R86, R89) -/

/-- The decoder answers a command exactly when a row selects the word, and then with the command of that row. -/
theorem decode_eq_ok_iff {w : Word} {i : Instr} :
    decode w = .ok i ↔ ∃ o : Op, o.selectedBy w = true ∧ instrOf o (fieldsOf w) = i := by
  constructor
  · intro h
    unfold decode decodeFields at h
    split at h
    case h_1 => cases h
    case h_2 o ho =>
      split at h
      case isTrue hu =>
        exact ⟨o, (o.selectedBy_iff w).2 ⟨(Op.code_of_ofCode ho).symm, hu⟩, Except.ok.inj h⟩
      case isFalse => cases h
  · rintro ⟨o, hs, rfl⟩
    obtain ⟨hc, hu⟩ := (o.selectedBy_iff w).1 hs
    simp [decode, decodeFields, hc, Op.ofCode_code, hu]

/-- A command's word selects the command's row (R84, R90). -/
theorem selectedBy_encode (i : Instr) : i.op.selectedBy (encode i) = true :=
  ((Laws.Encoding.statement_of i.fields_unusedOk).2 i.op).2 rfl

/-- Settles O1: a command's word selects its row, which gives its fields back; a decoded word has the fields of the command
built from them. -/
theorem decodeAndEncodeAgree : Obligations.DecodeAndEncodeAgree := by
  constructor
  · intro i
    exact decode_eq_ok_iff.2 ⟨i.op, selectedBy_encode i, by rw [fieldsOf_encode, instrOf_fields]⟩
  · intro w i h
    obtain ⟨o, hs, rfl⟩ := decode_eq_ok_iff.1 h
    obtain ⟨hc, hu⟩ := (o.selectedBy_iff w).1 hs
    apply word_eq_of_fields
    rw [fieldsOf_encode]
    exact fields_instrOf (fieldsOf_widthsOk w) hc hu

/-- Settles O2: `decode_eq_ok_iff` read for some command, and for the row of the command; an opcode belongs to one row. -/
theorem legalWordsAreTheRows : Obligations.LegalWordsAreTheRows := by
  refine ⟨fun w => ⟨?_, ?_⟩, ?_, fun _ _ _ => Op.selected_unique⟩
  · rintro ⟨i, h⟩
    obtain ⟨o, hs, -⟩ := decode_eq_ok_iff.1 h
    exact ⟨o, o.mem_all, hs⟩
  · rintro ⟨o, -, hs⟩
    exact ⟨instrOf o (fieldsOf w), decode_eq_ok_iff.2 ⟨o, hs, rfl⟩⟩
  · intro w i h
    obtain ⟨o, hs, rfl⟩ := decode_eq_ok_iff.1 h
    rwa [op_instrOf]

/-- Settles O3: the words are computed and decode by O1; no row selects an illegal example, so O2 makes it illegal. -/
theorem exampleWordsDecode : Obligations.ExampleWordsDecode := by
  constructor
  · intro e he
    have hword : encode e.2 = e.1 := by
      revert e
      decide
    exact ⟨hword, hword ▸ decodeAndEncodeAgree.1 e.2⟩
  · intro w hw i h
    have hnone : ∀ o ∈ Op.all, ¬ o.selectedBy w = true := by
      simp only [List.mem_cons, List.not_mem_nil, or_false] at hw
      rcases hw with rfl | rfl | rfl | rfl | rfl <;> decide
    obtain ⟨o, ho, hs⟩ := (legalWordsAreTheRows.1 w).1 ⟨i, h⟩
    exact hnone o ho hs

end Sys2Proof
end

section
/-! PROOFS. The field commands: one sequencer step writes the formula's value, or a free value when P ≤ 1, and completes;
for a prime modulus the power of R104 is the inverse. -/

namespace Sys2Proof.Machine

/-! ### The one step of a field command (R103, R115) -/

/-- A command whose only phase step is the arithmetic step that writes the formula's value to FR[rd] (R115). -/
structure IsArith (i : Instr) (rd : RegIdx) (formula : State → Nat) : Prop where
  phases : phasesOf i.op = [.exec]
  body : bodyOf i .exec = some (arithPhase rd formula)

/-- A field command whose step ends in a write-back completes with OK (R115, R199). -/
theorem IsArith.exec_eq {i : Instr} {rd : RegIdx} {formula : State → Nat} {s u : State} {v : Nat}
    (hi : IsArith i rd formula) (hs : RunningIn .exec s) (hu : u.status = s.status)
    (hstep : arithPhase rd formula s = .finished (writeback rd v u)) :
    exec i s = .next (complete .ok (writeback rd v u)) := by
  obtain ⟨hbusy, hstate⟩ := hs
  have hphase : (writeback rd v u).status.state = .exec := by rw [writeback_status, hu, hstate]
  rw [exec_of_busy i hbusy, runCommand_busy hbusy (by rw [hstate, hi.body]), hstep, finishPhase_exec hi.phases hphase]

/-- A write-back leaves every other field register (R101). -/
theorem otherRegsKept_writeback (d : RegIdx) (v : FE) (s : State) : OtherRegsKept d s (writeback d v s) :=
  fun j hj => by rw [reg_writeback, if_neg hj.symm]

/-- A write-back and the completion with OK are the write of one register (R101, R212). -/
theorem wroteOne_complete_writeback (d : RegIdx) (v : FE) (s : State) :
    WroteOne d v s (complete .ok (writeback d v s)) where
  completed := completed_complete .ok rfl ⟨rfl, rfl, rfl⟩
  value := by rw [reg_complete_ok, reg_writeback, if_pos rfl]
  others := otherRegsKept_writeback d v s
  pv := pvAfterWrite_writeback d v s
  env := ⟨complete_env .ok _, fun _ => by rw [complete_env, writeback_env]⟩

/-- With P ≥ 2 a field command writes its formula's value and nothing else (R115). -/
theorem IsArith.wroteOne {i : Instr} {rd : RegIdx} {formula : State → Nat} {s : State} (hi : IsArith i rd formula)
    (hs : RunningIn .exec s) (hp : 2 ≤ s.p) : ∃ t, exec i s = .next t ∧ WroteOne rd (formula s) s t :=
  ⟨_, hi.exec_eq hs rfl (arithPhase_of_two_le rd formula hp), wroteOne_complete_writeback rd _ s⟩

/-! ### The inverse of R104 for a prime modulus -/

/-- For prime P and z ≠ 0 in the field, z · z^(P−2) is 1 modulo P (Fermat's little theorem). -/
theorem mul_specInv_mod {p z : Nat} (hp : p.Prime) (hz : z ≠ 0) (hlt : z < p) : z * specInv p z % p = 1 := by
  have hcop : Nat.Coprime z p := (Nat.coprime_of_lt_prime hz hlt hp).symm
  have hexp : p - 2 + 1 = Nat.totient p := by
    have := hp.two_le
    rw [Nat.totient_prime hp]
    omega
  calc z * specInv p z % p
      = z ^ (p - 2 + 1) % p := by rw [specInv, if_neg hz, Nat.mul_mod_mod, pow_succ']
    _ = 1 % p := by rw [hexp]; exact Nat.ModEq.pow_totient hcop
    _ = 1 := Nat.mod_eq_of_lt hp.one_lt

/-- An element of the field has at most one inverse in [1, P) (R104). -/
theorem eq_of_mul_mod_eq_one {p z v w : Nat} (hp : p.Prime) (hz : z ≠ 0) (hlt : z < p) (hv : v < p) (hw : w < p)
    (hzv : z * v % p = 1) (hzw : z * w % p = 1) : w = v :=
  have hcop : Nat.Coprime p z := Nat.coprime_of_lt_prime hz hlt hp
  (Nat.ModEq.cancel_left_of_coprime hcop (hzw.trans hzv.symm)).eq_of_lt_of_lt hw hv

/-! ### The statements -/

/-- Settles O16: the sum and the negation are the formulas of the two commands' step. -/
theorem addAndNegate : Obligations.AddAndNegate := fun _ rd a b hs hp =>
  have hadd : IsArith (.fadd rd a b) rd fun s => (s.fe a + s.fe b) % s.p := ⟨rfl, rfl⟩
  have hneg : IsArith (.fneg rd a) rd fun s => (s.p - s.fe a) % s.p := ⟨rfl, rfl⟩
  ⟨hadd.wroteOne hs hp, hneg.wroteOne hs hp, fieldsOf_encode _, fieldsOf_encode _⟩

/-- Settles O17: the model's repeated products are the square and the cube. -/
theorem multiplySquareCube : Obligations.MultiplySquareCube := by
  intro s rd a b hs hp
  have hmul : IsArith (.fmul rd a b) rd fun s => s.fe a * s.fe b % s.p := ⟨rfl, rfl⟩
  have hsqr : IsArith (.fsqr rd a) rd fun s => s.fe a * s.fe a % s.p := ⟨rfl, rfl⟩
  have hcube : IsArith (.fcube rd a) rd fun s => s.fe a * s.fe a * s.fe a % s.p := ⟨rfl, rfl⟩
  rw [pow_two, pow_three']
  exact ⟨hmul.wroteOne hs hp, hsqr.wroteOne hs hp, hcube.wroteOne hs hp, fieldsOf_encode _, fieldsOf_encode _,
    fieldsOf_encode _⟩

/-- Settles O18: the value is the power of R104, an inverse by Fermat's little theorem and the only one by cancellation. -/
theorem inverseIsThePower : Obligations.InverseIsThePower := by
  intro s rd a hs hp
  have hinv : IsArith (.finv rd a) rd fun s => inv s.p (s.fe a) := ⟨rfl, rfl⟩
  obtain ⟨t, ht, hw⟩ := hinv.wroteOne hs hp
  rw [← specInv_eq_inv] at hw
  refine ⟨t, ht, hw, fun hprime hne => ?_, fieldsOf_encode _⟩
  have hlt : s.fe a < s.p := s.fe_lt a hprime.pos
  have hone : s.fe a * t.reg rd % s.p = 1 := by rw [hw.value]; exact mul_specInv_mod hprime hne hlt
  have hbound : t.reg rd < s.p := by rw [hw.value, specInv_eq_inv]; exact inv_lt _ _ hprime.pos
  have hpos : t.reg rd ≠ 0 := fun h0 => by simp [h0] at hone
  exact ⟨Nat.pos_of_ne_zero hpos, hbound, hone, fun w _ hwlt hw1 =>
    eq_of_mul_mod_eq_one hprime hne hlt hbound hwlt hone hw1⟩

/-- Settles O19: the formula of GEVAL's step is R107's polynomial. -/
theorem curvePolynomialIsEvaluated : Obligations.CurvePolynomialIsEvaluated := by
  intro s rd a hs hp
  have heval : IsArith (.geval rd a) rd fun s => s.g (s.fe a) := ⟨rfl, rfl⟩
  obtain ⟨t, ht, hw⟩ := heval.wroteOne hs hp
  exact ⟨t, ht, hw, fieldsOf_encode _⟩

/-- Settles O20: with P ≤ 1 the step of every field command writes a free value and counts the draw. -/
theorem fieldCommandsCompleteOnABadModulus : Obligations.FieldCommandsCompleteOnABadModulus := by
  intro s rd a b hs hp i hmem
  have harith : ∃ formula, IsArith i rd formula := by
    simp only [List.mem_cons, List.not_mem_nil, or_false] at hmem
    rcases hmem with rfl | rfl | rfl | rfl | rfl | rfl | rfl <;> exact ⟨_, rfl, rfl⟩
  obtain ⟨formula, hi⟩ := harith
  exact ⟨_, hi.exec_eq hs (nextDraw_status s) (arithPhase_of_le_one rd formula hp),
    completed_complete .ok rfl ⟨rfl, rfl, rfl⟩, otherRegsKept_writeback rd s.drawFE s.nextDraw,
    pvAfterWrite_writeback rd s.drawFE s.nextDraw, ⟨s.env.draws + 1, complete_env .ok _⟩,
    fun _ => by rw [complete_env, writeback_env, nextDraw_env]⟩

end Sys2Proof.Machine
end

section
/-! SUPPORT. A running command's step in the words of the statements: the step of a phase, the phase after it, and the frames
of its two ends. -/

namespace Sys2Proof.Machine

/-! ### Going on in a phase (R199) -/

/-- The state that goes on in a phase. -/
def State.enter (p : Phase) (s : State) : State :=
  { s with status := { s.status with state := p } }

@[simp] theorem enter_ctrl (p : Phase) (s : State) : (s.enter p).ctrl = s.ctrl := rfl
@[simp] theorem enter_status (p : Phase) (s : State) : (s.enter p).status = { s.status with state := p } := rfl
@[simp] theorem enter_errinfo (p : Phase) (s : State) : (s.enter p).errinfo = s.errinfo := rfl
@[simp] theorem enter_kdf (p : Phase) (s : State) : (s.enter p).kdf = s.kdf := rfl
@[simp] theorem enter_fr (p : Phase) (s : State) : (s.enter p).fr = s.fr := rfl
@[simp] theorem enter_cmdl (p : Phase) (s : State) : (s.enter p).cmdl = s.cmdl := rfl
@[simp] theorem enter_hid (p : Phase) (s : State) : (s.enter p).hid = s.hid := rfl
@[simp] theorem enter_env (p : Phase) (s : State) : (s.enter p).env = s.env := rfl
@[simp] theorem reg_enter (p : Phase) (s : State) (j : RegIdx) : (s.enter p).reg j = s.reg j := rfl
@[simp] theorem p_enter (p : Phase) (s : State) : (s.enter p).p = s.p := rfl
@[simp] theorem fe_enter (p : Phase) (s : State) (j : RegIdx) : (s.enter p).fe j = s.fe j := rfl

/-- With BUSY = 1 a command takes the step of its phase. -/
theorem RunningIn.exec_eq {ph : Phase} {s : State} {i : Instr} {f : State → PhaseEnd} (h : RunningIn ph s)
    (hf : bodyOf i ph = some f) : exec i s = .next (finishPhase i.op (f s)) := by
  obtain ⟨hbusy, hstate⟩ := h
  rw [exec_of_busy i hbusy, runCommand_busy hbusy (by rw [hstate, hf])]

/-- A phase that is over is followed by the next one of the command. -/
theorem finishPhase_enter {o : Op} {u : State} {ph p : Phase} (hu : u.status.state = ph)
    (hp : phaseAfter ph (phasesOf o) = some p) : finishPhase o (.finished u) = u.enter p := by
  subst hu
  simp only [finishPhase, hp, State.enter]

theorem finishPhase_enter_enter {o : Op} {p q : Phase} (hp : phaseAfter p (phasesOf o) = some q) (u : State) :
    finishPhase o (.finished (u.enter p)) = u.enter q := by
  rw [finishPhase_enter rfl hp]
  rfl

/-- After its last phase the command completes with OK. -/
theorem finishPhase_complete {o : Op} {u : State} {ph : Phase} (hu : u.status.state = ph)
    (hp : phaseAfter ph (phasesOf o) = none) : finishPhase o (.finished u) = complete .ok u := by
  subst hu
  simp only [finishPhase, hp]

/-! ### The frames of a step's two ends -/

/-- The next phase after a step that stays within a phase step's frame. -/
theorem goesOn_enter {s u : State} (hk : PhaseKept s u) (he : u.errinfo = s.errinfo) (p : Phase) :
    GoesOn p s (u.enter p) where
  busy := hk.busy
  done := by rw [enter_status, hk.status]
  err := by rw [enter_status, hk.status]
  state := rfl
  bwe := by rw [enter_status, hk.status]
  errinfo := he
  control := ⟨hk.control.ctrl, hk.control.kdf, hk.control.cmdl⟩

/-- The next phase after a step that changes nothing. -/
theorem onlyAdvanced_enter (p : Phase) (s : State) : OnlyAdvanced p s (s.enter p) :=
  ⟨goesOn_enter (.refl s) rfl p, rfl, rfl, rfl, rfl, fun _ => rfl⟩

/-- A completion of a command whose errors do not clear the point, after a step that wrote ERRINFO at most (R212, R213). -/
theorem wroteNone_complete {s u : State} (c : StatusCode) (hu : u = { s with errinfo := u.errinfo })
    (hl : latchedWritesPoint u = false) :
    WroteNone c (if c = .ok then .idle else s.status.state) (if c = .kdfLengthMismatch then u.errinfo.klen else 0) s
      (complete c u) := by
  have hc := completed_complete (s := s) (t := u) c (by rw [hu]) ⟨by rw [hu], by rw [hu], by rw [hu]⟩
  rw [show u.status.state = s.status.state by rw [hu]] at hc
  have henv : (complete c u).env = s.env := by rw [complete_env, hu]
  refine ⟨hc, ?_, ?_, henv, fun _ => by rw [henv]⟩ <;> rw [complete_of_not_latched c hl, hu] <;> rfl

/-- An error completion of SELECT or H2C, after a step that wrote ERRINFO at most (R212, R213). -/
theorem pointCleared_complete {s u : State} {c : StatusCode} (hc : c ≠ .ok) (hu : u = { s with errinfo := u.errinfo })
    (hl : latchedWritesPoint u = true) :
    PointCleared c s.status.state (if c = .kdfLengthMismatch then u.errinfo.klen else 0) s (complete c u) := by
  have h := completed_complete (s := s) (t := u) c (by rw [hu]) ⟨by rw [hu], by rw [hu], by rw [hu]⟩
  rw [if_neg hc, show u.status.state = s.status.state by rw [hu]] at h
  have henv : (complete c u).env = s.env := by rw [complete_env, hu]
  refine ⟨h, reg_complete_of_latched hc hl 12, reg_complete_of_latched hc hl 13, ?_, fun j hx hy => ?_, henv,
    fun _ => by rw [henv]⟩
  · rw [complete_of_latched hc hl]; rfl
  · rw [reg_complete_of_latched hc hl, if_neg (not_or.2 ⟨hx, hy⟩), hu]; rfl

end Sys2Proof.Machine
end

section
/-! PROOFS. Hashing to the field: the curve check that comes first, the derivation through the KDF port, and what its step
writes. -/

namespace Sys2Proof.Machine

/-! ### The derivations (R138, R139, R192) -/

/-- A phase of a command that derives FR[d] with counter c, and the phase after it. -/
structure IsDerivation (i : Instr) (ph : Phase) (d : RegIdx) (c : Byte) (next : Option Phase) : Prop where
  body : bodyOf i ph = some (derivePhase d c)
  after : phaseAfter ph (phasesOf i.op) = next

theorem isDerivation_h2f (rd : RegIdx) (cnt : Byte) : IsDerivation (.h2f rd cnt) .deriveT rd cnt none := ⟨rfl, rfl⟩

theorem isDerivation_h2c_t : IsDerivation .h2c .deriveT 4 0 (some .deriveU) := ⟨rfl, rfl⟩

theorem isDerivation_h2c_u : IsDerivation .h2c .deriveU 5 1 (some .generate) := ⟨rfl, rfl⟩

/-- While KPEND = 1 a derivation waits (R130). -/
theorem derivePhase_of_pending {s : State} (d : RegIdx) (c : Byte) (hk : s.hid.kpend = true) :
    derivePhase d c s = .hold s := by
  simp only [derivePhase, hk, if_true]

/-- With nothing in flight and no response a derivation issues its request (R130, R131). -/
theorem derivePhase_of_quiet {s : State} (d : RegIdx) (c : Byte) (hk : s.hid.kpend = false) (hr : s.hid.krspRdy = false) :
    derivePhase d c s = .hold { s with hid := { s.hid with kpend := true, kdfReq := some (kdfRequest c s) } } := by
  simp only [derivePhase, hk, hr, Bool.false_eq_true, if_false]

/-- A response that has arrived is consumed (R139). -/
theorem derivePhase_of_response {s : State} (d : RegIdx) (c : Byte) (hk : s.hid.kpend = false) (hr : s.hid.krspRdy = true) :
    derivePhase d c s = consumeResponse d s := by
  simp only [derivePhase, hk, hr, Bool.false_eq_true, if_false, if_true]

/-- The write of v into FR[d], with the response consumed (R137, R139). -/
def writeConsumed (d : RegIdx) (v : Nat) (s : State) : State :=
  { writeback d v s with hid := { s.hid with krsp := [], krspRdy := false } }

/-- With REDSEL = 0 and N = 0 the value written is a draw in [0, P) (R137). -/
theorem consumeResponse_of_zero_order {s : State} (d : RegIdx) (hp : 1 ≤ s.p) (hl : s.hid.krsp.length = outLen s.p)
    (hsel : s.ctrl.redsel = false) (hn : s.reg 3 = 0) :
    consumeResponse d s = .finished (writeConsumed d (s.drawFE % s.p) s.nextDraw) := by
  have hm : reductionModulus s = 0 := by simp [reductionModulus, hsel, hn]
  have hw : writeDerived d (beValue s.hid.krsp) s = writeback d (s.drawFE % s.p) s.nextDraw := by
    rw [writeDerived, if_neg (by omega), if_pos hm]
  simp only [consumeResponse, hl, ne_eq, not_true, if_false, hw]
  rfl

/-- The step of a derivation whose response has arrived (R139). -/
theorem IsDerivation.exec_consume {i : Instr} {ph : Phase} {d : RegIdx} {c : Byte} {next : Option Phase}
    (hi : IsDerivation i ph d c next) {s : State} (hs : RunningIn ph s) (hk : s.hid.kpend = false)
    (hr : s.hid.krspRdy = true) : exec i s = .next (finishPhase i.op (consumeResponse d s)) := by
  rw [hs.exec_eq hi.body, derivePhase_of_response d c hk hr]

/-- A derivation in the command's last phase completes with OK (R138). -/
theorem IsDerivation.exec_last {i : Instr} {ph : Phase} {d : RegIdx} {c : Byte} (hi : IsDerivation i ph d c none)
    {s u : State} {v : Nat} (hs : RunningIn ph s) (hk : s.hid.kpend = false) (hr : s.hid.krspRdy = true)
    (hstep : consumeResponse d s = .finished (writeConsumed d v u)) (hu : u.status = s.status) :
    exec i s = .next (complete .ok (writeback d v u)) := by
  have hstate : (writeConsumed d v u).status.state = ph := by rw [← hs.2, ← hu]; rfl
  rw [hi.exec_consume hs hk hr, hstep, finishPhase_complete hstate hi.after]
  rfl

/-- A derivation with a phase after it goes on (R192). -/
theorem IsDerivation.exec_next {i : Instr} {ph p : Phase} {d : RegIdx} {c : Byte} (hi : IsDerivation i ph d c (some p))
    {s u : State} {v : Nat} (hs : RunningIn ph s) (hk : s.hid.kpend = false) (hr : s.hid.krspRdy = true)
    (hstep : consumeResponse d s = .finished (writeConsumed d v u)) (hu : u.status = s.status) :
    exec i s = .next ((writeConsumed d v u).enter p) := by
  have hstate : (writeConsumed d v u).status.state = ph := by rw [← hs.2, ← hu]; rfl
  rw [hi.exec_consume hs hk hr, hstep, finishPhase_enter hstate hi.after]

/-- A write of FR4 or FR5 leaves PV (R101). -/
theorem and_not_isPointReg {d : RegIdx} (hd : d = 4 ∨ d = 5) (pv : Bool) : (pv && !isPointReg d) = pv := by
  rcases hd with rfl | rfl <;> exact Bool.and_true pv

/-- What a derivation of H2C leaves on its way to the next phase, after any number of draws (R139, R192). -/
theorem writeConsumed_frame {s u : State} (hu : u = { s with env := { s.env with draws := u.env.draws } }) {d : RegIdx}
    (hd : d = 4 ∨ d = 5) (v : Nat) (next : Phase) :
    let t := (writeConsumed d v u).enter next
    GoesOn next s t ∧ t.reg d = v ∧ OtherRegsKept d s t ∧ t.status.pv = s.status.pv ∧
      t.hid = { s.hid with krsp := [], krspRdy := false } ∧ t.env = u.env := by
  generalize u.env.draws = n at hu
  subst hu
  have hkept : PhaseKept s (writeConsumed d v { s with env := { s.env with draws := n } }) :=
    ⟨⟨rfl, rfl, rfl⟩, rfl, n, rfl⟩
  exact ⟨goesOn_enter hkept rfl next, (reg_writeback d d v s).trans (if_pos rfl), otherRegsKept_writeback d v s,
    and_not_isPointReg hd s.status.pv, rfl, rfl⟩

/-! ### The statements, each after the facts it needs -/

/-- Settles O29: the buffers are unchanged and readable, so the answer is the function's value. -/
theorem kdfAnswersWithItsFunction : Obligations.KdfAnswersWithItsFunction := by
  intro s req msg dst hk hreq htouched hmsg hdst
  have hanswer : kdfAnswer req s = (kdfFunction s.env.kdfBook req msg dst, s) := by
    simp [kdfAnswer, htouched, hmsg, hdst]
  simp only [turn, kdfTurn, hk, hreq, hanswer]

/-- The VALIDATE phase of a command that has another phase after it (R150). -/
theorem exec_validatePhase {i : Instr} {s : State} {next : Phase} (hs : RunningIn .validate s) (hp : 1 ≤ s.p)
    (hbody : bodyOf i .validate = some validatePhase) (hafter : phaseAfter .validate (phasesOf i.op) = some next) :
    exec i s = .next (if s.fe 1 = 0 ∨ s.fe 2 = 0 then complete .unsupportedCurve s else s.enter next) := by
  rw [hs.exec_eq hbody, validatePhase_of_pos hp]
  split
  · rfl
  · rw [finishPhase_enter hs.2 hafter]

/-- Settles O22: a bad curve completes the command with code 1, a good one changes STATE only. -/
theorem hashingCommandsCheckTheCurveFirst : Obligations.HashingCommandsCheckTheCurveFirst := by
  intro s rd cnt hs hp i next hi hcmdl
  obtain ⟨hbody, hafter⟩ : bodyOf i .validate = some validatePhase ∧
      phaseAfter .validate (phasesOf i.op) = some next := by
    rcases hi with h | h | h <;> cases h <;> exact ⟨rfl, rfl⟩
  refine ⟨_, exec_validatePhase hs hp hbody hafter, ?_⟩
  have hlatched : latchedWritesPoint s = (i.op == .select || i.op == .h2c) := latchedWritesPoint_of_encode hcmdl
  have hstate : s.status.state = .validate := hs.2
  rw [← hstate]
  by_cases hbad : s.fe 1 = 0 ∨ s.fe 2 = 0
  · rw [if_pos hbad]
    refine (if_pos hbad).mpr ⟨fun hne => ?_, ?_⟩
    · refine wroteNone_complete .unsupportedCurve rfl (hlatched.trans ?_)
      rcases hi with h | h | h <;> cases h
      · rfl
      · rfl
      · exact absurd rfl hne
    · rintro rfl
      exact pointCleared_complete (c := .unsupportedCurve) nofun rfl hlatched
  · rw [if_neg hbad]
    exact (if_neg hbad).mpr (onlyAdvanced_enter next s)

/-- Outside the DERIVE phases a phase step leaves the KDF port's request (R139). -/
theorem PhaseStep.kdfReq_eq {ph : Phase} {f : State → PhaseEnd} (h : PhaseStep ph f) (ht : ph ≠ .deriveT)
    (hu : ph ≠ .deriveU) (s : State) : (f s).state.hid.kdfReq = s.hid.kdfReq := by
  cases h with
  | arith rd formula _ =>
      unfold arithPhase
      split <;> rfl
  | clear => rfl
  | validate => rw [validatePhase_state, fetch_hid, fetch_hid]
  | deriveT => exact absurd rfl ht
  | deriveU => exact absurd rfl hu
  | generate =>
      unfold generatePhase
      split
      · exact congrArg Hidden.kdfReq (drawCandidates_hid s)
      · exact congrArg Hidden.kdfReq (writeCandidates_hid _ s)
  | selfcheck =>
      rcases selfcheckPhase_state s with h | h <;> rw [h]
      simp only [nextDraw_hid]
  | sqrt =>
      rcases sqrtPhase_cases s with h | ⟨-, h⟩ | ⟨ans, -, -, h⟩ <;> rw [h]
      · rfl
      · show (fetch _ s).2.hid.kdfReq = _
        rw [fetch_hid]
      · split <;> rfl
  | select =>
      obtain ⟨r3, r2, r1, hres⟩ := selectRes_eq s
      have hkdf : (selectRes s).hid.kdfReq = s.hid.kdfReq := by
        rw [hres]; simp only [setRes_hid, fetch_hid]
      rcases selectPhase_state s with h | h <;> rw [h] <;> exact hkdf

/-- The end of a phase step leaves the KDF port's request, or clears it with the other hidden registers (R45). -/
theorem finishPhase_kdfReq (o : Op) (e : PhaseEnd) :
    (finishPhase o e).hid.kdfReq = e.state.hid.kdfReq ∨ (finishPhase o e).hid.kdfReq = none := by
  rcases finishPhase_cases o e with ⟨u, rfl, h⟩ | ⟨u, p, rfl, -, h⟩ | ⟨c, h⟩ <;> rw [h]
  · exact .inl rfl
  · exact .inl rfl
  · exact .inr (congrArg Hidden.kdfReq (complete_hid c _))

/-- Only H2F and H2C have DERIVE phases (R199). -/
theorem op_of_bodyOf_derive {i : Instr} {ph : Phase} {f : State → PhaseEnd} (h : bodyOf i ph = some f)
    (hph : ph = .deriveT ∨ ph = .deriveU) : i.op = .h2f ∨ i.op = .h2c := by
  cases i with
  | h2f => exact .inl rfl
  | h2c => exact .inr rfl
  | _ => rcases hph with rfl | rfl <;> cases h

/-- Settles O23: no turn of another agent, and no phase step but a derivation, puts a request on the KDF port. -/
theorem onlyDerivePhasesIssueKdfRequests : Obligations.OnlyDerivePhasesIssueKdfRequests := by
  intro a s t _ h hnone hsome
  cases a with
  | host =>
      obtain ⟨u, r, v, hu, hw⟩ := hostTurn_next h
      rw [hw.hidden.1, hu.block] at hsome
      exact absurd hnone hsome
  | kdf =>
      cases h
      rcases kdfTurn_cases s with h | ⟨_, _, _, -, -, h⟩ <;> rw [h] at hsome
      · exact absurd hnone hsome
      · exact absurd rfl hsome
  | sqrt =>
      cases h
      rcases sqrtTurn_cases s with h | ⟨_, -, -, h⟩ <;> rw [h] at hsome <;> exact absurd hnone hsome
  | reset => cases h; exact absurd rfl hsome
  | sequencer =>
      by_cases hb : s.status.busy = true
      · obtain ⟨i, f, hi, hf, rfl⟩ := sequencerTurn_next hb h
        have hph : s.status.state = .deriveT ∨ s.status.state = .deriveU := by
          by_contra hph
          obtain ⟨ht, hu⟩ := not_or.1 hph
          have hreq := (phaseStep_of_bodyOf hf).kdfReq_eq ht hu s
          rcases finishPhase_kdfReq i.op (f s) with h | h
          · exact hsome (by rw [h, hreq, hnone])
          · exact hsome h
        exact ⟨rfl, hph, i, hi, op_of_bodyOf_derive hf hph⟩
      · rw [turn, sequencerTurn, if_neg hb] at h
        cases h
        exact absurd hnone hsome

/-- Settles O24: the request is `kdfRequest`, whose length R134 bounds by LMAX. -/
theorem derivationIssuesTheRequest : Obligations.DerivationIssuesTheRequest := by
  intro s rd cnt i ph c hi hs
  have hderive : ∃ d next, IsDerivation i ph d c next := by
    rcases hi with h | h | h <;> cases h
    · exact ⟨_, _, isDerivation_h2f rd cnt⟩
    · exact ⟨_, _, isDerivation_h2c_t⟩
    · exact ⟨_, _, isDerivation_h2c_u⟩
  obtain ⟨d, next, hd⟩ := hderive
  rw [← outLen_eq, hs.exec_eq hd.body]
  refine ⟨fun hk hr => ?_, fun hk => ?_, fun hf => outLen_le_lmax (hf.fr 0)⟩
  · rw [derivePhase_of_quiet d c hk hr]; rfl
  · rw [derivePhase_of_pending d c hk]; rfl

/-- Settles O25: the derivation is H2F's last phase, so its write-back is followed by the completion with OK. -/
theorem h2fWritesTheReducedResponse : Obligations.H2fWritesTheReducedResponse := by
  intro s rd cnt hs hp hk hr hl hm
  rw [← outLen_eq] at hl
  exact ⟨_, (isDerivation_h2f rd cnt).exec_last hs hk hr (consumeResponse_of_length rd hp hl hm) rfl,
    wroteOne_complete_writeback rd _ s, fieldsOf_encode _⟩

/-- The two derivations of H2C, as the statements name them. -/
theorem isDerivation_of_h2c {ph next : Phase} {d : RegIdx}
    (h : (ph, next, d) = (Phase.deriveT, Phase.deriveU, (4 : RegIdx)) ∨ (ph, next, d) = (.deriveU, .generate, 5)) :
    (∃ c, IsDerivation .h2c ph d c (some next)) ∧ (d = 4 ∨ d = 5) := by
  rcases h with h | h <;> cases h
  · exact ⟨⟨0, isDerivation_h2c_t⟩, .inl rfl⟩
  · exact ⟨⟨1, isDerivation_h2c_u⟩, .inr rfl⟩

/-- Settles O26: the value written is a draw mod P, in H2F's last phase and in both derivations of H2C. -/
theorem h2fWithZeroOrderCompletes : Obligations.H2fWithZeroOrderCompletes := by
  intro s hp hk hr hl hsel hn
  rw [← outLen_eq] at hl
  have hlt : s.drawFE % s.p < s.p := Nat.mod_lt _ hp
  constructor
  · intro rd cnt hs
    have hw := wroteOne_complete_writeback rd (s.drawFE % s.p) s.nextDraw
    exact ⟨_, (isDerivation_h2f rd cnt).exec_last hs hk hr (consumeResponse_of_zero_order rd hp hl hsel hn) rfl,
      completed_complete .ok rfl ⟨rfl, rfl, rfl⟩, hw.value.trans_lt hlt, hw.others, hw.pv, ⟨_, hw.env.env⟩,
      hw.env.bytes⟩
  · intro ph next d hi hs
    obtain ⟨⟨c, hd⟩, hd45⟩ := isDerivation_of_h2c hi
    obtain ⟨hgo, hval, hothers, hpv, hhid, henv⟩ :=
      writeConsumed_frame (u := s.nextDraw) rfl hd45 (s.drawFE % s.p) next
    exact ⟨_, hd.exec_next hs hk hr (consumeResponse_of_zero_order d hp hl hsel hn) rfl, hgo, hval.trans_lt hlt, hothers,
      hpv, hhid, ⟨_, henv⟩, fun _ => by rw [henv, nextDraw_env]⟩

/-- Settles O27: with a nonzero modulus nothing is drawn, and the derivation's write-back leaves the environment alone. -/
theorem h2cDerivesTThenU : Obligations.H2cDerivesTThenU := by
  intro s ph next d hi hs hp hk hr hl hm
  rw [← outLen_eq] at hl
  obtain ⟨⟨c, hd⟩, hd45⟩ := isDerivation_of_h2c hi
  obtain ⟨hgo, hval, hothers, hpv, hhid, henv⟩ :=
    writeConsumed_frame (u := s) rfl hd45 (derivedValue s s.hid.krsp) next
  exact ⟨_, hd.exec_next hs hk hr (consumeResponse_of_length d hp hl hm) rfl, hgo, hval, hothers, hpv, hhid, henv,
    fun _ => by rw [henv]⟩

/-- KLEN with the saturated length of the response (R135). -/
def recordLength (s : State) : State :=
  { s with errinfo := { s.errinfo with klen := saturatedLength s.hid.krsp.length } }

/-- A derivation whose response has another length completes with code 2 and that length in KLEN (R135). -/
theorem IsDerivation.exec_wrong_length {i : Instr} {ph : Phase} {d : RegIdx} {c : Byte} {next : Option Phase}
    (hi : IsDerivation i ph d c next) {s : State} (hs : RunningIn ph s) (hk : s.hid.kpend = false)
    (hr : s.hid.krspRdy = true) (hl : s.hid.krsp.length ≠ outLen s.p) :
    exec i s = .next (complete .kdfLengthMismatch (recordLength s)) := by
  rw [hi.exec_consume hs hk hr, consumeResponse_of_wrong_length d hl, finishPhase_raise]
  rfl

/-- Settles O28: the phase raises code 2 before it writes; completion clears the point for H2C and nothing for H2F. -/
theorem wrongResponseLengthIsReported : Obligations.WrongResponseLengthIsReported := by
  intro s rd cnt hb hk hr hl
  rw [← outLen_eq] at hl
  constructor
  · intro hst hcmdl
    refine ⟨_, (isDerivation_h2f rd cnt).exec_wrong_length ⟨hb, hst⟩ hk hr hl, ?_⟩
    rw [← hst]
    exact wroteNone_complete (u := recordLength s) .kdfLengthMismatch rfl (latchedWritesPoint_of_encode hcmdl)
  · intro hst hcmdl
    have hstep : ∃ d c next, IsDerivation .h2c s.status.state d c next := by
      rcases hst with h | h <;> rw [h]
      · exact ⟨_, _, _, isDerivation_h2c_t⟩
      · exact ⟨_, _, _, isDerivation_h2c_u⟩
    obtain ⟨d, c, next, hd⟩ := hstep
    exact ⟨_, hd.exec_wrong_length ⟨hb, rfl⟩ hk hr hl,
      pointCleared_complete (u := recordLength s) (c := .kdfLengthMismatch) nofun rfl
        (latchedWritesPoint_of_encode hcmdl)⟩

end Sys2Proof.Machine
end

section
/-! SUPPORT. Runs of a command with an empty schedule: what each agent's step is, and what any number of steps keeps. -/

namespace Sys2Proof.Machine

/-- A run of m + n steps is a run of n steps from where m steps lead. -/
theorem runSteps_add {m : Nat} {s t : State} (h : runSteps m s = .next t) (n : Nat) :
    runSteps (m + n) s = runSteps n t := by
  induction m generalizing s with
  | zero => cases h; rw [Nat.zero_add]
  | succ m ih =>
      rw [Nat.succ_add]
      simp only [runSteps] at h ⊢
      split at h
      · exact ih h
      · cases h
      · cases h

theorem runSteps_one {s t : State} (h : step s = .next t) : runSteps 1 s = .next t := by
  simp only [runSteps, h]

/-- Three steps, as one round of a port call takes (R130, R170). -/
theorem runSteps_three {s t u v : State} (h1 : step s = .next t) (h2 : step t = .next u) (h3 : step u = .next v) :
    runSteps 3 s = .next v := by
  simp only [runSteps, h1, h2, h3]

/-- Any number of steps keeps the invariant. -/
theorem runSteps_inv {n : Nat} {s t : State} (hs : s.Inv) (h : runSteps n s = .next t) : t.Inv := by
  induction n generalizing s with
  | zero => cases h; exact hs
  | succ n ih =>
      simp only [runSteps] at h
      split at h
      · rename_i u hu
        exact ih (stepKeepsTheInvariant s u hs hu).1 h
      · cases h
      · cases h

/-- With an empty schedule the default agent moves, and there is nothing to take off the schedule. -/
theorem step_of_no_schedule {s : State} (h : s.env.schedule = []) : step s = turn (defaultAgent s) s := by
  have hpop : s.popSchedule = s := by
    obtain ⟨_, _, _, _, _, _, _, env⟩ := s
    cases env
    cases h
    rfl
  rw [step, nextAgent, h, hpop]

/-- With no port request in flight the sequencer moves, and runs the latched command. -/
theorem step_exec {s : State} {i : Instr} (hsch : s.env.schedule = []) (hk : s.hid.kpend = false)
    (hq : s.hid.sqpend = false) (hb : s.status.busy = true) (hc : s.cmdl = encode i) : step s = exec i s := by
  have hagent : defaultAgent s = .sequencer := by simp [defaultAgent, hk, hq, hb]
  have hdecode : decode s.cmdl = .ok i := hc ▸ decodeAndEncodeAgree.1 i
  rw [step_of_no_schedule hsch, hagent]
  simp only [turn, sequencerTurn, hb, hdecode, if_true]

/-- With a KDF request in flight its collaborator moves. -/
theorem step_kdf {s : State} (hsch : s.env.schedule = []) (hk : s.hid.kpend = true) : step s = turn .kdf s := by
  rw [step_of_no_schedule hsch, defaultAgent, if_pos hk]

/-- With a SQRT request in flight its collaborator moves. -/
theorem step_sqrt {s : State} (hsch : s.env.schedule = []) (hk : s.hid.kpend = false) (hq : s.hid.sqpend = true) :
    step s = .next (sqrtTurn s) := by
  have hagent : defaultAgent s = .sqrt := by simp [defaultAgent, hk, hq]
  rw [step_of_no_schedule hsch, hagent, turn]

end Sys2Proof.Machine
end

section
/-! PROOFS. The SQRT and SELECT phases as a run: the collaborator's contract, the three rounds, the selection, and why a
passing self-check leaves a square among the candidates. -/

namespace Sys2Proof.Machine

/-! ### Squares modulo a prime (R18, R159, R183) -/

theorem isSquareMod_iff {p v : Nat} [NeZero p] : IsSquareMod p v ↔ IsSquare (v : ZMod p) := by
  constructor
  · rintro ⟨x, hx⟩
    exact ⟨x, by rw [← Nat.cast_mul]; exact ((ZMod.natCast_eq_natCast_iff' _ _ p).2 hx).symm⟩
  · rintro ⟨r, hr⟩
    refine ⟨r.val, (ZMod.natCast_eq_natCast_iff' _ _ p).1 ?_⟩
    rw [Nat.cast_mul, ZMod.natCast_zmod_val, hr]

/-- Three non-squares have a non-square product, so a square product has a square among its factors (R183). -/
theorem exists_isSquareMod_of_mul {p e g1 g2 g3 : Nat} (hp : p.Prime) (h : e ^ 2 % p = g1 * g2 * g3 % p) :
    IsSquareMod p g1 ∨ IsSquareMod p g2 ∨ IsSquareMod p g3 := by
  have : Fact p.Prime := ⟨hp⟩
  simp only [isSquareMod_iff]
  by_contra hnone
  simp only [not_or, ← quadraticChar_neg_one_iff_not_isSquare] at hnone
  obtain ⟨h1, h2, h3⟩ := hnone
  have hprod : (e : ZMod p) ^ 2 = g1 * g2 * g3 := by
    exact_mod_cast (ZMod.natCast_eq_natCast_iff' _ _ p).2 h
  have hchar : quadraticChar (ZMod p) e ^ 2 = -1 := by
    rw [← map_pow, hprod, map_mul, map_mul, h1, h2, h3]
    rfl
  have := sq_nonneg (quadraticChar (ZMod p) (e : ZMod p))
  omega

/-! ### The SQRT collaborator's contract (R171) -/

/-- An answer (valid, r) to the request for a root of v modulo p. -/
structure AnswersRoot (p v : Nat) (a : Bool × FE) : Prop where
  valid_iff : a.1 = true ↔ IsSquareMod p v
  root : a.1 = true → a.2 < p ∧ a.2 ^ 2 % p = v

/-- The other root of a square (R172). -/
theorem sub_mod_sq {p r : Nat} (h : r < p) : (p - r) % p * ((p - r) % p) % p = r * r % p := by
  rw [← Nat.mul_mod]
  refine (Nat.ModEq.add_right_cancel' (2 * p * r) ?_ : _ ≡ _ [MOD p])
  obtain ⟨d, rfl⟩ := Nat.exists_eq_add_of_lt h
  rw [show r + d + 1 - r = d + 1 by omega]
  have heq : (d + 1) * (d + 1) + 2 * (r + d + 1) * r = r * r + (r + d + 1) * (r + d + 1) := by ring
  rw [heq, Nat.ModEq, mul_assoc 2, mul_left_comm 2, Nat.add_mul_mod_self_left, Nat.add_mul_mod_self_left]

/-- The root the port returns, whichever it takes, is a root (R172). -/
theorem chosenRoot_root {p v r : Nat} (mode : SqrtRoot) (smaller : Bool) (hlt : r < p) (hr : r * r % p = v) :
    chosenRoot mode p r smaller < p ∧ chosenRoot mode p r smaller ^ 2 % p = v := by
  have other : (p - r) % p < p ∧ ((p - r) % p) ^ 2 % p = v :=
    ⟨Nat.mod_lt _ (by omega), by rw [pow_two, sub_mod_sq hlt, hr]⟩
  have same : r < p ∧ r ^ 2 % p = v := ⟨hlt, by rw [pow_two, hr]⟩
  cases mode with
  | min => exact same
  | any => cases smaller with
    | true => exact same
    | false => exact other

/-- For an odd prime the collaborator keeps the contract: its search finds the least root when there is one. -/
theorem sqrtAnswer_answersRoot {q : SqrtRequest} (s : State) (hp : q.p.Prime) (h2 : q.p ≠ 2) (hv : q.v < q.p) :
    AnswersRoot q.p q.v (sqrtAnswer q s) := by
  unfold sqrtAnswer
  rw [if_pos (isOddPrime_of_prime hp h2)]
  split
  · rename_i r hr
    obtain ⟨hlt, hroot, -⟩ := leastRoot_of_some hr
    exact ⟨iff_of_true rfl ⟨r, by rw [hroot, Nat.mod_eq_of_lt hv]⟩, fun _ => chosenRoot_root _ _ hlt hroot⟩
  · rename_i hnone
    refine ⟨iff_of_false nofun ?_, nofun⟩
    rintro ⟨x, hx⟩
    rw [Nat.mul_mod, Nat.mod_eq_of_lt hv] at hx
    exact leastRoot_of_none hnone _ (Nat.mod_lt x hp.pos) hx

/-! ### One round (R170, R178) -/

/-- The index SQIDX has for candidate k + 1 (R42). -/
def candidateIdx (k : Fin 3) : BitVec 2 :=
  BitVec.ofNat 2 (k + 1)

theorem slot_candidateIdx (k : Fin 3) : slot (candidateIdx k) = k := by
  revert k; decide

theorem candidateIdx_ne_zero (k : Fin 3) : candidateIdx k ≠ 0 := by
  revert k; decide

theorem candidateIdx_eq_three {k : Fin 3} : candidateIdx k = 3 ↔ k = 2 := by
  revert k; decide

theorem candidateIdx_succ {k : Fin 3} (hk : k ≠ 2) : candidateIdx k + 1 = candidateIdx (k + 1) := by
  revert k; decide

/-- The register of candidate k + 1: FR[6], FR[8] or FR[10] (R176). -/
def candidateReg (k : Fin 3) : RegIdx :=
  if k = 0 then 6 else if k = 1 then 8 else 10

/-- The request for candidate k + 1's root on the port (R170). -/
def rootAsked (k : Fin 3) (q : SqrtRequest) (s : State) : State :=
  { s with hid := { s.hid with sqidx := candidateIdx k, sqpend := true, sqrtReq := some q } }

/-- The answer on the port (R170). -/
def rootAnswered (ans : Bool × FE) (s : State) : State :=
  { s.nextDraw with hid := { s.hid with sqrtAns := some ans, sqpend := false, sqrtReq := none } }

/-- The request of candidate k + 1 with P ≥ 1 (R178). -/
theorem issueRoot_of_pos {s : State} {k : Fin 3} (hp : s.p ≠ 0)
    (hidx : (if s.hid.sqidx = 0 then 1 else s.hid.sqidx) = candidateIdx k) :
    issueRoot s = rootAsked k ⟨s.p, s.fe (valueReg (candidateIdx k))⟩ s := by
  simp only [issueRoot, hidx, fetch_of_pos _ hp, rootAsked]

/-- The answer to a request in flight (R170). -/
theorem sqrtTurn_of_request {s : State} {q : SqrtRequest} (hq : s.hid.sqpend = true) (hreq : s.hid.sqrtReq = some q) :
    sqrtTurn s = rootAnswered (sqrtAnswer q s) s := by
  simp only [sqrtTurn, hq, hreq, rootAnswered]

/-- The store of the answer for candidate k + 1, with SQIDX at the next candidate (R173, R178). -/
def withRoot (k : Fin 3) (ans : Bool × FE) (s : State) : State :=
  { s with hid := { s.hid with
      sqv := s.hid.sqv.set k ans.1
      sqr := s.hid.sqr.set k (if ans.1 then ans.2 else 0)
      sqrtAns := none
      sqidx := if k = 2 then 3 else candidateIdx (k + 1) } }

/-- The place of candidate k + 1 holds the answer, with 0 for the root of an invalid one (R173). -/
theorem withRoot_read (k j : Fin 3) (ans : Bool × FE) (s : State) :
    ((withRoot k ans s).hid.sqv[j], (withRoot k ans s).hid.sqr[j]) =
      if j = k then (ans.1, if ans.1 then ans.2 else 0) else (s.hid.sqv[j], s.hid.sqr[j]) := by
  by_cases hjk : j = k
  · simp [withRoot, hjk]
  · have hne : k.val ≠ j.val := fun h => hjk (Fin.ext h.symm)
    simp [withRoot, hjk, Vector.getElem_set_ne, hne]

/-- The step that stores the answer of candidate k + 1 goes on to the next candidate or to the SELECT phase (R178). -/
theorem finishPhase_withRoot {o : Op} {s : State} {k : Fin 3} {ans : Bool × FE} (ho : o = .select ∨ o = .h2c)
    (hs : s.status.state = .sqrt) (hq : s.hid.sqpend = false) (ha : s.hid.sqrtAns = some ans)
    (hidx : s.hid.sqidx = candidateIdx k) :
    finishPhase o (sqrtPhase s) = (withRoot k ans s).enter (if k = 2 then .select else .sqrt) := by
  have hafter : phaseAfter .sqrt (phasesOf o) = some .select := by rcases ho with rfl | rfl <;> rfl
  have hphase : sqrtPhase s = if s.hid.sqidx = 3 then .finished (storeRoot ans s)
      else .hold { storeRoot ans s with hid := { (storeRoot ans s).hid with sqidx := s.hid.sqidx + 1 } } := by
    simp only [sqrtPhase, hq, ha, Bool.false_eq_true, if_false]
  rw [hphase, hidx]
  by_cases hk : k = 2
  · rw [if_pos (candidateIdx_eq_three.2 hk), if_pos hk, finishPhase_enter (u := storeRoot ans s) hs hafter]
    simp only [State.enter, withRoot, storeRoot, hidx, slot_candidateIdx, if_pos hk]
    simp only [candidateIdx_eq_three.2 hk]
  · rw [if_neg (mt candidateIdx_eq_three.1 hk), if_neg hk, finishPhase_hold]
    simp only [State.enter, withRoot, storeRoot, hidx, slot_candidateIdx, if_neg hk, candidateIdx_succ hk, ← hs]

/-- k candidates of `s` have been asked for and answered in `t`, which differs from `s` in STATE, the hidden registers and
the free-value counter only. -/
structure RootsTaken (s : State) (k : Nat) (t : State) : Prop where
  frame : t = { s with
    status := { s.status with state := if k = 3 then .select else .sqrt }
    hid := t.hid
    env := { s.env with draws := t.env.draws } }
  kpend : t.hid.kpend = false
  sqpend : t.hid.sqpend = false
  sqrtAns : t.hid.sqrtAns = none
  next : ∀ j : Fin 3, j.val = k → (if t.hid.sqidx = 0 then 1 else t.hid.sqidx) = candidateIdx j
  roots : ∀ j : Fin 3, j.val < k → AnswersRoot s.p (s.fe (valueReg (candidateIdx j))) (t.hid.sqv[j], t.hid.sqr[j])

/-- Only the valid bit and a valid root matter: the stored root of an invalid candidate is 0 (R173). -/
theorem AnswersRoot.stored {p v : Nat} {a : Bool × FE} (h : AnswersRoot p v a) :
    AnswersRoot p v (a.1, if a.1 then a.2 else 0) :=
  ⟨h.valid_iff, fun ha => by rw [if_pos ha]; exact h.root ha⟩

theorem RootsTaken.start {s : State} (hs : RunningIn .sqrt s) (hh : s.hid = Hidden.cleared) : RootsTaken s 0 s where
  frame := by rw [if_neg (by decide), ← hs.2]
  kpend := by rw [hh]; rfl
  sqpend := by rw [hh]; rfl
  sqrtAns := by rw [hh]; rfl
  next := fun j hj => by rw [hh, show j = 0 from Fin.ext hj]; rfl
  roots := nofun

/-- The three steps of a round: the request, the answer, the store (R170, R178). -/
theorem runSteps_round {t : State} {i : Instr} {k : Fin 3} (hi : i = .select ∨ i = .h2c) (ht : RunningIn .sqrt t)
    (hc : t.cmdl = encode i) (hsch : t.env.schedule = []) (hp : t.p ≠ 0) (hk : t.hid.kpend = false)
    (hq : t.hid.sqpend = false) (ha : t.hid.sqrtAns = none)
    (hidx : (if t.hid.sqidx = 0 then 1 else t.hid.sqidx) = candidateIdx k) :
    let q : SqrtRequest := ⟨t.p, t.fe (valueReg (candidateIdx k))⟩
    let ans := sqrtAnswer q (rootAsked k q t)
    runSteps 3 t = .next
      ((withRoot k ans (rootAnswered ans (rootAsked k q t))).enter (if k = 2 then .select else .sqrt)) := by
  intro q ans
  have hask : step t = .next (rootAsked k q t) := by
    rw [step_exec hsch hk hq ht.1 hc, exec_sqrtPhase hi ht]
    simp only [sqrtPhase, hq, ha, Bool.false_eq_true, if_false, finishPhase_hold, issueRoot_of_pos hp hidx, q]
  have hanswer : step (rootAsked k q t) = .next (rootAnswered ans (rootAsked k q t)) := by
    rw [step_sqrt (s := rootAsked k q t) hsch hk rfl, sqrtTurn_of_request rfl rfl]
  have hop : i.op = .select ∨ i.op = .h2c := by rcases hi with rfl | rfl <;> simp [Instr.op]
  have hstore : step (rootAnswered ans (rootAsked k q t)) = .next
      ((withRoot k ans (rootAnswered ans (rootAsked k q t))).enter (if k = 2 then .select else .sqrt)) := by
    have hrun : RunningIn .sqrt (rootAnswered ans (rootAsked k q t)) := ht
    rw [step_exec (s := rootAnswered ans (rootAsked k q t)) hsch hk rfl hrun.1 hc, exec_sqrtPhase hi hrun,
      finishPhase_withRoot hop hrun.2 rfl rfl rfl]
  exact runSteps_three hask hanswer hstore

/-- After a round one more candidate is answered, as the collaborator's contract says (R171, R178). -/
theorem RootsTaken.round {s t : State} {i : Instr} {k : Fin 3} (h : RootsTaken s k t) (hi : i = .select ∨ i = .h2c)
    (hb : s.status.busy = true) (hc : s.cmdl = encode i) (hsch : s.env.schedule = []) (hp : s.p.Prime) (h2 : s.p ≠ 2) :
    ∃ u, runSteps 3 t = .next u ∧ RootsTaken s (k + 1) u := by
  obtain ⟨hframe, hkpend, hsqpend, hans, hnext, hroots⟩ := h
  obtain ⟨hid, n, rfl⟩ : ∃ hid n, t = { s with
      status := { s.status with state := .sqrt }, hid := hid, env := { s.env with draws := n } } :=
    ⟨_, _, by rwa [if_neg (show k.val ≠ 3 by omega)] at hframe⟩
  refine ⟨_, runSteps_round hi ⟨hb, rfl⟩ hc hsch hp.ne_zero hkpend hsqpend hans (hnext k rfl), ?_⟩
  generalize hq : SqrtRequest.mk _ _ = q
  generalize ha : sqrtAnswer q _ = ans
  have hroot : AnswersRoot s.p (s.fe (valueReg (candidateIdx k))) ans := by
    subst ha hq
    exact sqrtAnswer_answersRoot (q := ⟨s.p, s.fe (valueReg (candidateIdx k))⟩) _ hp h2 (s.fe_lt _ hp.pos)
  refine ⟨?_, hkpend, rfl, rfl, fun j hj => ?_, fun j hj => ?_⟩
  · have hlast : (k.val + 1 = 3) = (k = 2) := by rw [Fin.ext_iff]; simp
    simp only [hlast]
    rfl
  · have hj' : j = k + 1 := by
      apply Fin.ext
      rw [hj, Fin.val_add_one_of_lt' (by omega)]
    have hk : k ≠ 2 := by
      rintro rfl
      omega
    have hidx : (withRoot k ans (rootAnswered ans (rootAsked k q s))).hid.sqidx = candidateIdx j := by
      rw [hj']
      exact if_neg hk
    exact (if_neg (hidx ▸ candidateIdx_ne_zero j)).trans hidx
  · rw [enter_hid, withRoot_read]
    split
    · rename_i hjk
      rw [hjk]
      exact hroot.stored
    · rename_i hjk
      exact hroots j (by omega)

/-- Nine steps take the roots of the three candidates (R178). -/
theorem runSteps_sqrt {s : State} {i : Instr} (hi : i = .select ∨ i = .h2c) (hs : RunningIn .sqrt s)
    (hc : s.cmdl = encode i) (hsch : s.env.schedule = []) (hh : s.hid = Hidden.cleared) (hp : s.p.Prime) (h2 : s.p ≠ 2) :
    ∃ t, runSteps 9 s = .next t ∧ RootsTaken s 3 t := by
  obtain ⟨t1, hrun1, h1⟩ := (RootsTaken.start hs hh).round (k := 0) hi hs.1 hc hsch hp h2
  obtain ⟨t2, hrun2, h2'⟩ := h1.round (k := 1) hi hs.1 hc hsch hp h2
  obtain ⟨t3, hrun3, h3⟩ := h2'.round (k := 2) hi hs.1 hc hsch hp h2
  exact ⟨t3, by rw [runSteps_add hrun1 6, runSteps_add hrun2 3, hrun3], h3⟩

/-! ### The selection (R176, R179) -/

/-- The lowest valid candidate, else the third (R181). -/
def chosenCandidate (s : State) : Fin 3 :=
  if s.hid.sqv[0] then 0 else if s.hid.sqv[1] then 1 else 2

/-- The selection is the chosen candidate with its root (R176). -/
theorem selectRes_eq_chosen {s : State} (hp : 1 ≤ s.p) (hf : s.Fits) :
    selectRes s = s.setRes (s.fe (candidateReg (chosenCandidate s)), s.hid.sqr[chosenCandidate s]) := by
  rw [selectRes_of_pos hp hf]
  congr 1
  unfold chosenCandidate
  split
  · rfl
  · split <;> rfl

/-- A valid candidate sets the OR of the masks (R177). -/
theorem anyValid_of_valid {s : State} {k : Fin 3} (h : s.hid.sqv[k] = true) : anyValid s = true := by
  unfold anyValid
  match k, h with
  | 0, h => simp [show s.hid.sqv[0] = true from h]
  | 1, h => simp [show s.hid.sqv[1] = true from h]
  | 2, h => simp [show s.hid.sqv[2] = true from h]

/-- With a mask bit set the chosen candidate is valid (R181). -/
theorem valid_chosenCandidate {s : State} (h : anyValid s = true) : s.hid.sqv[chosenCandidate s] = true := by
  unfold chosenCandidate
  unfold anyValid at h
  by_cases h0 : s.hid.sqv[0] = true
  · simp [h0]
  · by_cases h1 : s.hid.sqv[1] = true
    · simp [h0, h1]
    · have h2 : s.hid.sqv[2] = true := by simpa [h0, h1] using h
      simpa [h0, h1] using h2

/-- With a valid candidate the SELECT phase writes the chosen one and completes with OK (R179). -/
theorem exec_select_of_valid {s : State} {i : Instr} (hi : i = .select ∨ i = .h2c) (hs : RunningIn .select s)
    (hp : 1 ≤ s.p) (hf : s.Fits) (hv : anyValid s = true) :
    exec i s = .next (complete .ok (writePoint
      (s.setRes (s.fe (candidateReg (chosenCandidate s)), s.hid.sqr[chosenCandidate s])))) := by
  rw [exec_selectPhase hi hs, selectPhase, selectRes_eq_chosen hp hf,
    if_pos (show anyValid (s.setRes _) = true from hv)]
  exact congrArg Host.Outcome.next (finishPhase_complete (u := writePoint (s.setRes _)) hs.2 (phaseAfter_select i.op))

/-- From the start of the SQRT phase, with a square among the three values, the command ends in ten steps with one of the
candidates and a root of its value (R182, R183). -/
theorem runSteps_select {s : State} {i : Instr} (hi : i = .select ∨ i = .h2c) (hinv : s.Inv) (hs : RunningIn .sqrt s)
    (hc : s.cmdl = encode i) (hsch : s.env.schedule = []) (hh : s.hid = Hidden.cleared) (hp : s.p.Prime) (h2 : s.p ≠ 2)
    (hsq : ∃ k : Fin 3, IsSquareMod s.p (s.fe (valueReg (candidateIdx k)))) :
    ∃ t, runSteps 10 s = .next t ∧ Completed .ok .idle 0 s t ∧ t.status.pv = true ∧
      (∀ j, j ≠ 12 → j ≠ 13 → t.reg j = s.reg j) ∧
      ∃ k : Fin 3, t.reg 12 = s.fe (candidateReg k) ∧ t.reg 13 ^ 2 % s.p = s.fe (valueReg (candidateIdx k)) := by
  obtain ⟨k, hk⟩ := hsq
  obtain ⟨u, hrun, hframe, hkpend, hsqpend, -, -, hroots⟩ := runSteps_sqrt hi hs hc hsch hh hp h2
  have hfits : u.Fits := (runSteps_inv hinv hrun).fits
  have hvalid : anyValid u = true := anyValid_of_valid ((hroots k k.isLt).valid_iff.2 hk)
  have hsu : RunningIn .select u := by rw [hframe]; exact ⟨hs.1, rfl⟩
  have hpu : 1 ≤ u.p := by rw [hframe]; exact hp.one_le
  obtain ⟨c, hvc, hexec⟩ : ∃ c : Fin 3, u.hid.sqv[c] = true ∧ exec i u = .next (complete .ok (writePoint
      (u.setRes (u.fe (candidateReg c), u.hid.sqr[c])))) :=
    ⟨_, valid_chosenCandidate hvalid, exec_select_of_valid hi hsu hpu hfits hvalid⟩
  have hroot := ((hroots c c.isLt).root hvc).2
  have hlast : step u = exec i u :=
    step_exec (by rw [hframe]; exact hsch) hkpend hsqpend hsu.1 (by rw [hframe]; exact hc)
  have hrun10 := (runSteps_add hrun 1).trans (runSteps_one (hlast.trans hexec))
  obtain ⟨hid, n, rfl⟩ : ∃ hid n, u = { s with
      status := { s.status with state := .select }, hid := hid, env := { s.env with draws := n } } := ⟨_, _, hframe⟩
  refine ⟨_, hrun10, completed_complete .ok rfl ⟨rfl, rfl, rfl⟩, rfl, fun j hx hy => ?_, c, ?_, ?_⟩
  · rw [reg_complete_ok, reg_writePoint, if_neg hx, if_neg hy]
    rfl
  · rw [reg_complete_ok, reg_writePoint, if_pos rfl]
    rfl
  · rw [reg_complete_ok, reg_writePoint, if_neg (by decide), if_pos rfl]
    exact hroot

end Sys2Proof.Machine
end

section
/-! PROOFS. The pipeline H2C as a run: two derivations, the candidates, the self-check, then the selector (R192). -/

namespace Sys2Proof.Machine

/-! ### A derivation's three steps (R130, R139) -/

/-- The KDF request of a derivation with counter c is out (R130). -/
def kdfAsked (c : Byte) (s : State) : State :=
  { s with hid := { s.hid with kpend := true, kdfReq := some (kdfRequest c s) } }

/-- The KDF response r has arrived (R130). -/
def kdfAnswered (r : List Byte) (s : State) : State :=
  { s with hid := { s.hid with krsp := r, krspRdy := true, kpend := false, kdfReq := none } }

/-- H2C between two phases, with all it needs to derive: an unchanged, readable message `msg` and tag `dst`, and nonzero
moduli. -/
structure ReadyToDerive (msg dst : List Byte) (s : State) : Prop where
  busy : s.status.busy = true
  cmdl : s.cmdl = encode .h2c
  schedule : s.env.schedule = []
  hid : s.hid = Hidden.cleared
  touched : s.env.touched = false
  msg : Memory.readBytes s.env.mem s.kdf.msgAddr.toNat s.kdf.msgLen.toNat = some msg
  dst : Memory.readBytes s.env.mem s.kdf.dstAddr.toNat s.kdf.dstLen.toNat = some dst
  p_pos : 1 ≤ s.p
  modulus : s.ctrl.redsel = true ∨ s.reg 3 ≠ 0

theorem ReadyToDerive.enter {msg dst : List Byte} {s : State} (h : ReadyToDerive msg dst s) (p : Phase) :
    ReadyToDerive msg dst (s.enter p) :=
  ⟨h.busy, h.cmdl, h.schedule, h.hid, h.touched, h.msg, h.dst, h.p_pos, h.modulus⟩

theorem p_setReg {s : State} {d : RegIdx} (hd : d ≠ 0) (v : FE) : (s.setReg d v).p = s.p := by
  rw [State.p, reg_setReg, if_neg hd, State.p]

theorem ReadyToDerive.setReg {msg dst : List Byte} {s : State} (h : ReadyToDerive msg dst s) {d : RegIdx}
    (hd : d ≠ 0 ∧ d ≠ 3) (v : FE) : ReadyToDerive msg dst (s.setReg d v) :=
  ⟨h.busy, h.cmdl, h.schedule, h.hid, h.touched, h.msg, h.dst, by rw [p_setReg hd.1]; exact h.p_pos,
    by rw [reg_setReg, if_neg hd.2]; exact h.modulus⟩

/-- A request and a derived value depend on the registers P and N alone (R131, R137). -/
theorem kdfRequest_setReg {d : RegIdx} (hd : d ≠ 0) (v : FE) (c : Byte) (s : State) :
    kdfRequest c (s.setReg d v) = kdfRequest c s :=
  congrArg (fun p => ({ kdfRequest c s with outLen := outLen p } : KdfRequest)) (p_setReg hd v)

theorem derivedValue_setReg {d : RegIdx} (hd : d ≠ 0 ∧ d ≠ 3) (v : FE) (s : State) (r : List Byte) :
    derivedValue (s.setReg d v) r = derivedValue s r := by
  simp only [derivedValue, p_setReg hd.1, reg_setReg, if_neg hd.2, setReg_ctrl]

theorem derivedValue_enter (p : Phase) (s : State) (r : List Byte) : derivedValue (s.enter p) r = derivedValue s r := rfl

/-- From cleared hidden registers, a request, its response and the consumption leave the write of FR[d] alone. -/
theorem writeConsumed_kdfAnswered {s : State} (hh : s.hid = Hidden.cleared) {d : RegIdx} (hd : d = 4 ∨ d = 5) (c : Byte)
    (r : List Byte) (v : Nat) : writeConsumed d v (kdfAnswered r (kdfAsked c s)) = s.setReg d v := by
  simp only [writeConsumed, writeback, State.setReg, kdfAnswered, kdfAsked, and_not_isPointReg hd, hh]
  rfl

theorem ReadyToDerive.writeCandidates {msg dst : List Byte} {s : State} (h : ReadyToDerive msg dst s) (c : Candidates) :
    ReadyToDerive msg dst (writeCandidates c s) := by
  unfold Machine.writeCandidates
  iterate 6 refine ReadyToDerive.setReg ?_ (by decide) _
  exact h

/-- Three steps derive FR[d] with counter c and go on: the request, the KDF's answer r, the write (R130, R139). -/
theorem ReadyToDerive.runSteps_derive {msg dst r : List Byte} {s : State} (h : ReadyToDerive msg dst s) {ph next : Phase}
    {d : RegIdx} {c : Byte} (hd : IsDerivation .h2c ph d c (some next)) (hd45 : d = 4 ∨ d = 5)
    (hs : s.status.state = ph) (hr : r = kdfFunction s.env.kdfBook (kdfRequest c s) msg dst)
    (hl : r.length = outLen s.p) :
    runSteps 3 s = .next ((s.setReg d (derivedValue s r)).enter next) := by
  obtain ⟨hb, hc, hsch, hh, ht, hmsg, hdst, hp, hm⟩ := h
  have hk : s.hid.kpend = false := by rw [hh]; rfl
  have hq : s.hid.sqpend = false := by rw [hh]; rfl
  have hrdy : s.hid.krspRdy = false := by rw [hh]; rfl
  have hask : step s = .next (kdfAsked c s) := by
    rw [step_exec hsch hk hq hb hc, RunningIn.exec_eq ⟨hb, hs⟩ hd.body, derivePhase_of_quiet d c hk hrdy,
      finishPhase_hold]
    rfl
  have hanswer : step (kdfAsked c s) = .next (kdfAnswered r (kdfAsked c s)) := by
    rw [step_kdf (s := kdfAsked c s) hsch rfl,
      kdfAnswersWithItsFunction (kdfAsked c s) (kdfRequest c s) msg dst rfl rfl ht hmsg hdst, hr]
    rfl
  have hwrite : step (kdfAnswered r (kdfAsked c s)) = .next ((s.setReg d (derivedValue s r)).enter next) := by
    rw [step_exec (s := kdfAnswered r (kdfAsked c s)) hsch rfl hq hb hc,
      hd.exec_next (s := kdfAnswered r (kdfAsked c s)) ⟨hb, hs⟩ rfl rfl (consumeResponse_of_length d hp hl hm) rfl]
    exact congrArg (fun u : State => Host.Outcome.next (u.enter next)) (writeConsumed_kdfAnswered hh hd45 c r _)
  exact runSteps_three hask hanswer hwrite

/-! ### The nine steps to the SQRT phase (R192) -/

theorem writeCandidates_enter (c : Candidates) (p : Phase) (s : State) :
    writeCandidates c (s.enter p) = (writeCandidates c s).enter p := rfl

/-- t in FR4, u in FR5 and their candidates in FR6 to FR11 (R139, R158). -/
def hashed (t u : Nat) (s : State) : State :=
  writeCandidates (candidates s.ctrl.x3f s.p (s.fe 1) (s.fe 2) t u) ((s.setReg 4 t).setReg 5 u)

theorem reg_hashed (t u : Nat) (s : State) (j : RegIdx) :
    (hashed t u s).reg j =
      let c := candidates s.ctrl.x3f s.p (s.fe 1) (s.fe 2) t u
      if j = 4 then t else if j = 5 then u else if j = 6 then c.x1 else if j = 7 then c.g1 else if j = 8 then c.x2
      else if j = 9 then c.g2 else if j = 10 then c.x3 else if j = 11 then c.g3 else s.reg j := by
  rw [hashed, reg_writeCandidates]
  simp only [reg_setReg]
  fin_cases j <;> rfl

theorem p_hashed (t u : Nat) (s : State) : (hashed t u s).p = s.p :=
  reg_hashed t u s 0

theorem hashed_kept (t u : Nat) (s : State) : PhaseKept s (hashed t u s) :=
  ((setReg_kept s 4 t).trans (setReg_kept _ 5 u)).trans (writeCandidates_kept _ _)

theorem fe_hashed {t u v : Nat} {s : State} {j : RegIdx} (h : (hashed t u s).reg j = v) (hv : v < s.p) :
    (hashed t u s).fe j = v := by
  rw [State.fe, p_hashed, h, Nat.mod_eq_of_lt hv]

theorem selfcheckHolds_enter (p : Phase) (s : State) : SelfcheckHolds (s.enter p) ↔ SelfcheckHolds s := Iff.rfl

/-- The GENERATE step of H2C once t and u, both below P, are derived (R158). -/
theorem exec_generate_h2c {s : State} {t u : Nat} (hb : s.status.busy = true) (hp : 2 ≤ s.p) (ht : t < s.p)
    (hu : u < s.p) :
    exec .h2c (((s.setReg 4 t).setReg 5 u).enter .generate) = .next ((hashed t u s).enter .selfcheck) := by
  generalize hv : (s.setReg 4 t).setReg 5 u = v
  have hpv : v.p = s.p := by rw [← hv, p_setReg (by decide), p_setReg (by decide)]
  have hctrl : v.ctrl = s.ctrl := by rw [← hv, setReg_ctrl, setReg_ctrl]
  have hfe (j : RegIdx) : v.fe j = (if 5 = j then u else if 4 = j then t else s.reg j) % s.p := by
    rw [State.fe, hpv, ← hv, reg_setReg, reg_setReg]
  have hcand : candidates v.ctrl.x3f v.p (v.fe 1) (v.fe 2) (v.fe 4) (v.fe 5)
      = candidates s.ctrl.x3f s.p (s.fe 1) (s.fe 2) t u := by
    rw [hpv, show v.fe 4 = t from (hfe 4).trans (Nat.mod_eq_of_lt ht),
      show v.fe 5 = u from (hfe 5).trans (Nat.mod_eq_of_lt hu), show v.fe 1 = s.fe 1 from hfe 1,
      show v.fe 2 = s.fe 2 from hfe 2, hctrl]
  have hgen : generatePhase (v.enter .generate) = .finished ((hashed t u s).enter .generate) := by
    rw [generatePhase_of_two_le (by rw [p_enter, hpv]; exact hp), enter_ctrl, p_enter, fe_enter, fe_enter, fe_enter,
      fe_enter, hcand, writeCandidates_enter, hashed, hv]
  have hrun : RunningIn .generate (v.enter .generate) := ⟨by rw [← hv]; exact hb, rfl⟩
  rw [hrun.exec_eq (f := generatePhase) rfl, hgen, finishPhase_enter_enter (q := .selfcheck) rfl]

/-- The relation of R159 on the candidates is the one SELFCHECK tests on the registers. -/
theorem selfcheckHolds_hashed {s : State} {t u : Nat} (ht : t < s.p) (hu : u < s.p)
    (h : let c := candidates s.ctrl.x3f s.p (s.fe 1) (s.fe 2) t u
      selfcheckLhs s.p t c.g1 c.g2 = selfcheckRhs s.p c.g1 c.g2 c.g3) : SelfcheckHolds (hashed t u s) := by
  obtain ⟨-, hg1, -, hg2, -, hg3⟩ :=
    candidates_lt (f := s.ctrl.x3f) (a := s.fe 1) (b := s.fe 2) (t := t) (Nat.zero_lt_of_lt ht) hu
  have h4 : (hashed t u s).fe 4 = _ := fe_hashed (reg_hashed t u s 4) ht
  have h7 : (hashed t u s).fe 7 = _ := fe_hashed (reg_hashed t u s 7) hg1
  have h9 : (hashed t u s).fe 9 = _ := fe_hashed (reg_hashed t u s 9) hg2
  have h11 : (hashed t u s).fe 11 = _ := fe_hashed (reg_hashed t u s 11) hg3
  show selfcheckLhs (hashed t u s).p ((hashed t u s).fe 4) ((hashed t u s).fe 7) ((hashed t u s).fe 9) =
    selfcheckRhs (hashed t u s).p ((hashed t u s).fe 7) ((hashed t u s).fe 9) ((hashed t u s).fe 11)
  rw [p_hashed, h4, h7, h9, h11]
  exact h

/-- From acceptance to the SQRT phase in nine steps: the curve check, two derivations, the candidates, the self-check. -/
theorem runSteps_hash {s : State} {msg dst r0 r1 : List Byte} (h : ReadyToDerive msg dst s) (hs : RunningIn .validate s)
    (hp : 2 ≤ s.p) (ha : s.fe 1 ≠ 0) (hb : s.fe 2 ≠ 0)
    (hr0 : r0 = kdfFunction s.env.kdfBook (kdfRequest 0 s) msg dst)
    (hr1 : r1 = kdfFunction s.env.kdfBook (kdfRequest 1 s) msg dst)
    (hl0 : r0.length = outLen s.p) (hl1 : r1.length = outLen s.p)
    (hcheck : SelfcheckHolds (hashed (derivedValue s r0) (derivedValue s r1) s)) :
    runSteps 9 s = .next ((hashed (derivedValue s r0) (derivedValue s r1) s).enter .sqrt) := by
  have hlt0 : derivedValue s r0 < s.p := derivedValue_lt h.p_pos r0
  have hlt1 : derivedValue s r1 < s.p := derivedValue_lt h.p_pos r1
  have exec_step {u : State} (hu : ReadyToDerive msg dst u) : step u = exec .h2c u :=
    step_exec hu.schedule (by rw [hu.hid]; rfl) (by rw [hu.hid]; rfl) hu.busy hu.cmdl
  have hvalidate : runSteps 1 s = .next (s.enter .deriveT) := by
    refine runSteps_one ((exec_step h).trans ?_)
    rw [exec_validatePhase hs h.p_pos rfl rfl, if_neg (not_or.2 ⟨ha, hb⟩)]
  have ht : runSteps 3 (s.enter .deriveT) = .next ((s.setReg 4 (derivedValue s r0)).enter .deriveU) :=
    (h.enter .deriveT).runSteps_derive isDerivation_h2c_t (.inl rfl) rfl hr0 hl0
  generalize derivedValue s r0 = t at *
  have hready := h.setReg (d := 4) (by decide) t
  have hp4 : (s.setReg 4 t).p = s.p := p_setReg (by decide) t
  have hu : runSteps 3 ((s.setReg 4 t).enter .deriveU) =
      .next (((s.setReg 4 t).setReg 5 (derivedValue s r1)).enter .generate) := by
    have hreq : r1 = kdfFunction s.env.kdfBook (kdfRequest 1 (s.setReg 4 t)) msg dst := by
      rw [kdfRequest_setReg (by decide), ← hr1]
    have hrun := (hready.enter .deriveU).runSteps_derive isDerivation_h2c_u (.inr rfl) rfl hreq (hp4.symm ▸ hl1)
    rw [derivedValue_enter, derivedValue_setReg (by decide)] at hrun
    exact hrun
  generalize derivedValue s r1 = u at *
  have hready5 := hready.setReg (d := 5) (by decide) u
  have hgenerate : runSteps 1 (((s.setReg 4 t).setReg 5 u).enter .generate) =
      .next ((hashed t u s).enter .selfcheck) :=
    runSteps_one ((exec_step (hready5.enter .generate)).trans (exec_generate_h2c h.busy hp hlt0 hlt1))
  have hready' : ReadyToDerive msg dst ((hashed t u s).enter .selfcheck) := (hready5.writeCandidates _).enter .selfcheck
  have hrun : RunningIn .selfcheck ((hashed t u s).enter .selfcheck) := ⟨hready'.busy, rfl⟩
  have hselfcheck : runSteps 1 ((hashed t u s).enter .selfcheck) = .next ((hashed t u s).enter .sqrt) := by
    refine runSteps_one ((exec_step hready').trans ?_)
    rw [hrun.exec_eq (f := selfcheckPhase) rfl, selfcheckPhase_pass hready'.p_pos ((selfcheckHolds_enter _ _).2 hcheck),
      finishPhase_enter_enter (q := .sqrt) rfl]
  rw [runSteps_add hvalidate 8, runSteps_add ht 5, runSteps_add hu 2, runSteps_add hgenerate 1, hselfcheck]

/-! ### The candidates by their number -/

/-- X of candidate k + 1 (R158). -/
def Candidates.x (c : Candidates) (k : Fin 3) : Nat :=
  if k = 0 then c.x1 else if k = 1 then c.x2 else c.x3

/-- The curve value of candidate k + 1 (R158). -/
def Candidates.g (c : Candidates) (k : Fin 3) : Nat :=
  if k = 0 then c.g1 else if k = 1 then c.g2 else c.g3

theorem Candidates.x_cases (c : Candidates) (k : Fin 3) : c.x k = c.x1 ∨ c.x k = c.x2 ∨ c.x k = c.x3 :=
  match k with
  | 0 => .inl rfl
  | 1 => .inr (.inl rfl)
  | 2 => .inr (.inr rfl)

theorem candidates_g (f : X3Form) (p a b t u : Nat) (k : Fin 3) :
    (candidates f p a b t u).g k = curvePoly p a b ((candidates f p a b t u).x k) := by
  fin_cases k <;> rfl

/-- FR6 to FR11 hold the candidates, two registers each, all below P (R158). -/
theorem fe_hashed_candidates {t u : Nat} {s : State} (hp : 0 < s.p) (hu : u < s.p) (k : Fin 3) :
    let c := candidates s.ctrl.x3f s.p (s.fe 1) (s.fe 2) t u
    (hashed t u s).fe (candidateReg k) = c.x k ∧ (hashed t u s).fe (valueReg (candidateIdx k)) = c.g k := by
  obtain ⟨hx1, hg1, hx2, hg2, hx3, hg3⟩ :=
    candidates_lt (f := s.ctrl.x3f) (a := s.fe 1) (b := s.fe 2) (t := t) hp hu
  match k with
  | 0 => exact ⟨fe_hashed (reg_hashed t u s 6) hx1, fe_hashed (reg_hashed t u s 7) hg1⟩
  | 1 => exact ⟨fe_hashed (reg_hashed t u s 8) hx2, fe_hashed (reg_hashed t u s 9) hg2⟩
  | 2 => exact ⟨fe_hashed (reg_hashed t u s 10) hx3, fe_hashed (reg_hashed t u s 11) hg3⟩

/-- A passing self-check leaves a square among the candidates' values (R183). -/
theorem exists_square_of_selfcheck {p t : Nat} {c : Candidates} (hp : p.Prime)
    (h : selfcheckLhs p t c.g1 c.g2 = selfcheckRhs p c.g1 c.g2 c.g3) : ∃ k, IsSquareMod p (c.g k) := by
  rcases exists_isSquareMod_of_mul hp h with h | h | h
  · exact ⟨0, h⟩
  · exact ⟨1, h⟩
  · exact ⟨2, h⟩

/-- A completion reads the same from any earlier state of the command (R212). -/
theorem Completed.of_kept {s u t : State} {c : StatusCode} {ephase : Phase} {klen : BitVec 16}
    (h : Completed c ephase klen u t) (hk : PhaseKept s u) : Completed c ephase klen s t :=
  { h with
    bwe := by rw [h.bwe, hk.status]
    control := ⟨h.control.ctrl.trans hk.control.ctrl, h.control.kdf.trans hk.control.kdf,
      h.control.cmdl.trans hk.control.cmdl⟩ }

theorem Completed.of_enter {s t : State} {c : StatusCode} {ephase p : Phase} {klen : BitVec 16}
    (h : Completed c ephase klen (s.enter p) t) : Completed c ephase klen s t :=
  { h with control := ⟨h.control.ctrl, h.control.kdf, h.control.cmdl⟩ }

/-- Settles O43: nine steps lead to the SQRT phase with the candidates in FR6 to FR11, one of whose values is a square; ten
more take a root and write the point. -/
theorem h2cHashesToACurvePoint : Obligations.H2cHashesToACurvePoint := by
  intro s msg dst r0 r1 hinv hs hc hsch htouched hp h2 ha hb hm hmsg hdst hr0 hr1 hl0 hl1 hcheck
  have hh : s.hid = Hidden.cleared := by
    apply hinv.cleared_outside_ports <;> rw [hs.2] <;> nofun
  have hready : ReadyToDerive msg dst s := ⟨hs.1, hc, hsch, hh, htouched, hmsg, hdst, hp.one_le, hm⟩
  have hlt0 : derivedValue s r0 < s.p := derivedValue_lt hp.one_le r0
  have hlt1 : derivedValue s r1 < s.p := derivedValue_lt hp.one_le r1
  have hrun9 := runSteps_hash hready hs hp.two_le ha hb hr0 hr1 hl0 hl1 (selfcheckHolds_hashed hlt0 hlt1 hcheck)
  generalize derivedValue s r0 = t at *
  generalize derivedValue s r1 = u at *
  have hready9 : ReadyToDerive msg dst ((hashed t u s).enter .sqrt) :=
    (((hready.setReg (by decide) t).setReg (by decide) u).writeCandidates _).enter .sqrt
  obtain ⟨k, hk⟩ := exists_square_of_selfcheck hp hcheck
  have hcand := fe_hashed_candidates (t := t) hp.pos hlt1
  have hp9 : ((hashed t u s).enter .sqrt).p = s.p := (p_enter _ _).trans (p_hashed t u s)
  have hsq : IsSquareMod ((hashed t u s).enter .sqrt).p (((hashed t u s).enter .sqrt).fe (valueReg (candidateIdx k))) := by
    rw [hp9, fe_enter, (hcand k).2]
    exact hk
  obtain ⟨v, hrun10, hdone, hpv, hkept, j, hx, hy⟩ := runSteps_select (.inr rfl) (runSteps_inv hinv hrun9)
    ⟨hready9.busy, rfl⟩ hready9.cmdl hready9.schedule hready9.hid (hp9.symm ▸ hp) (hp9.symm ▸ h2) ⟨k, hsq⟩
  rw [fe_enter, (hcand j).1] at hx
  rw [hp9, fe_enter, (hcand j).2] at hy
  have hreg (i : RegIdx) (h12 : i ≠ 12) (h13 : i ≠ 13) : v.reg i = (hashed t u s).reg i :=
    (hkept i h12 h13).trans (reg_enter _ _ i)
  refine ⟨v, (runSteps_add hrun9 10).trans hrun10, hdone.of_enter.of_kept (hashed_kept t u s), hpv, ?_, ?_, ?_, ?_⟩
  · rw [hreg 4 (by decide) (by decide), reg_hashed]; rfl
  · rw [hreg 5 (by decide) (by decide), reg_hashed]; rfl
  · refine ⟨?_, ?_, ?_, ?_, ?_, ?_, by rw [hx]; exact Candidates.x_cases _ j⟩ <;>
      rw [hreg _ (by decide) (by decide), reg_hashed] <;> rfl
  · rw [hy, hx, candidates_g]
    rfl

end Sys2Proof.Machine
end

section
/-! PROOFS. The curve check, the candidates and the self-check: what a step of each phase leaves, and, for an odd prime modulus
and X3F = 2, the algebra in ZMod P that says when the candidates satisfy the relation of R159. -/

namespace Sys2Proof.Machine

/-! ### The statements about one step (R151, R158, R160) -/

/-- Settles O21: VALIDATE has the curve check as its only phase, so a good curve completes it with OK. -/
theorem validateChecksTheCurve : Obligations.ValidateChecksTheCurve := by
  intro s hs hp hcmdl
  have hlatched : latchedWritesPoint s = false := latchedWritesPoint_of_encode hcmdl
  have hexec : exec .validate s = .next (finishPhase .validate (validatePhase s)) := hs.exec_eq rfl
  rw [validatePhase_of_pos hp] at hexec
  refine ⟨_, hexec, ?_, fieldsOf_encode _⟩
  by_cases hbad : s.fe 1 = 0 ∨ s.fe 2 = 0
  · rw [if_pos hbad, finishPhase_raise, ← hs.2]
    exact (if_pos hbad).mpr (wroteNone_complete .unsupportedCurve rfl hlatched)
  · rw [if_neg hbad, finishPhase_complete hs.2 rfl]
    exact (if_neg hbad).mpr (wroteNone_complete .ok rfl hlatched)

/-- The state with the candidates of its own registers in FR6 to FR11 (R158). -/
def generated (s : State) : State :=
  writeCandidates (candidates s.ctrl.x3f s.p (s.fe 1) (s.fe 2) (s.fe 4) (s.fe 5)) s

theorem reg_generated (s : State) (j : RegIdx) :
    (generated s).reg j =
      let c := candidates s.ctrl.x3f s.p (s.fe 1) (s.fe 2) (s.fe 4) (s.fe 5)
      if j = 6 then c.x1 else if j = 7 then c.g1 else if j = 8 then c.x2
      else if j = 9 then c.g2 else if j = 10 then c.x3 else if j = 11 then c.g3 else s.reg j :=
  reg_writeCandidates _ s j

@[simp] theorem generated_status (s : State) : (generated s).status = s.status := writeCandidates_status _ s
@[simp] theorem generated_errinfo (s : State) : (generated s).errinfo = s.errinfo := writeCandidates_errinfo _ s
@[simp] theorem generated_hid (s : State) : (generated s).hid = s.hid := writeCandidates_hid _ s
@[simp] theorem generated_env (s : State) : (generated s).env = s.env := writeCandidates_env _ s

theorem generated_kept (s : State) : PhaseKept s (generated s) := writeCandidates_kept _ s

/-- The model's candidates are the values of R152 to R157. -/
theorem candidatesWritten_of_reg {s t : State} (ht : ∀ j, t.reg j = (generated s).reg j) : CandidatesWritten s t := by
  simp only [CandidatesWritten, specInv_eq_inv, ht]
  refine ⟨reg_generated s 6, reg_generated s 7, reg_generated s 8, reg_generated s 9, reg_generated s 10,
    reg_generated s 11, fun j hj => ?_⟩
  rw [reg_generated]
  iterate 6 rw [if_neg (by rintro rfl; revert hj; decide)]

/-- The GENERATE step of CGEN, its last (R158). -/
theorem exec_generate_cgen {s : State} (hs : RunningIn .generate s) (hp : 2 ≤ s.p) :
    exec .cgen s = .next (complete .ok (generated s)) := by
  rw [hs.exec_eq (f := generatePhase) rfl, generatePhase_of_two_le hp]
  exact congrArg _ (finishPhase_complete hs.2 rfl)

/-- Settles O30: both commands write the candidates; GENERATE is CGEN's last phase and has SELFCHECK after it in H2C. -/
theorem generateWritesTheCandidates : Obligations.GenerateWritesTheCandidates := by
  intro s hs hp
  have hh2c : exec .h2c s = .next ((generated s).enter .selfcheck) := by
    rw [hs.exec_eq (f := generatePhase) rfl, generatePhase_of_two_le hp]
    exact congrArg _ (finishPhase_enter hs.2 rfl)
  have hdone : Completed .ok .idle 0 s (complete .ok (generated s)) :=
    completed_complete .ok (by rw [generated_status]) (generated_kept s).control
  have hgo : GoesOn .selfcheck s ((generated s).enter .selfcheck) :=
    goesOn_enter (generated_kept s) (generated_errinfo s) .selfcheck
  exact ⟨⟨_, exec_generate_cgen hs hp, hdone, candidatesWritten_of_reg (reg_complete_ok _), by simp, by simp, by simp⟩,
    ⟨_, hh2c, hgo, candidatesWritten_of_reg (reg_enter _ _), by simp, by simp, by simp, by simp⟩, fieldsOf_encode _⟩

/-- The SELFCHECK phase of SCHK and of H2C (R160). -/
theorem exec_selfcheck_pass {i : Instr} {s : State} (hbody : bodyOf i .selfcheck = some selfcheckPhase)
    (hs : RunningIn .selfcheck s) (hp : 1 ≤ s.p) (h : SelfcheckHolds s) :
    exec i s = .next (finishPhase i.op (.finished s)) := by
  rw [hs.exec_eq hbody, selfcheckPhase_pass hp h]

theorem exec_selfcheck_fail {i : Instr} {s : State} (hbody : bodyOf i .selfcheck = some selfcheckPhase)
    (hs : RunningIn .selfcheck s) (hp : 1 ≤ s.p) (h : ¬ SelfcheckHolds s) :
    exec i s = .next (complete .iafSelfcheck s) := by
  rw [hs.exec_eq hbody, selfcheckPhase_fail hp h, finishPhase_raise]

/-- A passing self-check completes SCHK, whose only phase it is (R160). -/
theorem exec_schk_pass {s : State} (hs : RunningIn .selfcheck s) (hp : 1 ≤ s.p) (h : SelfcheckHolds s) :
    exec .schk s = .next (complete .ok s) := by
  rw [exec_selfcheck_pass rfl hs hp h, finishPhase_complete hs.2 rfl]

/-- A passing self-check leads H2C to the SQRT phase (R192). -/
theorem exec_h2c_selfcheck_pass {s : State} (hs : RunningIn .selfcheck s) (hp : 1 ≤ s.p) (h : SelfcheckHolds s) :
    exec .h2c s = .next (s.enter .sqrt) := by
  rw [exec_selfcheck_pass rfl hs hp h, finishPhase_enter hs.2 rfl]

/-- Settles O31: both outcomes complete SCHK, whose errors clear no point. -/
theorem selfcheckCommandReports : Obligations.SelfcheckCommandReports := by
  intro s hs hp hcmdl
  have hlatched : latchedWritesPoint s = false := latchedWritesPoint_of_encode hcmdl
  have hfail := wroteNone_complete (s := s) .iafSelfcheck rfl hlatched
  rw [hs.2] at hfail
  exact ⟨fun h => ⟨_, exec_schk_pass hs hp h, wroteNone_complete .ok rfl hlatched⟩,
    fun h => ⟨_, exec_selfcheck_fail rfl hs hp h, hfail⟩, fieldsOf_encode _⟩

/-! ### The algebra of the self-check in a field (R161, R162) -/

section Algebra
variable {F : Type*} [Field F]

/-- The curve value at s·x, with s³ times the value at x taken out; d = s² + s is the denominator of R153. -/
theorem curve_at_mul (a b x s : F) :
    (s * x) ^ 3 + a * (s * x) + b =
      s ^ 3 * (x ^ 3 + a * x + b) + (1 - s) * (a * x * (s ^ 2 + s) + b * (1 + (s ^ 2 + s))) := by
  ring

/-- For x2 = −b/a · (1 + 1/d) what is left in `curve_at_mul` is 0, or b where d = 0 and its inverse is read as 0. -/
theorem curve_remainder {a : F} (ha : a ≠ 0) (b d : F) :
    a * (-b * a⁻¹ * (1 + d⁻¹)) * d + b * (1 + d) = b * (1 - d⁻¹ * d) := by
  linear_combination (-b * d * (1 + d⁻¹)) * mul_inv_cancel₀ ha

/-- With g3 = s³·g2 + r for s = t²·g1, the relation of R159 holds exactly if g1, g2 or r is 0. -/
theorem selfcheck_iff_of_scaled {t g1 g2 g3 r : F} (h : g3 = (t ^ 2 * g1) ^ 3 * g2 + r) :
    (t ^ 3 * g1 ^ 2 * g2) ^ 2 = g1 * g2 * g3 ↔ g1 = 0 ∨ g2 = 0 ∨ r = 0 := by
  have hdiff : g1 * g2 * g3 - (t ^ 3 * g1 ^ 2 * g2) ^ 2 = g1 * (g2 * r) := by rw [h]; ring
  rw [eq_comm, ← sub_eq_zero, hdiff, mul_eq_zero, mul_eq_zero]

/-- The remainder of `curve_at_mul` vanishes exactly where d ≠ 0: d = 0 and s = 1 together would make 2 = 0. -/
theorem scaled_remainder_eq_zero_iff {a b s : F} (h2 : (2 : F) ≠ 0) (ha : a ≠ 0) (hb : b ≠ 0) :
    (1 - s) * (a * (-b * a⁻¹ * (1 + (s ^ 2 + s)⁻¹)) * (s ^ 2 + s) + b * (1 + (s ^ 2 + s))) = 0 ↔ s ^ 2 + s ≠ 0 := by
  rw [curve_remainder ha]
  constructor
  · intro h hd
    rw [hd, mul_zero, sub_zero, mul_one] at h
    have hs : s = 1 := (sub_eq_zero.1 ((mul_eq_zero.1 h).resolve_right hb)).symm
    refine h2 ?_
    rw [← hd, hs]
    ring
  · intro hd
    rw [inv_mul_cancel₀ hd, sub_self, mul_zero, mul_zero]

end Algebra

/-! ### The candidates in ZMod P (R152 to R157) -/

section Casts
variable {p : Nat} [Fact p.Prime]

theorem cast_eq_zero_iff_of_lt {v : Nat} (h : v < p) : (v : ZMod p) = 0 ↔ v = 0 := by
  rw [ZMod.natCast_eq_zero_iff]
  exact ⟨fun hdvd => Nat.eq_zero_of_dvd_of_lt hdvd h, fun h0 => h0 ▸ dvd_zero p⟩

theorem cast_curvePoly (a b x : Nat) : (curvePoly p a b x : ZMod p) = (x : ZMod p) ^ 3 + a * x + b := by
  simp [curvePoly]

/-- The model's inverse is the field's, 0 for 0 among it (R104). -/
theorem cast_inv {z : Nat} (hz : z < p) : (inv p z : ZMod p) = (z : ZMod p)⁻¹ := by
  have hprime : p.Prime := Fact.out
  by_cases h0 : z = 0
  · simp [inv, h0]
  · refine eq_inv_of_mul_eq_one_right ?_
    rw [← specInv_eq_inv, ← Nat.cast_mul, ← ZMod.natCast_mod, mul_specInv_mod hprime h0 hz, Nat.cast_one]

/-- The denominator as s² + s for s = t²·g1 (R153). -/
theorem cast_denominator (t g1 : Nat) :
    (denominator p t g1 : ZMod p) = ((t : ZMod p) ^ 2 * g1) ^ 2 + (t : ZMod p) ^ 2 * g1 := by
  rw [denominator, ZMod.natCast_mod]
  push_cast
  ring

theorem denominator_lt (t g1 : Nat) : denominator p t g1 < p :=
  Nat.mod_lt _ (Fact.out : p.Prime).pos

/-- x2 = −b/a · (1 + 1/d) (R154, R155). -/
theorem cast_candidate2 {a b : Nat} (ha : a < p) (hb : b < p) (t g1 : Nat) :
    (candidate2 p a b t g1 : ZMod p) = -b * (a : ZMod p)⁻¹ * (1 + (denominator p t g1 : ZMod p)⁻¹) := by
  have hneg : ((p - b : Nat) : ZMod p) = -b := by rw [Nat.cast_sub hb.le, ZMod.natCast_self, zero_sub]
  rw [candidate2, coefficient, ZMod.natCast_mod, Nat.cast_mul, ZMod.natCast_mod, Nat.cast_mul, hneg, cast_inv ha,
    Nat.cast_add, Nat.cast_one, cast_inv (denominator_lt t g1)]

/-- x3 = (t²·g1)·x2 in the form X3F = 2 (R156). -/
theorem cast_candidate3_identity (t g1 x2 : Nat) :
    (candidate3 .identity p t g1 x2 : ZMod p) = (t : ZMod p) ^ 2 * g1 * x2 := by
  simp [candidate3]

/-- The relation of R159 as an equation in the field. -/
theorem selfcheck_eq_iff_cast (t g1 g2 g3 : Nat) :
    selfcheckLhs p t g1 g2 = selfcheckRhs p g1 g2 g3 ↔
      ((t : ZMod p) ^ 3 * (g1 : ZMod p) ^ 2 * g2) ^ 2 = g1 * g2 * g3 := by
  rw [selfcheckLhs, selfcheckRhs, ← ZMod.natCast_eq_natCast_iff']
  push_cast
  exact Iff.rfl

/-- Over an odd prime, with a, b ≠ 0 and X3F = 2, the candidates satisfy the relation of R159 exactly if g1 or g2 is 0 or the
denominator is not (R161, R162). -/
theorem selfcheck_candidates_iff {a b : Nat} (h2 : p ≠ 2) (ha : a < p) (hb : b < p) (ha0 : a ≠ 0) (hb0 : b ≠ 0)
    (t u : Nat) :
    let c := candidates .identity p a b t u
    selfcheckLhs p t c.g1 c.g2 = selfcheckRhs p c.g1 c.g2 c.g3 ↔ c.g1 = 0 ∨ c.g2 = 0 ∨ denominator p t c.g1 ≠ 0 := by
  intro c
  have hpos : 0 < p := (Fact.out : p.Prime).pos
  have htwo : (2 : ZMod p) ≠ 0 := Ring.two_ne_zero (by rwa [ZMod.ringChar_zmod_n])
  have ha' : (a : ZMod p) ≠ 0 := mt (cast_eq_zero_iff_of_lt ha).1 ha0
  have hb' : (b : ZMod p) ≠ 0 := mt (cast_eq_zero_iff_of_lt hb).1 hb0
  have hd : (denominator p t c.g1 : ZMod p) = ((t : ZMod p) ^ 2 * c.g1) ^ 2 + (t : ZMod p) ^ 2 * c.g1 :=
    cast_denominator t c.g1
  have hx2 : (c.x2 : ZMod p) = -b * (a : ZMod p)⁻¹ * (1 + (denominator p t c.g1 : ZMod p)⁻¹) :=
    cast_candidate2 ha hb t c.g1
  have hg2 : (c.g2 : ZMod p) = (c.x2 : ZMod p) ^ 3 + a * c.x2 + b := cast_curvePoly a b c.x2
  have hg3 : (c.g3 : ZMod p) = (t ^ 2 * c.g1 * c.x2 : ZMod p) ^ 3 + a * (t ^ 2 * c.g1 * c.x2) + b := by
    rw [← cast_candidate3_identity]
    exact cast_curvePoly a b c.x3
  rw [curve_at_mul, ← hg2] at hg3
  rw [selfcheck_eq_iff_cast, selfcheck_iff_of_scaled hg3, hx2, hd, scaled_remainder_eq_zero_iff htwo ha' hb', ← hd]
  exact or_congr (cast_eq_zero_iff_of_lt (Nat.mod_lt _ hpos)) (or_congr (cast_eq_zero_iff_of_lt (Nat.mod_lt _ hpos))
    (not_congr (cast_eq_zero_iff_of_lt (denominator_lt t c.g1))))

/-- A residue is P − 1 exactly if it is −1 in the field. -/
theorem mod_eq_pred_iff_cast (v : Nat) : v % p = p - 1 ↔ (v : ZMod p) = -1 := by
  have hpos : 0 < p := (Fact.out : p.Prime).pos
  have hpred : ((p - 1 : Nat) : ZMod p) = -1 := by rw [Nat.cast_pred hpos, ZMod.natCast_self, zero_sub]
  rw [← hpred, ZMod.natCast_eq_natCast_iff', Nat.mod_eq_of_lt (Nat.sub_lt hpos Nat.one_pos)]

/-- The exceptional set (R162): s² + s = s·(s + 1) for s = t²·g1. -/
theorem denominator_eq_zero_iff {t g1 : Nat} (ht : t < p) (hg : g1 < p) :
    denominator p t g1 = 0 ↔ t = 0 ∨ g1 = 0 ∨ t ^ 2 * g1 % p = p - 1 := by
  have hfactor (s : ZMod p) : s ^ 2 + s = s * (s + 1) := by ring
  rw [← cast_eq_zero_iff_of_lt (denominator_lt t g1), cast_denominator, hfactor, mul_eq_zero, mul_eq_zero,
    sq_eq_zero_iff, cast_eq_zero_iff_of_lt ht, cast_eq_zero_iff_of_lt hg, or_assoc, mod_eq_pred_iff_cast,
    eq_neg_iff_add_eq_zero]
  push_cast
  exact Iff.rfl

end Casts

/-! ### The self-check after GENERATE -/

/-- On the registers GENERATE left, SELFCHECK tests R159 for the candidates. -/
theorem selfcheckHolds_after_generate {s t u : State} (hs : RunningIn .generate s) (hp : 2 ≤ s.p)
    (hexec : exec .cgen s = .next t) (hu : u.fr = t.fr) :
    let c := candidates s.ctrl.x3f s.p (s.fe 1) (s.fe 2) (s.fe 4) (s.fe 5)
    u.p = s.p ∧ t.reg 7 = c.g1 ∧ t.reg 9 = c.g2 ∧
      (SelfcheckHolds u ↔ selfcheckLhs s.p (s.fe 4) c.g1 c.g2 = selfcheckRhs s.p c.g1 c.g2 c.g3) := by
  intro c
  rw [exec_generate_cgen hs hp] at hexec
  cases hexec
  have hreg (j : RegIdx) : u.reg j = (generated s).reg j := State.reg_congr hu j
  have hup : u.p = s.p := (hreg 0).trans (reg_generated s 0)
  have hfe {j : RegIdx} {v : Nat} (h : (generated s).reg j = v) : u.fe j = v % s.p := by rw [State.fe, hup, hreg, h]
  obtain ⟨-, hg1, -, hg2, -, hg3⟩ := candidates_lt (f := s.ctrl.x3f) (p := s.p) (a := s.fe 1) (b := s.fe 2)
    (t := s.fe 4) (u := s.fe 5) (by omega) (s.fe_lt 5 (by omega))
  have h4 : u.fe 4 = s.fe 4 := hfe (reg_generated s 4)
  have h7 : u.fe 7 = c.g1 := (hfe (reg_generated s 7)).trans (Nat.mod_eq_of_lt hg1)
  have h9 : u.fe 9 = c.g2 := (hfe (reg_generated s 9)).trans (Nat.mod_eq_of_lt hg2)
  have h11 : u.fe 11 = c.g3 := (hfe (reg_generated s 11)).trans (Nat.mod_eq_of_lt hg3)
  refine ⟨hup, reg_generated s 7, reg_generated s 9, ?_⟩
  rw [← h4, ← h7, ← h9, ← h11, ← hup]
  exact Iff.rfl

/-- With X3F = 2 over an odd prime, a, b ≠ 0, the self-check after GENERATE passes exactly if a stored g1 or g2 is 0 or the
denominator is not. -/
theorem selfcheckHolds_after_generate_iff {s t u : State} (hs : RunningIn .generate s) (hform : s.ctrl.x3f = .identity)
    (hprime : s.p.Prime) (h2 : s.p ≠ 2) (ha : s.fe 1 ≠ 0) (hb : s.fe 2 ≠ 0) (hexec : exec .cgen s = .next t)
    (hu : u.fr = t.fr) :
    u.p = s.p ∧ (SelfcheckHolds u ↔
      t.reg 7 = 0 ∨ t.reg 9 = 0 ∨ denominator s.p (s.fe 4) (specG s (s.fe 5)) ≠ 0) := by
  have : Fact s.p.Prime := ⟨hprime⟩
  obtain ⟨hup, h7, h9, hcheck⟩ := selfcheckHolds_after_generate hs hprime.two_le hexec hu
  refine ⟨hup, ?_⟩
  rw [hcheck, h7, h9, hform]
  exact selfcheck_candidates_iff h2 (s.fe_lt 1 hprime.pos) (s.fe_lt 2 hprime.pos) ha hb (s.fe 4) (s.fe 5)

/-- Settles O33: a nonzero denominator is one of the ways for the self-check to pass. -/
theorem selfcheckPassesWhenDenominatorNonzero : Obligations.SelfcheckPassesWhenDenominatorNonzero := by
  intro s t u hs hform hprime h2 ha hb hd hexec hrun hu
  obtain ⟨hup, hiff⟩ := selfcheckHolds_after_generate_iff hs hform hprime h2 ha hb hexec hu
  have hpass : SelfcheckHolds u := hiff.2 (.inr (.inr hd))
  have hpos : 1 ≤ u.p := hup ▸ hprime.one_le
  exact ⟨hpass, ⟨_, exec_schk_pass hrun hpos hpass, complete_err .ok u⟩,
    _, exec_h2c_selfcheck_pass hrun hpos hpass, rfl⟩

/-- Settles O34: with d = 0 only g1 = 0 and g2 = 0 are left as ways to pass. -/
theorem selfcheckOnTheExceptionalSet : Obligations.SelfcheckOnTheExceptionalSet := by
  intro s t u hs hform hprime h2 ha hb hexec hrun hu tt g1 d
  have : Fact s.p.Prime := ⟨hprime⟩
  obtain ⟨hup, hiff⟩ := selfcheckHolds_after_generate_iff hs hform hprime h2 ha hb hexec hu
  refine ⟨denominator_eq_zero_iff (s.fe_lt 4 hprime.pos) (Nat.mod_lt _ hprime.pos), fun hd => ?_⟩
  have hzero : denominator s.p (s.fe 4) (specG s (s.fe 5)) = 0 := hd
  have hpass : SelfcheckHolds u ↔ t.reg 7 = 0 ∨ t.reg 9 = 0 := by
    rw [hiff, ← or_assoc, or_iff_left (not_not.2 hzero)]
  refine ⟨hpass, fun h7 h9 => ⟨_, ?_, complete_err .iafSelfcheck u⟩⟩
  exact exec_selfcheck_fail rfl hrun (hup ▸ hprime.one_le) (mt hpass.1 (not_or.2 ⟨h7, h9⟩))

end Sys2Proof.Machine
end

section
/-! PROOFS. The statements about the selector: the port's rounds and contract, the choice of SELECT, what does not depend on
the masks, and the ten steps from the start of the SQRT phase (R170 to R183). -/

namespace Sys2Proof.Machine

/-! ### The rounds of the SQRT phase (R170, R173, R178) -/

/-- The value of candidate k + 1 stands in FR[5 + 2(k + 1)] (R178). -/
theorem valueReg_candidateIdx (k : Fin 3) : valueReg (candidateIdx k) = Fin.ofNat 16 (5 + 2 * (k + 1)) := by
  revert k; decide

theorem sqrtPhase_of_pending {s : State} (hq : s.hid.sqpend = true) : sqrtPhase s = .hold s :=
  if_pos hq

theorem sqrtPhase_of_quiet {s : State} (hq : s.hid.sqpend = false) (ha : s.hid.sqrtAns = none) :
    sqrtPhase s = .hold (issueRoot s) := by
  simp [sqrtPhase, hq, ha]

theorem op_select_or_h2c {i : Instr} (hi : i = .select ∨ i = .h2c) : i.op = .select ∨ i.op = .h2c := by
  rcases hi with rfl | rfl
  · exact .inl rfl
  · exact .inr rfl

/-- SQIDX 0 stands for candidate 1 until the first request is out (R42). -/
theorem nextIdx_eq {idx : BitVec 2} {k : Fin 3} (h : idx = candidateIdx k ∨ (idx = 0 ∧ k = 0)) :
    (if idx = 0 then 1 else idx) = candidateIdx k := by
  rcases h with rfl | ⟨rfl, rfl⟩
  · exact if_neg (candidateIdx_ne_zero k)
  · rfl

/-- Settles O35: with the port quiet the phase issues the request of SQIDX's candidate, with a request out it holds. -/
theorem sqrtPhaseIssuesTheRequests : Obligations.SqrtPhaseIssuesTheRequests := by
  intro s i j hi hs hp hj1 hj3 hidx
  obtain ⟨k, rfl⟩ : ∃ k : Fin 3, j = k + 1 := ⟨⟨j - 1, by omega⟩, (Nat.sub_add_cancel hj1).symm⟩
  have hnext : (if s.hid.sqidx = 0 then 1 else s.hid.sqidx) = candidateIdx k :=
    nextIdx_eq (hidx.imp_right fun h => ⟨h.1, Fin.ext (by simpa using h.2)⟩)
  rw [exec_sqrtPhase hi hs]
  refine ⟨fun hq ha => ?_, fun hq => ?_⟩
  · rw [sqrtPhase_of_quiet hq ha, finishPhase_hold, issueRoot_of_pos (by omega) hnext, valueReg_candidateIdx]
    rfl
  · rw [sqrtPhase_of_pending hq, finishPhase_hold]

/-- Settles O36: the store of a round, for the candidate SQIDX names. -/
theorem sqrtPhaseStoresTheAnswers : Obligations.SqrtPhaseStoresTheAnswers := by
  intro s i j hj valid r hi hs hq ha hidx
  rw [exec_sqrtPhase hi hs, finishPhase_withRoot (k := ⟨j, hj⟩) (op_select_or_h2c hi) hs.2 hq ha hidx]
  have hlast : ((⟨j, hj⟩ : Fin 3) = 2) = (j = 2) := by rw [Fin.ext_iff]; rfl
  simp only [State.enter, withRoot, hlast]
  by_cases h2 : j = 2
  · subst h2
    simp only [if_true, hidx]
    rfl
  · have hsucc : candidateIdx (⟨j, hj⟩ + 1) = BitVec.ofNat 2 (j + 2) := by
      rw [candidateIdx, Fin.val_add_one_of_lt' (show j + 1 < 3 by omega)]
    simp only [if_neg h2, hsucc]

/-! ### The collaborator's contract (R171, R172) -/

/-- The least root is the smaller of the two: the other one is P − r (R172). -/
theorem two_mul_leastRoot_le {p v r : Nat} (h : leastRoot p v = some r) : 2 * r ≤ p := by
  obtain ⟨hlt, hr, hleast⟩ := leastRoot_of_some h
  by_contra hbig
  have hother : (p - r) % p = p - r := Nat.mod_eq_of_lt (by omega)
  have hsq : (p - r) * (p - r) % p = v := by rw [← hr, ← sub_mod_sq hlt, hother]
  exact hleast (p - r) (by omega) hsq

/-- Under MIN a valid answer carries the smaller root (R172). -/
theorem two_mul_sqrtAnswer_le {q : SqrtRequest} {s : State} (hodd : isOddPrime q.p = true) (hmin : s.env.sqrtRoot = .min)
    (hvalid : (sqrtAnswer q s).1 = true) : 2 * (sqrtAnswer q s).2 ≤ q.p := by
  unfold sqrtAnswer at hvalid ⊢
  rw [if_pos hodd] at hvalid ⊢
  split at hvalid
  · rename_i r hr
    simp only [hmin, chosenRoot]
    exact two_mul_leastRoot_le hr
  · cases hvalid

/-- Settles O37: the answer keeps the contract, and the collaborator's turn changes only the port and the free-value counter. -/
theorem sqrtAnswerKeepsTheContract : Obligations.SqrtAnswerKeepsTheContract := by
  intro s q hq hreq hp h2 hv
  obtain ⟨hiff, hroot⟩ := sqrtAnswer_answersRoot s hp h2 hv
  have hturn : turn .sqrt s = .next (rootAnswered (sqrtAnswer q s) s) :=
    congrArg Host.Outcome.next (sqrtTurn_of_request hq hreq)
  refine ⟨_, (sqrtAnswer q s).1, (sqrtAnswer q s).2, hturn, rfl, hiff, fun hvalid => ?_⟩
  obtain ⟨hlt, hsq⟩ := hroot hvalid
  exact ⟨hlt, hsq, fun hmin => two_mul_sqrtAnswer_le (isOddPrime_of_prime hp h2) hmin hvalid⟩

/-! ### The SELECT step (R176, R177, R179) -/

theorem anyValid_iff {s : State} :
    anyValid s = true ↔ s.hid.sqv[0] = true ∨ s.hid.sqv[1] = true ∨ s.hid.sqv[2] = true := by
  simp only [anyValid, Bool.or_eq_true, or_assoc]

/-- The selection does not change the masks (R176). -/
theorem anyValid_selectRes (s : State) : anyValid (selectRes s) = anyValid s := by
  obtain ⟨r3, r2, r1, h⟩ := selectRes_eq s
  simp only [anyValid, h, setRes_hid, fetch_hid]

/-- With a mask bit set the SELECT step writes the point and completes with OK (R179). -/
theorem exec_select_of_anyValid {s : State} {i : Instr} (hi : i = .select ∨ i = .h2c) (hs : RunningIn .select s)
    (hv : anyValid s = true) : exec i s = .next (complete .ok (writePoint (selectRes s))) := by
  have hstate : (writePoint (selectRes s)).status.state = .select :=
    ((selectRes_kept s).trans (writePoint_kept _)).state.trans hs.2
  rw [exec_selectPhase hi hs, selectPhase, if_pos ((anyValid_selectRes s).trans hv),
    finishPhase_complete hstate (phaseAfter_select i.op)]

/-- With no mask bit set it completes with IAF_NOSQRT (R177). -/
theorem exec_select_of_not_anyValid {s : State} {i : Instr} (hi : i = .select ∨ i = .h2c) (hs : RunningIn .select s)
    (hv : anyValid s = false) : exec i s = .next (complete .iafNosqrt (selectRes s)) := by
  rw [exec_selectPhase hi hs, selectPhase, if_neg (by rw [anyValid_selectRes, hv]; decide), finishPhase_raise]

/-- A completion after a step that stays within a phase step's frame (R212). -/
theorem PhaseKept.completed {s u : State} (h : PhaseKept s u) (c : StatusCode) :
    Completed c (if c = .ok then .idle else u.status.state) (if c = .kdfLengthMismatch then u.errinfo.klen else 0) s
      (complete c u) :=
  completed_complete c (by rw [h.status]) h.control

/-- The registers after a SELECT step with a mask bit set: the selected pair in FR[12] and FR[13] (R179). -/
theorem reg_point_of_selectRes {s : State} {x y : FE} (h : selectRes s = s.setRes (x, y)) (j : RegIdx) :
    (complete .ok (writePoint (selectRes s))).reg j = if j = 12 then x else if j = 13 then y else s.reg j := by
  rw [reg_complete_ok, reg_writePoint, h]
  rfl

/-- Settles O38: the blends leave the chosen candidate, and the masks say which one that is. -/
theorem selectTakesTheLowestValidCandidate : Obligations.SelectTakesTheLowestValidCandidate := by
  intro s i hi hs hp hf hv
  have hvalid : anyValid s = true := anyValid_iff.2 hv
  have hres := selectRes_eq_chosen hp hf
  have hreg := reg_point_of_selectRes hres
  have henv : (complete .ok (writePoint (selectRes s))).env = s.env := by rw [hres]; rfl
  have hpoint {k : Fin 3} (hk : chosenCandidate s = k) :
      (complete .ok (writePoint (selectRes s))).reg 12 = s.reg (candidateReg k) % s.p ∧
        (complete .ok (writePoint (selectRes s))).reg 13 = s.hid.sqr[k] := by
    subst hk
    exact ⟨hreg 12, hreg 13⟩
  refine ⟨_, exec_select_of_anyValid hi hs hvalid, ((selectRes_kept s).trans (writePoint_kept _)).completed .ok, rfl,
    ⟨henv, fun _ => by rw [henv]⟩, fun j hx hy => ?_, fun h0 => ?_, fun h0 h1 => ?_, fun h0 h1 => ?_⟩
  · rw [hreg, if_neg hx, if_neg hy]
  · exact hpoint (k := 0) (by simp [chosenCandidate, h0])
  · exact hpoint (k := 1) (by simp [chosenCandidate, h0, h1])
  · exact hpoint (k := 2) (by simp [chosenCandidate, h0, h1])

/-- The errors of SELECT and H2C clear the point (R213). -/
theorem latchedWritesPoint_of_select {s : State} {i : Instr} (hi : i = .select ∨ i = .h2c) (hc : s.cmdl = encode i) :
    latchedWritesPoint s = true := by
  rw [latchedWritesPoint_of_encode hc]
  rcases hi with rfl | rfl <;> rfl

/-- A completion clears the tentative answer, so it does not matter to what it leaves (R45, R212). -/
theorem complete_setRes (c : StatusCode) (r : FE × FE) (s : State) : complete c (s.setRes r) = complete c s := rfl

/-- Settles O39: with no mask bit set the completion is an error of SELECT or H2C, which clears the point. -/
theorem selectWithoutARootReports : Obligations.SelectWithoutARootReports := by
  intro s i hi hs hp hc h0 h1 h2
  have hnone : anyValid s = false := by simp [anyValid, h0, h1, h2]
  have hlatched := latchedWritesPoint_of_select hi hc
  refine ⟨_, exec_select_of_not_anyValid hi hs hnone, ?_⟩
  rw [selectRes_blends hp, complete_setRes, ← hs.2]
  exact pointCleared_complete (by decide) rfl hlatched

/-! ### What does not depend on the masks and roots (R180) -/

@[simp] theorem blankRoots_blankRoots (s : State) : s.blankRoots.blankRoots = s.blankRoots := by
  simp [State.blankRoots, Function.comp_def]

/-- The request does not depend on the roots (R178, R180). -/
theorem issueRoot_blankRoots (s : State) : issueRoot s.blankRoots = (issueRoot s).blankRoots := by
  by_cases hp : s.p = 0
  · simp only [issueRoot, fetch, hp, if_pos (show s.blankRoots.p = 0 from hp), if_true]
    rfl
  · simp only [issueRoot, fetch_of_pos _ hp, fetch_of_pos (s := s.blankRoots) _ hp]
    rfl

/-- The step that stores an answer: SQIDX goes on, or the phase is over after candidate 3 (R178). -/
theorem sqrtPhase_of_answer {s : State} {ans : Bool × FE} (hq : s.hid.sqpend = false) (ha : s.hid.sqrtAns = some ans) :
    sqrtPhase s = if s.hid.sqidx = 3 then .finished (storeRoot ans s)
      else .hold { storeRoot ans s with hid := { (storeRoot ans s).hid with sqidx := s.hid.sqidx + 1 } } := by
  simp only [sqrtPhase, hq, ha, Bool.false_eq_true, if_false]

/-- A step of the SQRT phase does the same but for the roots, whatever the roots are (R180). -/
theorem blankRoots_sqrtStep {s : State} {o : Op} (ho : o = .select ∨ o = .h2c) (hs : s.status.state = .sqrt) :
    (finishPhase o (sqrtPhase s.blankRoots)).blankRoots = (finishPhase o (sqrtPhase s)).blankRoots := by
  have hafter : phaseAfter .sqrt (phasesOf o) = some .select := by rcases ho with rfl | rfl <;> rfl
  cases hq : s.hid.sqpend with
  | true =>
      rw [sqrtPhase_of_pending hq, sqrtPhase_of_pending (s := s.blankRoots) hq]
      exact blankRoots_blankRoots s
  | false =>
      cases ha : s.hid.sqrtAns with
      | none =>
          have ha' : s.blankRoots.hid.sqrtAns = none := congrArg (Option.map _) ha
          rw [sqrtPhase_of_quiet hq ha, sqrtPhase_of_quiet (s := s.blankRoots) hq ha', finishPhase_hold, finishPhase_hold,
            issueRoot_blankRoots, blankRoots_blankRoots]
      | some ans =>
          have ha' : s.blankRoots.hid.sqrtAns = some (false, 0) := congrArg (Option.map _) ha
          rw [sqrtPhase_of_answer hq ha, sqrtPhase_of_answer (s := s.blankRoots) hq ha']
          by_cases h3 : s.hid.sqidx = 3
          · rw [if_pos h3, if_pos (show s.blankRoots.hid.sqidx = 3 from h3),
              finishPhase_enter (u := storeRoot _ s) hs hafter,
              finishPhase_enter (u := storeRoot _ s.blankRoots) hs hafter]
            rfl
          · rw [if_neg h3, if_neg (show s.blankRoots.hid.sqidx ≠ 3 from h3)]
            rfl

/-- The environment after a fetch: one free value is drawn with P = 0 (R15). -/
theorem fetch_env (i : RegIdx) (s : State) :
    (fetch i s).2.env = { s.env with draws := s.env.draws + if s.p = 0 then 1 else 0 } := by
  unfold fetch
  split <;> rfl

theorem p_fetch (i : RegIdx) (s : State) : (fetch i s).2.p = s.p :=
  State.reg_congr (fetch_fr i s) 0

/-- The environment after the SELECT step: three free values are drawn with P = 0 and none otherwise (R15, R176). -/
def envAfterSelect (s : State) : Env :=
  { s.env with draws := s.env.draws + if s.p = 0 then 3 else 0 }

theorem selectRes_env (s : State) : (selectRes s).env = envAfterSelect s := by
  obtain ⟨r3, r2, r1, h⟩ := selectRes_eq s
  unfold envAfterSelect
  simp only [h, setRes_env, fetch_env, p_setRes, p_fetch]
  split <;> rfl

/-- A completion writes no register but FR[12] and FR[13] (R213). -/
theorem reg_complete_of_ne (c : StatusCode) (s : State) {j : RegIdx} (hx : j ≠ 12) (hy : j ≠ 13) :
    (complete c s).reg j = s.reg j := by
  unfold complete
  split
  · exact (reg_clearPoint (recordCode c s) j).trans (if_neg (not_or.2 ⟨hx, hy⟩))
  · rfl

/-- What the SELECT step leaves, with or without a valid candidate (R180). -/
theorem exec_select_trace {s : State} {i : Instr} (hi : i = .select ∨ i = .h2c) (hs : RunningIn .select s) :
    ∃ t code ephase klen, exec i s = .next t ∧ Completed code ephase klen s t ∧
      t.env = envAfterSelect s ∧ ∀ j, j ≠ 12 → j ≠ 13 → t.reg j = s.reg j := by
  have hkept := selectRes_kept s
  have hreg (j : RegIdx) : (selectRes s).reg j = s.reg j := by
    obtain ⟨r3, r2, r1, h⟩ := selectRes_eq s
    exact State.reg_congr (by simp only [h, setRes_fr, fetch_fr]) j
  cases hv : anyValid s with
  | true =>
      refine ⟨_, _, _, _, exec_select_of_anyValid hi hs hv, (hkept.trans (writePoint_kept _)).completed .ok,
        ?_, fun j hx hy => ?_⟩
      · rw [complete_env, writePoint_env, selectRes_env]
      · rw [reg_complete_ok, reg_writePoint, if_neg hx, if_neg hy, hreg]
  | false =>
      refine ⟨_, _, _, _, exec_select_of_not_anyValid hi hs hv, hkept.completed .iafNosqrt,
        ?_, fun j hx hy => ?_⟩
      · rw [complete_env, selectRes_env]
      · rw [reg_complete_of_ne _ _ hx hy, hreg]

/-- Settles O40: the SQRT step reads no root, and what the SELECT step leaves is said without the masks and roots. -/
theorem selectorTraceIgnoresTheMasks : Obligations.SelectorTraceIgnoresTheMasks := by
  intro s s' i hi h
  have hfield {α : Type} (f : State → α) : f s.blankRoots = f s'.blankRoots := congrArg f h
  have hstatus : s.status = s'.status := hfield State.status
  have hreg (j : RegIdx) : s.reg j = s'.reg j := hfield (State.reg · j)
  have hrun {ph : Phase} (hs : RunningIn ph s) : RunningIn ph s' := by rwa [RunningIn, ← hstatus]
  refine ⟨fun hs => ?_, fun hs => ?_⟩
  · refine ⟨_, _, exec_sqrtPhase hi hs, exec_sqrtPhase hi (hrun hs), ?_⟩
    rw [← blankRoots_sqrtStep (op_select_or_h2c hi) hs.2, h, blankRoots_sqrtStep (op_select_or_h2c hi) (hrun hs).2]
  · obtain ⟨t, _, _, _, hexec, hdone, henv, hkept⟩ := exec_select_trace hi hs
    obtain ⟨t', _, _, _, hexec', hdone', henv', hkept'⟩ := exec_select_trace hi (hrun hs)
    refine ⟨t, t', hexec, hexec', ?_, ?_, ?_, ?_, ?_, ?_, ?_, ?_, ?_, fun j hx hy => ?_⟩
    · rw [hdone.busy, hdone'.busy]
    · rw [hdone.state, hdone'.state]
    · rw [hdone.done, hdone'.done]
    · rw [hdone.bwe, hdone'.bwe, hstatus]
    · rw [hdone.hid, hdone'.hid]
    · rw [hdone.control.ctrl, hdone'.control.ctrl]; exact hfield State.ctrl
    · rw [hdone.control.kdf, hdone'.control.kdf]; exact hfield State.kdf
    · rw [hdone.control.cmdl, hdone'.control.cmdl]; exact hfield State.cmdl
    · rw [henv, henv']; exact hfield envAfterSelect
    · rw [hkept j hx hy, hkept' j hx hy, hreg]

/-! ### Ten steps from the start of the SQRT phase (R178, R182, R183) -/

theorem runSteps_one_eq_step (s : State) : runSteps 1 s = step s := by
  simp only [runSteps]
  cases step s <;> rfl

/-- After the three rounds the registers are as before them. -/
theorem RootsTaken.reg {s t : State} {k : Nat} (h : RootsTaken s k t) (j : RegIdx) : t.reg j = s.reg j := by
  rw [h.frame]
  rfl

/-- Nine steps take the roots, and the tenth is the SELECT step (R178). -/
theorem runSteps_to_select {s : State} {i : Instr} (hi : i = .select ∨ i = .h2c) (hs : RunningIn .sqrt s)
    (hc : s.cmdl = encode i) (hsch : s.env.schedule = []) (hh : s.hid = Hidden.cleared) (hp : s.p.Prime) (h2 : s.p ≠ 2) :
    ∃ u, runSteps 9 s = .next u ∧ RootsTaken s 3 u ∧ RunningIn .select u ∧ runSteps 10 s = exec i u := by
  obtain ⟨u, hrun, hroots⟩ := runSteps_sqrt hi hs hc hsch hh hp h2
  have hu : RunningIn .select u := by rw [hroots.frame]; exact ⟨hs.1, rfl⟩
  have hlast : step u = exec i u :=
    step_exec (by rw [hroots.frame]; exact hsch) hroots.kpend hroots.sqpend hu.1 (by rw [hroots.frame]; exact hc)
  exact ⟨u, hrun, hroots, hu, by rw [runSteps_add hrun 1, runSteps_one_eq_step, hlast]⟩

theorem isSquareMod_mod {p v : Nat} : IsSquareMod p (v % p) ↔ IsSquareMod p v := by
  simp only [IsSquareMod, Nat.mod_mod]

/-- The relation of R159 on the registers leaves a square among the three values (R183). -/
theorem SelfcheckHolds.exists_square {s : State} (h : SelfcheckHolds s) (hp : s.p.Prime) :
    ∃ k : Fin 3, IsSquareMod s.p (s.fe (valueReg (candidateIdx k))) := by
  rcases exists_isSquareMod_of_mul hp h with h | h | h
  · exact ⟨0, h⟩
  · exact ⟨1, h⟩
  · exact ⟨2, h⟩

/-- Settles O41: the collaborator finds the square the self-check leaves, so the SELECT step completes with OK. -/
theorem passingSelfcheckLeavesASquare : Obligations.PassingSelfcheckLeavesASquare := by
  intro s i hi hs hc hh hsch hp h2 hcheck
  obtain ⟨k, hk⟩ := hcheck.exists_square hp
  obtain ⟨u, hrun9, hroots, hu, hrun10⟩ := runSteps_to_select hi hs hc hsch hh hp h2
  have hvalid : anyValid u = true := anyValid_of_valid (k := k) ((hroots.roots k k.isLt).valid_iff.2 hk)
  have hexec := exec_select_of_anyValid hi hu hvalid
  obtain ⟨hcontrol, hstatus, -⟩ := (selectRes_kept u).trans (writePoint_kept _)
  have hdone : Completed .ok .idle 0 s (complete .ok (writePoint (selectRes u))) :=
    completed_complete .ok (by rw [hstatus, hroots.frame])
      ⟨by rw [hcontrol.ctrl, hroots.frame], by rw [hcontrol.kdf, hroots.frame], by rw [hcontrol.cmdl, hroots.frame]⟩
  exact ⟨u, _, hrun9, hu, anyValid_iff.1 hvalid, hexec, hrun10.trans hexec, hdone, rfl⟩

/-- The selection is the chosen candidate with its root, each cut to FW bits (R175, R176). -/
theorem selectRes_eq_chosen_mod {s : State} (hp : 1 ≤ s.p) :
    selectRes s = s.setRes (s.fe (candidateReg (chosenCandidate s)) % 2 ^ s.fw,
      s.hid.sqr[chosenCandidate s] % 2 ^ s.fw) := by
  rw [selectRes_blends hp]
  congr 1
  simp only [blendPair, blend_eq, ← s.fw_eq]
  cases h0 : s.hid.sqv[0] with
  | true => simp [chosenCandidate, candidateReg, h0]
  | false =>
      cases h1 : s.hid.sqv[1] with
      | true => simp [chosenCandidate, candidateReg, h0, h1]
      | false => simp [chosenCandidate, candidateReg, h0, h1]

/-- A valid candidate below 2^FW is selected as it stands. -/
theorem selectRes_eq_chosen_of_lt {s : State} (hp : 1 ≤ s.p) (hpw : s.p < 2 ^ s.fw)
    (hr : s.hid.sqr[chosenCandidate s] < s.p) :
    selectRes s = s.setRes (s.fe (candidateReg (chosenCandidate s)), s.hid.sqr[chosenCandidate s]) := by
  rw [selectRes_eq_chosen_mod hp, Nat.mod_eq_of_lt ((s.fe_lt _ hp).trans hpw), Nat.mod_eq_of_lt (hr.trans hpw)]

/-- Settles O42: a valid candidate's root makes the point, and with no valid candidate no value is a square. -/
theorem selectReturnsACurvePoint : Obligations.SelectReturnsACurvePoint := by
  intro s i hi hs hc hh hsch hp h2 hpw hg1 hg2 hg3
  have hg (k : Fin 3) : s.fe (valueReg (candidateIdx k)) = specG s (s.fe (candidateReg k)) := by
    match k with
    | 0 => exact hg1
    | 1 => exact hg2
    | 2 => exact hg3
  obtain ⟨u, -, hroots, hu, hrun10⟩ := runSteps_to_select hi hs hc hsch hh hp h2
  have hreg := hroots.reg
  have hpu : u.p = s.p := hreg 0
  have hfe (j : RegIdx) : u.fe j = s.fe j := by rw [State.fe, hreg, hpu, State.fe]
  have hfw : u.fw = s.fw := by rw [hroots.frame]; rfl
  cases hv : anyValid u with
  | true =>
      obtain ⟨hlt, hsq⟩ := (hroots.roots (chosenCandidate u) (chosenCandidate u).isLt).root (valid_chosenCandidate hv)
      have hres := selectRes_eq_chosen_of_lt (hpu ▸ hp.one_le) (by rw [hpu, hfw]; exact hpw) (hpu ▸ hlt)
      have hx := reg_point_of_selectRes hres 12
      have hy := reg_point_of_selectRes hres 13
      rw [if_pos rfl, hfe] at hx
      rw [if_neg (by decide), if_pos rfl] at hy
      refine ⟨_, hrun10.trans (exec_select_of_anyValid hi hu hv), complete_busy _ _,
        .inl ⟨complete_err _ _, rfl, by rw [hx]; exact s.fe_lt _ hp.pos, ?_⟩⟩
      rw [hx, hy, ← hg]
      exact hsq
  | false =>
      have hlatched : latchedWritesPoint (selectRes u) = true :=
        latchedWritesPoint_of_select hi (by rw [(selectRes_kept u).control.cmdl, hroots.frame]; exact hc)
      have hnone (k : Fin 3) : ¬ IsSquareMod s.p (s.fe (valueReg (candidateIdx k))) := fun hk =>
        absurd (anyValid_of_valid ((hroots.roots k k.isLt).valid_iff.2 hk)) (by rw [hv]; decide)
      refine ⟨_, hrun10.trans (exec_select_of_not_anyValid hi hu hv), complete_busy _ _,
        .inr ⟨complete_err _ _, ?_, ?_, ?_, mt isSquareMod_mod.2 (hnone 0), mt isSquareMod_mod.2 (hnone 1),
          mt isSquareMod_mod.2 (hnone 2)⟩⟩
      · rw [complete_of_latched (by decide) hlatched]; rfl
      · rw [reg_complete_of_latched (by decide) hlatched]; rfl
      · rw [reg_complete_of_latched (by decide) hlatched]; rfl

end Sys2Proof.Machine
end

section
/-! PROOFS. Acceptance, the control commands NOP and CLRW, and the two ends of the commands that write the point. -/

namespace Sys2Proof.Machine

/-! ### Acceptance (R190, R196, R197) -/

/-- Settles O12: an idle `exec` is the acceptance, whose first phase and PV are R199's and R196's. -/
theorem acceptanceStartsTheFirstPhase : Obligations.AcceptanceStartsTheFirstPhase := by
  intro s i first hb hfirst hi
  have hphase : firstPhase i.op = first := by
    rw [hfirst]
    cases i <;> rfl
  have hpv : (s.status.pv && !(i.op == .select || i.op == .h2c)) =
      if i = .select ∨ i = .h2c then false else s.status.pv := by
    cases i with
    | select | h2c => exact Bool.and_false _
    | _ => exact Bool.and_true _
  rw [exec_of_idle hb, if_neg hi, accept, hphase, hpv]

/-- An idle write of CMD issues the word (R26, R196). -/
theorem busWrite_cmd_idle {s : State} (hb : s.status.busy = false) (w : Word) :
    busWrite .w32 0x00C w s = issueCommand w (s.respond .ack) :=
  (hostOp_write (r := .cmd) rfl rfl w s).trans (if_neg (by simp [hb]))

/-- An illegal word completes at once (R197). -/
theorem issueCommand_of_illegal {w : Word} (hw : ∀ i, decode w ≠ .ok i) (s : State) :
    issueCommand w s = .next (completeImmediate .illegalCommand { s with cmdl := w }) := by
  cases h : decode w with
  | ok i => exact absurd h (hw i)
  | error e => simp only [issueCommand, h]

/-- Settles O13: the idle write issues the word, whose immediate completion is all that happens. -/
theorem illegalWordOnlyReports : Obligations.IllegalWordOnlyReports := by
  intro s w hb hw
  rw [busWrite_cmd_idle hb, issueCommand_of_illegal hw]
  rfl

/-- NOP has one legal word (R84, R190). -/
theorem eq_zero_of_decode_of_opc {w : Word} {i : Instr} (h : decode w = .ok i) (hopc : (fieldsOf w).opc = 0) : w = 0 := by
  have hop : i.op = .nop := Op.code_injective ((opc_of_decode h).symm.trans hopc)
  have hnop : i = .nop := by
    cases i with
    | nop => rfl
    | _ => cases hop
  rw [← decodeAndEncodeAgree.2 w i h, hnop]
  rfl

/-- Settles O14: NOP's acceptance is its completion, and a busy block refuses its word as any other. -/
theorem nopCompletesAtAcceptance : Obligations.NopCompletesAtAcceptance := fun _ =>
  ⟨fun hb => exec_of_idle (i := .nop) hb, rfl, fun _ hopc hw _ h => hw (eq_zero_of_decode_of_opc h hopc),
    hostOp_guarded_busy (r := .cmd) (f := issueCommand 0) rfl rfl (fun _ => rfl)⟩

/-! ### CLRW (R191) -/

/-- Settles O15: EXEC is CLRW's only phase, and its step looks at no register's value. -/
theorem clearWorkingRegisters : Obligations.ClearWorkingRegisters := by
  intro s hs
  have hexec : exec .clrw s = .next (complete .ok (clearWorking s)) := by
    rw [hs.exec_eq (i := .clrw) rfl]
    exact congrArg _ (finishPhase_exec rfl hs.2)
  exact ⟨_, hexec, completed_complete .ok rfl ⟨rfl, rfl, rfl⟩, rfl, reg_clearWorking s,
    ⟨complete_env _ _, fun _ => by rw [complete_env, clearWorking_env]⟩, fieldsOf_encode _⟩

/-! ### H2C's self-check (R192, R193) -/

/-- Settles O32: a passing check leads to SQRT, a failing one is an error of H2C. -/
theorem selfcheckPhaseOfH2c : Obligations.SelfcheckPhaseOfH2c := by
  intro s hs hp hcmdl
  have hfail := pointCleared_complete (c := .iafSelfcheck) (by decide) rfl (latchedWritesPoint_of_select (.inr rfl) hcmdl)
  rw [hs.2] at hfail
  exact ⟨fun h => ⟨_, exec_h2c_selfcheck_pass hs hp h, onlyAdvanced_enter .sqrt s⟩,
    fun h => ⟨_, exec_selfcheck_fail rfl hs hp h, hfail⟩⟩

/-! ### The ends of SELECT and H2C (R193, R213) -/

/-- A step that ends a command has raised a code, or has finished the command's last phase (R199). -/
theorem finishPhase_ends {o : Op} {e : PhaseEnd} (hb : e.state.status.busy = true)
    (h : (finishPhase o e).status.busy = false) :
    (∃ c u, e = .raise c u) ∨ ∃ u, e = .finished u ∧ phaseAfter u.status.state (phasesOf o) = none := by
  have notIdle {u : State} (hu : u.status.busy = true) (hidle : u.status.busy = false) : False := by
    rw [hu] at hidle
    cases hidle
  cases e with
  | hold u => exact (notIdle hb h).elim
  | raise c u => exact .inl ⟨c, u, rfl⟩
  | finished u =>
      cases hp : phaseAfter u.status.state (phasesOf o) with
      | none => exact .inr ⟨u, rfl, hp⟩
      | some p =>
          rw [finishPhase_enter rfl hp] at h
          exact (notIdle hb h).elim

/-- No phase step raises the code OK (R212). -/
theorem PhaseStep.ne_raise_ok {ph : Phase} {f : State → PhaseEnd} (h : PhaseStep ph f) (s u : State) :
    f s ≠ .raise .ok u := by
  have derive (d : RegIdx) (c : Byte) : derivePhase d c s ≠ .raise .ok u :=
    ite_ne nofun (ite_ne (ite_ne nofun nofun) nofun)
  have verdict (l r : Nat) (v : State) : selfcheckVerdict l r v ≠ .raise .ok u := ite_ne nofun nofun
  cases h with
  | clear => exact nofun
  | arith | validate | generate | select => exact ite_ne nofun nofun
  | deriveT d c | deriveU d c => exact derive d c
  | selfcheck => exact ite_ne (verdict _ _ _) (verdict _ _ _)
  | sqrt =>
      rcases sqrtPhase_cases s with h | ⟨-, h⟩ | ⟨ans, -, -, h⟩ <;> rw [h]
      · exact nofun
      · exact nofun
      · exact ite_ne nofun nofun

/-- The latched command is one of the two that write the point (R212). -/
theorem select_or_h2c_of_latched {s : State} {i : Instr} (h : decode s.cmdl = .ok i) (hl : latchedWritesPoint s = true) :
    i = .select ∨ i = .h2c := by
  rw [latchedWritesPoint_of_decode h] at hl
  cases i with
  | select => exact .inl rfl
  | h2c => exact .inr rfl
  | _ => cases hl

/-- The last phase of the two commands that write the point is SELECT (R199). -/
theorem bodyOf_last_eq_selectPhase {i : Instr} (hi : i = .select ∨ i = .h2c) {ph : Phase} {f : State → PhaseEnd}
    (hf : bodyOf i ph = some f) (hlast : phaseAfter ph (phasesOf i.op) = none) : f = selectPhase := by
  rcases hi with rfl | rfl
  · cases ph with
    | select => exact (Option.some.inj hf).symm
    | sqrt => cases hlast
    | _ => cases hf
  · cases ph with
    | select => exact (Option.some.inj hf).symm
    | idle | exec => cases hf
    | _ => cases hlast

/-- The SELECT phase finishes only with the point written (R177, R179). -/
theorem pv_of_selectPhase_finished {s u : State} (h : selectPhase s = .finished u) : u.status.pv = true := by
  unfold selectPhase at h
  generalize selectRes s = v at h
  dsimp only at h
  split at h
  · cases h; rfl
  · cases h

/-- A phase step keeps CMDL, so whether the command's errors clear the point (R212). -/
theorem PhaseKept.latchedWritesPoint_eq {s t : State} (h : PhaseKept s t) :
    latchedWritesPoint t = latchedWritesPoint s := by
  rw [latchedWritesPoint, h.control.cmdl, latchedWritesPoint]

/-- Settles O44: an ending step has raised an error, which clears the point, or has finished SELECT, which sets PV. -/
theorem pointIsAllOrNothing : Obligations.PointIsAllOrNothing := by
  intro s t _ hb hl h hbt
  obtain ⟨i, f, hi, hf, rfl⟩ := sequencerTurn_next hb h
  have hstep := phaseStep_of_bodyOf hf
  have hkept := hstep.kept s
  rcases finishPhase_ends (hkept.busy.trans hb) hbt with ⟨c, u, he⟩ | ⟨u, he, hlast⟩ <;> rw [he] at hkept ⊢
  · have hc : c ≠ .ok := fun hc => hstep.ne_raise_ok s u (hc ▸ he)
    have hlu : latchedWritesPoint u = true := hkept.latchedWritesPoint_eq.trans hl
    rw [finishPhase_raise, complete_err, reg_complete_of_latched hc hlu, reg_complete_of_latched hc hlu,
      complete_of_latched hc hlu]
    exact .inr ⟨hc, rfl, rfl, rfl⟩
  · have hstate : u.status.state = s.status.state := hkept.state
    obtain rfl := bodyOf_last_eq_selectPhase (select_or_h2c_of_latched hi hl) hf (hstate ▸ hlast)
    rw [finishPhase_complete rfl hlast]
    exact .inl ⟨complete_err _ _, (complete_ok_pv u).trans (pv_of_selectPhase_finished he)⟩

end Sys2Proof.Machine
end

section
/-! PROOFS. Progress from the invariant, agent by agent, and what a phase step that raises a code has written. -/

namespace Sys2Proof.Machine

/-! ### Progress (R210, R246): the host's turn -/

/-- While BUSY = 0 every word of CMD is issued: a legal one runs its acceptance, an illegal one completes (R196, R197). -/
theorem exists_issueCommand_next {s : State} (hb : s.status.busy = false) (w : Word) :
    ∃ t, issueCommand w s = .next t := by
  cases h : decode w with
  | error e => exact ⟨_, by simp only [issueCommand, h]; rfl⟩
  | ok i => exact ⟨_, by simp only [issueCommand, h]; exact exec_of_idle hb⟩

/-- A guarded write goes on when its idle effect does: while BUSY = 1 it is refused without a stop (R48). -/
theorem exists_guardBusy_next {f : State → Result} {s : State} (hf : s.status.busy = false → ∃ t, f s = .next t) :
    ∃ t, guardBusy f s = .next t := by
  rw [guardBusy]
  split
  · exact ⟨_, rfl⟩
  · rename_i hb
    exact hf (Bool.eq_false_iff.2 hb)

/-- No write of the window stops, whatever word it names (R21, R48, R63). -/
theorem exists_writeRegion_next (r : Region) (v : Word) (s : State) : ∃ t, writeRegion r v s = .next t := by
  cases r with
  | id | cfg | pbits | errinfo | reserved | status => exact ⟨_, rfl⟩
  | cmd => exact exists_guardBusy_next fun hb => exists_issueCommand_next hb v
  | ctrl | hashId | msgAddr | msgLen | dstAddr | dstLen | frWord =>
      rw [writeRegion]
      exact exists_guardBusy_next fun _ => ⟨_, rfl⟩

/-- No host operation stops: a bad access gets the error response (R62). -/
theorem exists_hostOp_next (op : HostOp) (s : State) : ∃ t, hostOp op s = .next t := by
  cases op with
  | read | bufWrite | bufDrop => exact ⟨_, rfl⟩
  | write width off v =>
      rw [hostOp, busWrite]
      split
      · exact exists_writeRegion_next _ v _
      · exact ⟨_, rfl⟩
  | waitIdle =>
      rw [hostOp]
      dsimp only
      split <;> exact ⟨_, rfl⟩

/-- The host's turn never stops. -/
theorem exists_hostTurn_next (s : State) : ∃ t, hostTurn s = .next t := by
  rw [hostTurn]
  split
  · exact ⟨_, rfl⟩
  · exact exists_hostOp_next _ _

/-! ### Progress: the sequencer's turn -/

/-- Every phase of a command's list has a step in its meaning (R199). -/
theorem exists_bodyOf {i : Instr} {p : Phase} (h : p ∈ phasesOf i.op) : ∃ f, bodyOf i p = some f := by
  have hall : ((phasesOf i.op).all fun q => (bodyOf i q).isSome) = true := by cases i <;> rfl
  exact Option.isSome_iff_exists.1 (List.all_eq_true.1 hall p h)

/-- Under the invariant the latched word is legal and STATE is one of its phases, so the sequencer has a step. -/
theorem State.Inv.exists_sequencerTurn_next {s : State} (h : s.Inv) : ∃ t, sequencerTurn s = .next t := by
  cases hb : s.status.busy with
  | false => exact ⟨s, by simp [sequencerTurn, hb]⟩
  | true =>
      obtain ⟨i, hi, hm⟩ := h.running hb
      obtain ⟨f, hf⟩ := exists_bodyOf hm
      refine ⟨finishPhase i.op (f s), ?_⟩
      rw [sequencerTurn, if_pos hb, hi]
      exact (exec_of_busy i hb).trans (runCommand_busy hb hf)

/-- Settles O8: taking a name off the schedule keeps the invariant, and then each agent's turn goes on. -/
theorem noStepStops : Obligations.NoStepStops := by
  intro s hs
  obtain ⟨hinv, -, -⟩ := (popSchedule_envOnly s).invKept hs
  rw [step]
  cases nextAgent s with
  | host => exact exists_hostTurn_next _
  | sequencer => exact hinv.exists_sequencerTurn_next
  | kdf | sqrt | reset => exact ⟨_, rfl⟩

/-! ### What a raising phase step has written (R213, R218) -/

/-- A DERIVE step raises before its write-back: only ERRINFO.KLEN is written (R135). -/
theorem derivePhase_raise {d : RegIdx} {c : Byte} {s u : State} {code : StatusCode}
    (h : derivePhase d c s = .raise code u) : u = { s with errinfo := u.errinfo } := by
  unfold derivePhase consumeResponse at h
  split at h
  · cases h
  · split at h
    · split at h <;> cases h
      rfl
    · cases h

theorem sqrtPhase_ne_raise (s u : State) (c : StatusCode) : sqrtPhase s ≠ .raise c u := by
  rcases sqrtPhase_cases s with h | ⟨-, h⟩ | ⟨ans, -, -, h⟩ <;> rw [h]
  · exact nofun
  · exact nofun
  · exact ite_ne nofun nofun

theorem selectRes_status (s : State) : (selectRes s).status = s.status := by
  obtain ⟨r3, r2, r1, h⟩ := selectRes_eq s
  rw [h, setRes_status, fetch_status, setRes_status, fetch_status, setRes_status, fetch_status]

/-- The SELECT phase raises in place of its write of the point (R177). -/
theorem selectPhase_raise {s u : State} {c : StatusCode} (h : selectPhase s = .raise c u) : u = selectRes s := by
  unfold selectPhase at h
  generalize selectRes s = v at h ⊢
  dsimp only at h
  split at h <;> cases h
  rfl

/-- A phase step that raises a code has written no field register and no field of STATUS: the checks come before the
writes. -/
theorem PhaseStep.raise_writes_nothing {ph : Phase} {f : State → PhaseEnd} (h : PhaseStep ph f) {s u : State}
    {c : StatusCode} (hu : f s = .raise c u) : u.fr = s.fr ∧ u.status = s.status := by
  cases h with
  | arith | generate => exact absurd hu (ite_ne nofun nofun)
  | clear => cases hu
  | validate =>
      have hv := validatePhase_state s
      rw [hu] at hv
      rw [show u = _ from hv, fetch_fr, fetch_fr, fetch_status, fetch_status]
      exact ⟨rfl, rfl⟩
  | deriveT | deriveU =>
      rw [derivePhase_raise hu]
      exact ⟨rfl, rfl⟩
  | selfcheck =>
      have hv := selfcheckPhase_state s
      rw [hu] at hv
      rcases (show u = s ∨ u = s.nextDraw.nextDraw from hv) with rfl | rfl <;> exact ⟨rfl, rfl⟩
  | sqrt => exact absurd hu (sqrtPhase_ne_raise s u c)
  | select =>
      rw [selectPhase_raise hu]
      exact ⟨selectRes_fr s, selectRes_status s⟩

/-- Settles O45: an ending step with an error has raised it with nothing written, and the completion of a command other
than SELECT and H2C writes neither register nor PV. -/
theorem errorsOfOtherCommandsWriteNothing : Obligations.ErrorsOfOtherCommandsWriteNothing := by
  intro s t _ hb hl h hbt herr
  obtain ⟨i, f, -, hf, rfl⟩ := sequencerTurn_next hb h
  have hstep := phaseStep_of_bodyOf hf
  have hkept := hstep.kept s
  rcases finishPhase_ends (hkept.busy.trans hb) hbt with ⟨c, u, he⟩ | ⟨u, he, hlast⟩ <;> rw [he] at hkept herr ⊢
  · obtain ⟨hfr, hstatus⟩ := hstep.raise_writes_nothing he
    have hlu : latchedWritesPoint u = false := hkept.latchedWritesPoint_eq.trans hl
    rw [finishPhase_raise, complete_of_not_latched c hlu]
    have hpv : u.status.pv = s.status.pv := congrArg Status.pv hstatus
    exact ⟨hfr, hpv⟩
  · rw [finishPhase_complete rfl hlast] at herr
    exact absurd (complete_err _ _) herr

end Sys2Proof.Machine
end

section
/-! PROOFS. Reset during a command (R242, R243), and a bound on the steps of a running command (R254): no command
has more left than H2C at its start, and every turn of the block or of a collaborator with work to do leaves less. -/

namespace Sys2Proof.Machine

/-- Settles O5: the reset values say idle with nothing on a port, and then no agent of the block has a step. -/
theorem resetAbortsAndDropsAnswers : Obligations.ResetAbortsAndDropsAnswers :=
  fun s => ⟨resetTurn s, rfl, rfl, rfl, rfl, reg_reset, rfl, rfl, rfl⟩

/-! ### The steps a phase has left -/

/-- The steps of a KDF call that are left: issue, answer, consume (R130, R139). -/
def kdfStepsLeft (h : Hidden) : Nat :=
  if h.krspRdy then 1 else if h.kpend then 2 else 3

/-- The candidates that come after the one SQIDX stands for; SQIDX is 0 before the first request (R42; entry 17). -/
def candidatesAfter (idx : BitVec 2) : Nat :=
  3 - max 1 idx.toNat

/-- The steps of the three root requests that are left: issue, answer, store in each round (R178). -/
def sqrtStepsLeft (h : Hidden) : Nat :=
  3 * candidatesAfter h.sqidx + if h.sqrtAns.isSome then 1 else if h.sqpend then 2 else 3

/-- The steps left in a phase; a phase without a port takes one (R250). -/
def phaseStepsLeft (h : Hidden) : Phase → Nat
  | .deriveT | .deriveU => kdfStepsLeft h
  | .sqrt => sqrtStepsLeft h
  | _ => 1

/-- The most steps a command can take after a phase, as H2C does (R192). -/
def stepsAfter : Phase → Nat
  | .validate => 18
  | .deriveT => 15
  | .deriveU => 12
  | .generate => 11
  | .selfcheck => 10
  | .sqrt => 1
  | .select | .exec | .idle => 0

/-- A bound on the steps a running command has left. -/
def State.stepsLeft (s : State) : Nat :=
  phaseStepsLeft s.hid s.status.state + stepsAfter s.status.state

theorem kdfStepsLeft_pos (h : Hidden) : 0 < kdfStepsLeft h := by
  rw [kdfStepsLeft]
  split_ifs <;> decide

theorem sqrtStepsLeft_pos (h : Hidden) : 0 < sqrtStepsLeft h := by
  rw [sqrtStepsLeft]
  split_ifs <;> omega

/-- A phase that is not over has a step left. -/
theorem phaseStepsLeft_pos (h : Hidden) (p : Phase) : 0 < phaseStepsLeft h p := by
  cases p with
  | deriveT | deriveU => exact kdfStepsLeft_pos h
  | sqrt => exact sqrtStepsLeft_pos h
  | _ => exact Nat.one_pos

/-- No phase has more steps left than at its start. -/
theorem phaseStepsLeft_le_cleared (h : Hidden) (p : Phase) : phaseStepsLeft h p ≤ phaseStepsLeft Hidden.cleared p := by
  cases p with
  | deriveT | deriveU =>
      show kdfStepsLeft h ≤ 3
      rw [kdfStepsLeft]
      split_ifs <;> decide
  | sqrt =>
      show sqrtStepsLeft h ≤ 9
      rw [sqrtStepsLeft, candidatesAfter]
      split_ifs <;> omega
  | _ => exact Nat.le_refl _

/-- No command has more than 19 steps left (R254; entry 3). -/
theorem stepsLeft_le (s : State) : s.stepsLeft ≤ 19 := by
  have hstart (p : Phase) : phaseStepsLeft Hidden.cleared p + stepsAfter p ≤ 19 := by cases p <;> decide
  exact (Nat.add_le_add_right (phaseStepsLeft_le_cleared _ _) _).trans (hstart _)

/-! ### The order of the phases -/

/-- The whole of phase `p` and what comes after it are among the steps counted after phase `q`. -/
abbrev LeadsTo (q p : Phase) : Prop := phaseStepsLeft Hidden.cleared p + stepsAfter p ≤ stepsAfter q

/-- A relation between all neighbours of a list holds between a phase and the phase after it. -/
theorem rel_of_phaseAfter {R : Phase → Phase → Prop} {q p : Phase} {l : List Phase} (hl : l.IsChain R)
    (h : phaseAfter q l = some p) : R q p := by
  induction l with
  | nil => cases h
  | cons r rest ih =>
      unfold phaseAfter at h
      split at h
      · subst r
        obtain ⟨rest', rfl⟩ := List.head?_eq_some_iff.1 h
        exact hl.rel
      · exact ih hl.tail h

/-- The phase list of every command runs through H2C's phases in their order (R199). -/
theorem phasesOf_isChain (o : Op) : (phasesOf o).IsChain LeadsTo := by
  cases o <;> decide

/-! ### A step that comes nearer to completion -/

/-- A step has left the schedule alone, and it has completed the command or shortened what is left of it. -/
structure Nearer (s t : State) : Prop where
  schedule : t.env.schedule = s.env.schedule
  progress : (t.status.busy = false ∧ t.status.done = true) ∨ (t.status.busy = true ∧ t.stepsLeft < s.stepsLeft)

theorem PhaseKept.schedule {s t : State} (h : PhaseKept s t) : t.env.schedule = s.env.schedule := by
  obtain ⟨n, hn⟩ := h.env
  rw [hn]

/-- A step within a phase comes nearer when it shortens the phase. -/
theorem PhaseKept.nearer {s t : State} (h : PhaseKept s t) (hb : s.status.busy = true)
    (hlt : phaseStepsLeft t.hid s.status.state < phaseStepsLeft s.hid s.status.state) : Nearer s t where
  schedule := h.schedule
  progress := by
    refine .inr ⟨h.busy.trans hb, ?_⟩
    rw [State.stepsLeft, h.state]
    exact Nat.add_lt_add_right hlt _

/-- A step that enters the next phase comes nearer: every phase of the list was counted. -/
theorem PhaseKept.nearer_enter {s t : State} (h : PhaseKept s t) (hb : s.status.busy = true) {o : Op} {p : Phase}
    (hp : phaseAfter s.status.state (phasesOf o) = some p) : Nearer s (t.enter p) where
  schedule := h.schedule
  progress := by
    have hnext : LeadsTo s.status.state p := rel_of_phaseAfter (phasesOf_isChain o) hp
    have hin := phaseStepsLeft_le_cleared t.hid p
    have hpos := phaseStepsLeft_pos s.hid s.status.state
    refine .inr ⟨h.busy.trans hb, ?_⟩
    show phaseStepsLeft t.hid p + stepsAfter p < phaseStepsLeft s.hid s.status.state + stepsAfter s.status.state
    omega

/-- A completion is the end (R212). -/
theorem PhaseKept.nearer_complete {s t : State} (h : PhaseKept s t) (c : StatusCode) : Nearer s (complete c t) :=
  ⟨by rw [complete_env]; exact h.schedule, .inl ⟨complete_busy c t, complete_done c t⟩⟩

/-! ### The collaborators' turns -/

/-- An answer of the KDF collaborator comes nearer to completion (R130). -/
theorem kdfTurn_nearer {s : State} (hs : s.Inv) (hb : s.status.busy = true) (hk : s.hid.kpend = true) :
    Nearer s (kdfTurn s) := by
  obtain ⟨q, hq⟩ := Option.isSome_iff_exists.1 (hs.kdf_held ▸ hk)
  have hnone : s.hid.krspRdy = false := Bool.eq_false_iff.2 fun hr => hs.kdf_one ⟨hk, hr⟩
  have hrdy : (kdfTurn s).hid.krspRdy = true := by simp only [kdfTurn, hk, hq]
  have hlt : kdfStepsLeft (kdfTurn s).hid < kdfStepsLeft s.hid := by simp [kdfStepsLeft, hrdy, hnone, hk]
  refine (kdfTurn_kept s).1.nearer hb ?_
  rcases hs.kdf_phase (.inl hk) with h | h <;> rw [h] <;> exact hlt

/-- An answer of the SQRT collaborator comes nearer to completion (R170). -/
theorem sqrtTurn_nearer {s : State} (hs : s.Inv) (hb : s.status.busy = true) (hq : s.hid.sqpend = true) :
    Nearer s (sqrtTurn s) := by
  obtain ⟨q, hreq⟩ := Option.isSome_iff_exists.1 (hs.sqrt_held ▸ hq)
  have hlt : sqrtStepsLeft (sqrtTurn s).hid < sqrtStepsLeft s.hid := by
    simp [sqrtStepsLeft, sqrtTurn_of_request hq hreq, rootAnswered, hs.sqrt_one hq, hq]
  refine (sqrtTurn_kept s).1.nearer hb ?_
  rw [(hs.sqrt_phase (.inl hq)).1]
  exact hlt

/-! ### The sequencer's turn -/

/-- A DERIVE step that holds with no request outstanding has issued one (R130). -/
theorem derivePhase_hold_lt {d : RegIdx} {c : Byte} {s u : State} (hk : s.hid.kpend = false)
    (hu : derivePhase d c s = .hold u) : kdfStepsLeft u.hid < kdfStepsLeft s.hid := by
  cases hr : s.hid.krspRdy with
  | false =>
      rw [derivePhase_of_quiet d c hk hr] at hu
      cases hu
      simp [kdfStepsLeft, hk, hr]
  | true =>
      rw [derivePhase_of_response d c hk hr] at hu
      exact absurd hu (ite_ne nofun nofun)

/-- The first request is candidate 1's, for which SQIDX 0 stood. -/
theorem candidatesAfter_issued (idx : BitVec 2) :
    candidatesAfter (if idx = 0 then 1 else idx) = candidatesAfter idx := by
  revert idx; decide

/-- The step to the next candidate leaves one candidate fewer after it. -/
theorem candidatesAfter_succ {idx : BitVec 2} (h0 : idx ≠ 0) (h3 : idx ≠ 3) :
    candidatesAfter idx = candidatesAfter (idx + 1) + 1 := by
  revert idx; decide

/-- The hidden registers after a request for a root: only the port and SQIDX differ (R170, R178). -/
theorem issueRoot_hid (s : State) : ∃ q, (issueRoot s).hid =
    { s.hid with sqidx := if s.hid.sqidx = 0 then 1 else s.hid.sqidx, sqpend := true, sqrtReq := some q } := by
  simp only [issueRoot, fetch_hid]
  exact ⟨_, rfl⟩

/-- A SQRT step that holds with no request outstanding has issued one, or has stored an answer and gone on to the next
candidate (R178). -/
theorem sqrtPhase_hold_lt {s u : State} (hs : s.Inv) (hq : s.hid.sqpend = false) (hu : sqrtPhase s = .hold u) :
    sqrtStepsLeft u.hid < sqrtStepsLeft s.hid := by
  cases ha : s.hid.sqrtAns with
  | none =>
      rw [sqrtPhase_of_quiet hq ha] at hu
      cases hu
      obtain ⟨q, hissued⟩ := issueRoot_hid s
      simp only [sqrtStepsLeft, hissued, candidatesAfter_issued, ha, hq]
      exact Nat.add_lt_add_left (by decide) _
  | some ans =>
      have hidx : s.hid.sqidx ≠ 0 := (hs.sqrt_phase (.inr (by rw [ha]; rfl))).2
      rw [sqrtPhase_of_answer hq ha] at hu
      split at hu <;> cases hu
      rename_i hlast
      simp only [sqrtStepsLeft, candidatesAfter_succ hidx hlast, storeRoot_hid, ha, hq, Option.isSome_none,
        Option.isSome_some, Bool.false_eq_true, if_true, if_false]
      omega

/-- A phase step that holds with nothing outstanding shortens its phase; only the phases with a port hold. -/
theorem PhaseStep.hold_lt {ph : Phase} {f : State → PhaseEnd} (h : PhaseStep ph f) {s u : State} (hs : s.Inv)
    (hk : s.hid.kpend = false) (hq : s.hid.sqpend = false) (hu : f s = .hold u) :
    phaseStepsLeft u.hid ph < phaseStepsLeft s.hid ph := by
  have verdict (l r : Nat) (v : State) : selfcheckVerdict l r v ≠ .hold u := ite_ne nofun nofun
  cases h with
  | clear => cases hu
  | arith | validate | generate | select => exact absurd hu (ite_ne nofun nofun)
  | selfcheck => exact absurd hu (ite_ne (verdict _ _ _) (verdict _ _ _))
  | deriveT d c | deriveU d c => exact derivePhase_hold_lt hk hu
  | sqrt => exact sqrtPhase_hold_lt hs hq hu

/-- A step of the sequencer with nothing outstanding comes nearer to completion (R199). -/
theorem sequencerTurn_nearer {s t : State} (hs : s.Inv) (hb : s.status.busy = true) (hk : s.hid.kpend = false)
    (hq : s.hid.sqpend = false) (h : sequencerTurn s = .next t) : Nearer s t := by
  obtain ⟨i, f, -, hf, rfl⟩ := sequencerTurn_next hb h
  have hstep := phaseStep_of_bodyOf hf
  have hkept := hstep.kept s
  rcases finishPhase_cases i.op (f s) with ⟨u, he, hu⟩ | ⟨u, p, he, hp, hu⟩ | ⟨c, hu⟩ <;> rw [hu]
  · rw [he] at hkept
    exact hkept.nearer hb (hstep.hold_lt hs hk hq he)
  · rw [he] at hkept
    have hstate : u.status.state = s.status.state := hkept.state
    exact hkept.nearer_enter hb (hstate ▸ hp)
  · exact hkept.nearer_complete c

/-! ### Runs -/

/-- With an empty schedule the default agent of a running command has work to do. -/
theorem exists_step_nearer {s : State} (hs : s.Inv) (hb : s.status.busy = true) (hsch : s.env.schedule = []) :
    ∃ t, step s = .next t ∧ Nearer s t := by
  cases hk : s.hid.kpend with
  | true => exact ⟨_, step_kdf hsch hk, kdfTurn_nearer hs hb hk⟩
  | false =>
      cases hq : s.hid.sqpend with
      | true => exact ⟨_, step_sqrt hsch hk hq, sqrtTurn_nearer hs hb hq⟩
      | false =>
          have hstep : step s = sequencerTurn s := by
            rw [step_of_no_schedule hsch, defaultAgent, hk, hq, hb]
            rfl
          obtain ⟨t, ht⟩ := hs.exists_sequencerTurn_next
          exact ⟨t, hstep.trans ht, sequencerTurn_nearer hs hb hk hq ht⟩

/-- A command completes within any number of steps that bounds what it has left. -/
theorem runSteps_completes {n : Nat} {s : State} (hs : s.Inv) (hb : s.status.busy = true) (hsch : s.env.schedule = [])
    (hn : s.stepsLeft ≤ n) : ∃ m ≤ n, ∃ t, runSteps m s = .next t ∧ t.status.busy = false ∧ t.status.done = true := by
  induction n generalizing s with
  | zero =>
      have hpos : 0 < s.stepsLeft := Nat.add_pos_left (phaseStepsLeft_pos _ _) _
      omega
  | succ n ih =>
      obtain ⟨t, ht, hsame, hend | ⟨hbt, hlt⟩⟩ := exists_step_nearer hs hb hsch
      · exact ⟨1, by omega, t, runSteps_one ht, hend⟩
      · obtain ⟨hinv, -, -⟩ := stepKeepsTheInvariant s t hs ht
        obtain ⟨m, hm, v, hv, hend⟩ := ih hinv hbt (hsame.trans hsch) (by omega)
        refine ⟨1 + m, by omega, v, ?_, hend⟩
        rw [runSteps_add (runSteps_one ht), hv]

/-- Settles O9: what is left of a command is at most 19 steps, and every step shortens it. -/
theorem runningCommandCompletes : Obligations.RunningCommandCompletes :=
  fun s hs hb hsch => runSteps_completes hs hb hsch (stepsLeft_le s)

end Sys2Proof.Machine
end
